-- ==== Sys2Proof/Word.lean ====
section
/-! DEFINITION. The bit-vector types of HUFFCORE, each at the width 00_scope.md R8 gives this instance.
All values are unsigned and bit 0 is the least significant bit (R12). -/

namespace Sys2Proof

/-- A command word, `CMD_W` = 16 bits (30_encoding.md R70). -/
abbrev CmdWord := BitVec 16

/-- The opcode field `w[15:12]` (R71). -/
abbrev Opcode := BitVec 4

/-- A Symbol, `SYM_W` = 8 bits (00_scope.md R14). -/
abbrev Symbol := BitVec 8

/-- A count or weight, `W_W` = 32 bits (R8). -/
abbrev Count := BitVec 32

/-- A node index, `NODE_W` = 9 bits (R8). -/
abbrev NodeIdx := BitVec 9

/-- A register number of RDREG, 4 bits (10_state.md R37). -/
abbrev RegNum := BitVec 4

/-- The length of a codeword, `LEN_W` = 8 bits (R8). -/
abbrev PathLen := BitVec 8

/-- The digits of a path, `CW_MAX` = 255 bits; bit `k` is digit `k`, digit 0 first (10_state.md R35). -/
abbrev PathBits := BitVec 255

/-- The info value an error records, 9 bits (60_exceptions.md R172). -/
abbrev Info := BitVec 9

/-- Response data, `RSP_W` = 264 bits (30_encoding.md R87). -/
abbrev RspData := BitVec 264

end Sys2Proof
end

