-- ==== Sys2Proof/Config.lean ====
section
/-! DEFINITION. What an instance of HUFFCORE fixes (00_scope.md R8): the two free parameters at their values here and the
quantities the spec computes from them. The spec leaves no other parameter open (92_eei_decisions.md, last paragraph), and
no value free, so there is no uninterpreted constant. -/

namespace Sys2Proof.Config

/-- `SYM_W`: bits in a Symbol (R8, D3). -/
abbrev symW : Nat := 8

/-- `W_W`: bits in a count or weight (R8, D2). -/
abbrev weightW : Nat := 32

/-- `NSYM` = 2^SYM_W: number of distinct symbols (R8). -/
abbrev numSymbols : Nat := 256

/-- `MAXNODES` = 2·NSYM − 1: entries of node memory (R8). -/
abbrev maxNodes : Nat := 511

/-- `CW_MAX` = NSYM − 1: longest codeword in digits (R8). -/
abbrev maxDigits : Nat := 255

/-- `W_MAX` = 2^W_W − 1: largest count, weight and input length (R8). -/
abbrev maxCount : Nat := 4294967295

/-- The constant the `CONFIG` register reads as, `0x2008` (10_state.md R37). -/
def configWord : BitVec 16 := 0x2008#16

end Sys2Proof.Config
end

