-- ==== Sys2Proof/Syntax.lean ====
section
/-! DEFINITION. The commands of HUFFCORE (30_encoding.md R74): one constructor per row of spec/opcode_table.json.
An operand has exactly the width its format gives it (R72, R73), so no operand can be out of its field. -/

namespace Sys2Proof

/-- A command. The fifteen commands of R74, and the reserved opcode of R75, whose row is no command but has words. -/
inductive Instr where
  /-- NOP, do nothing (44_readback.md R140). -/
  | nop
  /-- CLR, clear the core for a new input (40_build.md R91). -/
  | clr
  /-- SYM s, count one occurrence of `s` (40_build.md R92). -/
  | sym (s : Symbol)
  /-- BUILD, build the tree from `FREQ` (40_build.md R93). -/
  | build
  /-- DERIVE, fill `CODE` from the tree (41_derive.md R110). -/
  | derive
  /-- ENCBEG, open an encode transaction (42_encode.md R120). -/
  | encbeg
  /-- ENC s, emit the codeword of `s` (42_encode.md R121). -/
  | enc (s : Symbol)
  /-- ENCEND, close the encode transaction (42_encode.md R122). -/
  | encend
  /-- DECBEG, open a decode transaction (43_decode.md R130). -/
  | decbeg
  /-- DBIT b, consume one bit; `false` is digit 0, `true` digit 1 (43_decode.md R131). -/
  | dbit (b : Bool)
  /-- DECEND, end of the bit sequence (43_decode.md R132). -/
  | decend
  /-- RDREG r, read register number `r` (44_readback.md R141). -/
  | rdreg (r : RegNum)
  /-- RDFREQ s, read the count of `s` (44_readback.md R142). -/
  | rdfreq (s : Symbol)
  /-- RDNODE i, read tree node `i` (44_readback.md R143). -/
  | rdnode (i : NodeIdx)
  /-- RDCODE s, read the code-table entry of `s` (44_readback.md R144). -/
  | rdcode (s : Symbol)
  /-- A word with the reserved opcode 0xF and its other twelve bits; it raises `E_ILLEGAL` (30_encoding.md R75). -/
  | reservedF (rest : BitVec 12)
  deriving DecidableEq, Repr

/-- The operand formats (30_encoding.md R72). -/
inductive Format where
  /-- No operand. -/
  | n
  /-- A symbol, `w[7:0]`. -/
  | s
  /-- One bit, `w[0]`. -/
  | b
  /-- A node index, `w[8:0]`. -/
  | i
  /-- A register number, `w[3:0]`. -/
  | r
  deriving DecidableEq, Repr

end Sys2Proof
end

