-- ==== Sys2Proof/WellFormed.lean ====
section
/-! DEFINITION. What is a command and what is not (30_encoding.md R72, R74, R75), stated by the spec's match and mask
numbers and so apart from the decoder: the decoder is held against this file. -/

namespace Sys2Proof

/-- The operand bits a format requires to be 0, among `w[8:0]` (R72). -/
def formatZeroBits : Format → CmdWord
  | .n => 0x01FF#16
  | .s => 0x0100#16
  | .b => 0x01FE#16
  | .i => 0x0000#16
  | .r => 0x01F0#16

/-- One row of the opcode map of R74. -/
structure OpcodeRow where
  mnemonic : String
  opcode : Opcode
  format : Format
  matchBits : CmdWord
  mask : CmdWord
  deriving DecidableEq, Repr

/-- The fifteen commands of R74 with their match and mask, as that rule's table has them. -/
def opcodeRows : List OpcodeRow :=
  [ ⟨"NOP", 0x0#4, .n, 0x0000#16, 0xFFFF#16⟩,
    ⟨"CLR", 0x1#4, .n, 0x1000#16, 0xFFFF#16⟩,
    ⟨"SYM", 0x2#4, .s, 0x2000#16, 0xFF00#16⟩,
    ⟨"BUILD", 0x3#4, .n, 0x3000#16, 0xFFFF#16⟩,
    ⟨"DERIVE", 0x4#4, .n, 0x4000#16, 0xFFFF#16⟩,
    ⟨"ENCBEG", 0x5#4, .n, 0x5000#16, 0xFFFF#16⟩,
    ⟨"ENC", 0x6#4, .s, 0x6000#16, 0xFF00#16⟩,
    ⟨"ENCEND", 0x7#4, .n, 0x7000#16, 0xFFFF#16⟩ ] ++
  [ ⟨"DECBEG", 0x8#4, .n, 0x8000#16, 0xFFFF#16⟩,
    ⟨"DBIT", 0x9#4, .b, 0x9000#16, 0xFFFE#16⟩,
    ⟨"DECEND", 0xA#4, .n, 0xA000#16, 0xFFFF#16⟩,
    ⟨"RDREG", 0xB#4, .r, 0xB000#16, 0xFFF0#16⟩,
    ⟨"RDFREQ", 0xC#4, .s, 0xC000#16, 0xFF00#16⟩,
    ⟨"RDNODE", 0xD#4, .i, 0xD000#16, 0xFE00#16⟩,
    ⟨"RDCODE", 0xE#4, .s, 0xE000#16, 0xFF00#16⟩ ]

/-- `w` is a word of the row: `w & mask = match` (R74). -/
def OpcodeRow.covers (row : OpcodeRow) (w : CmdWord) : Bool := w &&& row.mask == row.matchBits

/-- The word is a command: some row of R74 covers it. Every other word is illegal (R75). -/
def wordWellFormed (w : CmdWord) : Bool := opcodeRows.any fun row => row.covers w

/-- The instruction is one of the fifteen commands and not the reserved opcode (R74, R75). -/
def instrWellFormed : Instr → Bool
  | .reservedF _ => false
  | _ => true

end Sys2Proof
end

