-- ==== Sys2Proof/Decode.lean ====
section
/-! DEFINITION. The decoder (30_encoding.md R86), total on all 65536 words and refusing by name, and after it the encoder
(R71, R72, R84), written from the same layout. -/

namespace Sys2Proof

/-- Why a word whose opcode is not 0xF is illegal (R75). -/
inductive Illegal where
  /-- One of the bits `w[11:9]` is 1. -/
  | reservedBits
  /-- An operand bit the format does not use is 1. -/
  | operandBits
  deriving DecidableEq, Repr

/-- `w[15:12]` (R71). -/
def opcodeOf (w : CmdWord) : Opcode := w.extractLsb' 12 4

/-- Format N: `w[8:0]` must be 0 (R86). -/
def decodeN (i : Instr) (w : CmdWord) : Except Illegal Instr :=
  if w.extractLsb' 0 9 = 0#9 then .ok i else .error .operandBits

/-- Format S: `w[8]` must be 0, the symbol is `w[7:0]` (R86). -/
def decodeS (f : Symbol → Instr) (w : CmdWord) : Except Illegal Instr :=
  if w.extractLsb' 8 1 = 0#1 then .ok (f (w.extractLsb' 0 8)) else .error .operandBits

/-- Format B: `w[8:1]` must be 0, the bit is `w[0]` (R86). -/
def decodeB (f : Bool → Instr) (w : CmdWord) : Except Illegal Instr :=
  if w.extractLsb' 1 8 = 0#8 then .ok (f (w.getLsbD 0)) else .error .operandBits

/-- Format I: the node index is `w[8:0]` (R86). -/
def decodeI (f : NodeIdx → Instr) (w : CmdWord) : Except Illegal Instr :=
  .ok (f (w.extractLsb' 0 9))

/-- Format R: `w[8:4]` must be 0, the register number is `w[3:0]` (R86). -/
def decodeR (f : RegNum → Instr) (w : CmdWord) : Except Illegal Instr :=
  if w.extractLsb' 4 5 = 0#5 then .ok (f (w.extractLsb' 0 4)) else .error .operandBits

/-- The operand of a word whose bits `[11:9]` are 0, by opcode (R74, R86). -/
def decodeOperand (w : CmdWord) : Except Illegal Instr :=
  match (opcodeOf w).toNat with
  | 0x0 => decodeN .nop w
  | 0x1 => decodeN .clr w
  | 0x2 => decodeS .sym w
  | 0x3 => decodeN .build w
  | 0x4 => decodeN .derive w
  | 0x5 => decodeN .encbeg w
  | 0x6 => decodeS .enc w
  | 0x7 => decodeN .encend w
  | 0x8 => decodeN .decbeg w
  | 0x9 => decodeB .dbit w
  | 0xA => decodeN .decend w
  | 0xB => decodeR .rdreg w
  | 0xC => decodeS .rdfreq w
  | 0xD => decodeI .rdnode w
  | 0xE => decodeS .rdcode w
  | _ => .ok (.reservedF (w.extractLsb' 0 12))

/-- The decode algorithm of R86. A word with opcode 0xF is read as `reservedF`, whose meaning is the illegal word's
(notes/assumptions/9.md); every other illegal word is refused by name. -/
def decode (w : CmdWord) : Except Illegal Instr :=
  if opcodeOf w = 0xF#4 then .ok (.reservedF (w.extractLsb' 0 12))
  else if w.extractLsb' 9 3 ≠ 0#3 then .error .reservedBits
  else decodeOperand w

/-- The opcode of each command (R74). -/
def instrOpcode : Instr → Opcode
  | .nop => 0x0#4
  | .clr => 0x1#4
  | .sym _ => 0x2#4
  | .build => 0x3#4
  | .derive => 0x4#4
  | .encbeg => 0x5#4
  | .enc _ => 0x6#4
  | .encend => 0x7#4
  | .decbeg => 0x8#4
  | .dbit _ => 0x9#4
  | .decend => 0xA#4
  | .rdreg _ => 0xB#4
  | .rdfreq _ => 0xC#4
  | .rdnode _ => 0xD#4
  | .rdcode _ => 0xE#4
  | .reservedF _ => 0xF#4

/-- Bits `[11:0]` of each command: three zero bits, then the operand with zeros where the format uses no bit (R71, R72). -/
def instrLowBits : Instr → BitVec 12
  | .sym s | .enc s | .rdfreq s | .rdcode s => 0#4 ++ s
  | .dbit b => 0#11 ++ BitVec.ofBool b
  | .rdreg r => 0#8 ++ r
  | .rdnode i => 0#3 ++ i
  | .reservedF rest => rest
  | .nop | .clr | .build | .derive | .encbeg | .encend | .decbeg | .decend => 0#12

/-- The word of a command (R84: match ORed with the operand). -/
def encode (i : Instr) : CmdWord := instrOpcode i ++ instrLowBits i

/-- The decoder as the host's opcode-table check calls it: `w` holds the instruction's first `nbits` bits, bit 0 the least
significant of the one 16-bit word, and every bit above `nbits` is 0. No instruction is longer than one word (R70). -/
def decodeTableWord (nbits w : Nat) : Option Instr :=
  if nbits ≤ 16 then
    match decode (BitVec.ofNat 16 (w % 2 ^ nbits)) with
    | .ok i => some i
    | .error _ => none
  else none

end Sys2Proof
end

