-- ==== Sys2Proof/Machine/State.lean ====
section
/-! DEFINITION. The state of HUFFCORE (10_state.md R20), the host's pending actions, the reasons a step can stop, and the
state after reset (R45). Plain data throughout. -/

namespace Sys2Proof.Machine

/-- Why the model stops. Each is raised only in a state the spec's invariants rule out (10_state.md R38 to R44), so no run
from reset meets one; the spec states no effect there. All are SAFE: the model stops where the hardware is not described. -/
inductive Fault where
  /-- Raised by BUILD, DERIVE, DBIT and RDNODE when they read a `NODE` entry nothing has written (R45, R56;
  93_implementation_defined.md I1: a model gives these entries no value). Safe. -/
  | unwrittenNode
  /-- Raised by ENC and RDCODE when they read a `CODE` entry nothing has written (R45, R56; I2). Safe. -/
  | unwrittenCode
  /-- Raised by SYM and BUILD when an exact sum would pass `W_MAX`, which `TOTAL = Σ FREQ ≤ W_MAX` rules out
  (00_scope.md R12, 10_state.md R39). Safe. -/
  | countOverflow
  /-- Raised by BUILD when it would take a node from an empty queue: `TOTAL ≠ 0` with every `FREQ[s] = 0` (R39 rules it
  out). Safe. -/
  | emptyQueue
  /-- Raised by DBIT when `PTR` names a leaf, which has no `left` or `right` (R44, 43_decode.md R134 rule it out). Safe. -/
  | leafHasNoChild
  /-- Raised by DERIVE when a path would pass `CW_MAX` = 255 digits (00_scope.md R9 rules it out). Safe. -/
  | pathOverflow
  /-- Raised by DERIVE when the walk has visited `MAXNODES` nodes and is not done: `NODE` holds no tree (10_state.md R38
  rules it out). Safe. -/
  | walkNotEnding
  deriving DecidableEq, Repr

/-- Why the model has no meaning for an instruction. -/
inductive Refusal where
  /-- Raised by an arm of `exec` whose instruction has no meaning yet. Safe. No arm of this model raises it. -/
  | notModelled (mnemonic : String)
  deriving DecidableEq, Repr

/-- `MODE` (10_state.md R23); the value 3 is never produced and is not representable (notes/assumptions/8.md). -/
inductive Mode where
  /-- 0: no transaction open. -/
  | idle
  /-- 1: an encode transaction is open. -/
  | enc
  /-- 2: a decode transaction is open. -/
  | dec
  deriving DecidableEq, Repr

/-- The seven errors of 60_exceptions.md R171. -/
inductive ErrorCode where
  /-- 1, `EmptyInputError`: BUILD with `TOTAL = 0`. -/
  | empty
  /-- 2, `UnknownSymbolError`: ENC s with no codeword for `s`. -/
  | unknown
  /-- 3, `TruncatedCodeError`: DECEND with `PTR ≠ ROOT`. -/
  | trunc
  /-- 4, `E_SEQ`: a legal word not legal in the current state. -/
  | seq
  /-- 5, `E_ILLEGAL`: an illegal word. -/
  | illegal
  /-- 6, `E_OVERFLOW`: SYM with `TOTAL = W_MAX`. -/
  | overflow
  /-- 7, `E_RANGE`: a register number or node index out of range. -/
  | range
  deriving DecidableEq, Repr

/-- One entry of `NODE` (10_state.md R33). -/
inductive NodeEntry where
  | leaf (symbol : Symbol) (weight : Count)
  | internal (weight : Count) (left right : NodeIdx)
  deriving DecidableEq, Repr

/-- One entry of `CODE` (10_state.md R35). -/
structure CodeEntry where
  valid : Bool
  len : PathLen
  bits : PathBits
  deriving DecidableEq, Repr

/-- One entry of `STK`: a node and the path so far (10_state.md R42). -/
structure StackEntry where
  node : NodeIdx
  len : PathLen
  bits : PathBits
  deriving DecidableEq, Repr

/-- A response (30_encoding.md R78). -/
structure Response where
  err : BitVec 4
  data : RspData
  deriving DecidableEq, Repr

/-- What the host can do at the ports (30_encoding.md R87, R88; 70_reset_and_hazards.md R190). -/
inductive HostAction where
  /-- Present the command word until the core takes it. -/
  | send (w : CmdWord)
  /-- Take the response the core presents. -/
  | take
  /-- Assert `rst`. -/
  | reset
  deriving DecidableEq, Repr

/-- A table memory: (index, entry) pairs. Its canonical form is `Memory.wf` (Machine/Ops.lean). -/
abbrev Table (α : Type) := List (Nat × α)

/-- The three table memories (20_memory.md R50). -/
structure Memory where
  /-- `FREQ`; an index not listed reads 0 (R45). -/
  freq : Table Count
  /-- `NODE`; an index not listed has no value (R45, R56). -/
  node : Table NodeEntry
  /-- `CODE`; an index not listed has no value (R45, R56). -/
  code : Table CodeEntry
  deriving DecidableEq, Repr

/-- The state of the machine: the architectural state of 10_state.md R20, the response port, and the host's pending
actions. -/
structure State where
  /-- `MODE` (R23). -/
  mode : Mode
  /-- `TV`, tree valid (R24). -/
  tv : Bool
  /-- `CV`, code table valid (R25). -/
  cv : Bool
  /-- `PTR`, the decoder's current node (R26). -/
  ptr : NodeIdx
  /-- `TOTAL`, the number of SYM commands accepted (R27). -/
  total : Count
  /-- `NLEAF` (R28). -/
  nleaf : NodeIdx
  /-- `NNODES` (R29). -/
  nnodes : NodeIdx
  /-- `ROOT` (R30). -/
  root : NodeIdx
  /-- `ERRFLAGS[7:1]` (R31); position `c - 1` holds the flag of error code `c`. -/
  errflags : BitVec 7
  /-- `ERRINFO` (R32): `[3:0]` code, `[12:4]` info. -/
  errinfo : BitVec 13
  /-- `FREQ`, `NODE`, `CODE` (R33 to R35). -/
  mem : Memory
  /-- `PQ`, the queue of BUILD, empty between commands (R41). -/
  pq : List NodeIdx
  /-- `STK`, the stack of DERIVE, empty between commands (R42). -/
  stk : List StackEntry
  /-- The response port (30_encoding.md R87): `none` is `rsp_valid = 0`. -/
  rsp : Option Response
  /-- MODEL'S OWN FIELD (notes/assumptions/1.md): what the host does next, oldest first. -/
  host : List HostAction
  deriving DecidableEq, Repr

/-- What a step and a command answer: a next state, a fault or a refusal. -/
abbrev Result := Host.Outcome State Fault Refusal

/-- The state after reset (10_state.md R45, 70_reset_and_hazards.md R190, R191). `NODE` and `CODE` hold no value. -/
def State.reset : State where
  mode := .idle
  tv := false
  cv := false
  ptr := 0#9
  total := 0#32
  nleaf := 0#9
  nnodes := 0#9
  root := 0#9
  errflags := 0#7
  errinfo := 0#13
  mem := ⟨[], [], []⟩
  pq := []
  stk := []
  rsp := none
  host := []

end Sys2Proof.Machine
end

