-- ==== Sys2Proof/Machine/Flags.lean ====
section
/-! DEFINITION. The flag computations: error codes, `ERRFLAGS`, `ERRINFO`, `SINGLE`, `STATUS` (10_state.md R31, R32, R36,
R37; 60_exceptions.md R171). -/

namespace Sys2Proof.Machine

/-- The number of an error code (R171). -/
def errorNumber : ErrorCode → BitVec 4
  | .empty => 1#4
  | .unknown => 2#4
  | .trunc => 3#4
  | .seq => 4#4
  | .illegal => 5#4
  | .overflow => 6#4
  | .range => 7#4

/-- `ERRFLAGS[c]`, for `c` from 1 to 7 (R31). -/
def errFlag (flags : BitVec 7) (e : ErrorCode) : Bool := flags.getLsbD ((errorNumber e).toNat - 1)

/-- `ERRFLAGS[c] <- 1` (R174): the other flags keep their values (R178). -/
def setErrFlag (flags : BitVec 7) (e : ErrorCode) : BitVec 7 := flags ||| (1#7 <<< ((errorNumber e).toNat - 1))

/-- `{v[8:0], c[3:0]}`, the value an error writes to `ERRINFO` (R32, R174). -/
def errInfoWord (e : ErrorCode) (info : Info) : BitVec 13 := info ++ errorNumber e

/-- The two bits of `MODE` (R23). -/
def modeBits : Mode → BitVec 2
  | .idle => 0#2
  | .enc => 1#2
  | .dec => 2#2

/-- `SINGLE`: `TV = 1 and NLEAF = 1` (R36). -/
def single (s : State) : Bool := s.tv && s.nleaf == 1#9

/-- `STATUS` (R37): `[15]` = 0, `[14:8]` = `ERRFLAGS[7:1]`, `[7:5]` = 0, `[4]` = `SINGLE`, `[3]` = `CV`, `[2]` = `TV`,
`[1:0]` = `MODE`. -/
def statusWord (s : State) : BitVec 16 :=
  0#1 ++ s.errflags ++ 0#3 ++ BitVec.ofBool (single s) ++ BitVec.ofBool s.cv ++ BitVec.ofBool s.tv ++ modeBits s.mode

end Sys2Proof.Machine
end

