-- ==== Sys2Proof/Machine/Ops.lean ====
section
/-! DEFINITION. The named operations over memory and registers, and the one error path (the core's "trap entry",
60_exceptions.md R174). There is no return from an error beside it: control never left the command stream (R178). -/

namespace Sys2Proof.Machine

/-! ### Tables -/

/-- The entry a table lists at an index, if it lists one. -/
def tableGet {α : Type} : Table α → Nat → Option α
  | [], _ => none
  | (k, v) :: rest, i => if k = i then some v else tableGet rest i

/-- The table with the entry `v` listed at `i`, in rising order of index. -/
def tablePut {α : Type} : Table α → Nat → α → Table α
  | [], i, v => [(i, v)]
  | (k, u) :: rest, i, v =>
    if i < k then (i, v) :: (k, u) :: rest
    else if i = k then (i, v) :: rest
    else (k, u) :: tablePut rest i v

/-- The table with nothing listed at `i`. -/
def tableErase {α : Type} : Table α → Nat → Table α
  | [], _ => []
  | (k, u) :: rest, i => if k = i then rest else (k, u) :: tableErase rest i

/-- The canonical form of a table of `bound` entries: indices strictly rising and below the bound. -/
def tableWf {α : Type} (bound : Nat) : Table α → Bool
  | [] => true
  | [(k, _)] => k < bound
  | (k, _) :: (j, v) :: rest => k < j && tableWf bound ((j, v) :: rest)

/-- The canonical form of the memories (notes/assumptions/13.md): each table in canonical form, at the sizes of
20_memory.md R50, and no listed `FREQ` entry equal to 0, which is what an unlisted one reads as. -/
def Memory.wf (m : Memory) : Bool :=
  tableWf Config.numSymbols m.freq && tableWf Config.maxNodes m.node && tableWf Config.numSymbols m.code &&
    m.freq.all fun cell => cell.2 != 0#32

/-! ### Reads and writes of whole entries (00_scope.md R13, 20_memory.md R50) -/

/-- An entry of a `FREQ` table; one not listed reads 0 (10_state.md R34, R45). -/
def freqAt (freq : Table Count) (sym : Symbol) : Count := (tableGet freq sym.toNat).getD 0#32

/-- `FREQ[s]`. -/
def readFreq (s : State) (sym : Symbol) : Count := freqAt s.mem.freq sym

/-- `FREQ[s] <- v`. -/
def writeFreq (s : State) (sym : Symbol) (v : Count) : State :=
  { s with mem := { s.mem with
      freq := if v = 0#32 then tableErase s.mem.freq sym.toNat else tablePut s.mem.freq sym.toNat v } }

/-- An entry of a `NODE` table; `none` where nothing was written (R45, R56). -/
def nodeAt (node : Table NodeEntry) (i : NodeIdx) : Option NodeEntry := tableGet node i.toNat

/-- `NODE[i]`. -/
def readNode (s : State) (i : NodeIdx) : Option NodeEntry := nodeAt s.mem.node i

/-- An entry of a `CODE` table; `none` where nothing was written (R45, R56). -/
def codeAt (code : Table CodeEntry) (sym : Symbol) : Option CodeEntry := tableGet code sym.toNat

/-- `CODE[s]`. -/
def readCode (s : State) (sym : Symbol) : Option CodeEntry := codeAt s.mem.code sym

/-- `NODE[i].weight`, a field both kinds of entry have (R33). -/
def entryWeight : NodeEntry → Count
  | .leaf _ w => w
  | .internal w _ _ => w

/-- Exact addition of two counts (00_scope.md R12): no sum where it would pass `W_MAX` (notes/assumptions/6.md). -/
def addExact (a b : Count) : Option Count :=
  if a.toNat + b.toNat ≤ Config.maxCount then some (a + b) else none

/-! ### Responses and errors -/

/-- `respond(data)` (00_scope.md R13): `rsp_err = 0` and the payload. -/
def respond (data : RspData) (s : State) : State := { s with rsp := some ⟨0#4, data⟩ }

/-- A command ends with an OK response. -/
def succeed (data : RspData) (s : State) : Result := .next (respond data s)

/-- `raise c(v)` (60_exceptions.md R174): the flag, the record, `MODE <- 0`, the response, and nothing else. -/
def raiseError (e : ErrorCode) (info : Info) (s : State) : State :=
  { s with
    errflags := setErrFlag s.errflags e
    errinfo := errInfoWord e info
    mode := .idle
    rsp := some ⟨errorNumber e, 0#264⟩ }

/-- A command ends with an error response (R174, R175). -/
def abort (e : ErrorCode) (info : Info) (s : State) : Result := .next (raiseError e info s)

/-- `E_SEQ` of a command not legal in the state; the info is its opcode (R172). -/
def abortSeq (i : Instr) (s : State) : Result := abort .seq ((instrOpcode i).setWidth 9) s

/-- The reset values of every piece of the core's own state (10_state.md R45), which reset and CLR share (D24). The
response port and the host's actions are not the core's to clear here. -/
def clearCore (s : State) : State := { State.reset with rsp := s.rsp, host := s.host }

end Sys2Proof.Machine
end

