-- ==== Sys2Proof/Machine/Operands.lean ====
section
/-! DEFINITION. The data formats: the packed words a command answers with (30_encoding.md R79 to R83), the register map of
RDREG (10_state.md R37) and the digits of a codeword (10_state.md R35). -/

namespace Sys2Proof.Machine

/-- The node word of an entry (R80): `[50]` kind, `[49:18]` weight, `[17:9]` left or 0, `[8:0]` right or `{0, symbol}`. -/
def nodeWord : NodeEntry → BitVec 51
  | .leaf symbol weight => 0#1 ++ weight ++ 0#9 ++ (0#1 ++ symbol)
  | .internal weight left right => 1#1 ++ weight ++ left ++ right

/-- The code word of an entry (R81): `[0]` valid, `[8:1]` len, `[9 + k]` digit `k`. -/
def codeWord (e : CodeEntry) : BitVec 264 := e.bits ++ e.len ++ BitVec.ofBool e.valid

/-- The DBIT payload that emits a symbol (R82): `[8:1]` symbol, `[0]` = 1. -/
def emitWord (symbol : Symbol) : BitVec 9 := symbol ++ 1#1

/-- A payload zero-extended to the width of `rsp_data` (R78). -/
def payload {w : Nat} (v : BitVec w) : RspData := v.setWidth 264

/-- The register a number names (10_state.md R37), zero-extended to 32 bits (R83); numbers 8 to 15 are reserved. -/
def registerValue (s : State) (r : RegNum) : Option (BitVec 32) :=
  match r.toNat with
  | 0 => some ((statusWord s).setWidth 32)
  | 1 => some s.total
  | 2 => some (s.nleaf.setWidth 32)
  | 3 => some (s.nnodes.setWidth 32)
  | 4 => some (s.root.setWidth 32)
  | 5 => some (s.ptr.setWidth 32)
  | 6 => some (s.errinfo.setWidth 32)
  | 7 => some (Config.configWord.setWidth 32)
  | _ => none

/-- The entry of a symbol without a codeword (R35, 41_derive.md R115). -/
def invalidCode : CodeEntry := ⟨false, 0#8, 0#255⟩

/-- A path with one more digit (41_derive.md R110): digit 1 sets bit `len`, digit 0 leaves it 0. -/
def appendDigit (bits : PathBits) (len : PathLen) (digit : Bool) : PathBits :=
  if digit then bits ||| (1#255 <<< len.toNat) else bits

/-- The length of a path with one more digit; none past `CW_MAX` = 255 (00_scope.md R9, 40_build.md R101). -/
def nextLen (len : PathLen) : Option PathLen :=
  if len.toNat < Config.maxDigits then some (len + 1#8) else none

/-- The child a digit leads to: 0 is left, 1 is right (41_derive.md R111, 43_decode.md R131). -/
def childOf (digit : Bool) (left right : NodeIdx) : NodeIdx := if digit then right else left

/-- The symbol values in ascending order, the order BUILD scans `FREQ` in (40_build.md R95). -/
def allSymbols : List Symbol := (List.range Config.numSymbols).map (BitVec.ofNat 8)

end Sys2Proof.Machine
end

