-- ==== Sys2Proof/Machine/Build.lean ====
section
/-! DEFINITION. The frequency counter and the tree builder: CLR, SYM, BUILD (40_build.md). -/

namespace Sys2Proof.Machine

/-- CLR (R91): every register and `FREQ` to the reset values; `NODE` and `CODE` lose their content. Legal in every state. -/
def execClr (s : State) : Result := succeed 0#264 (clearCore s)

/-- SYM s (R92). -/
def execSym (sym : Symbol) (s : State) : Result :=
  if s.mode = .idle ∧ s.tv = false then
    if s.total.toNat = Config.maxCount then abort .overflow (sym.setWidth 9) s
    else
      match addExact (readFreq s sym) 1#32, addExact s.total 1#32 with
      | some count, some total => succeed 0#264 { writeFreq s sym count with total := total }
      | _, _ => .fault .countOverflow
  else abortSeq (.sym sym) s

/-! ### The tree builder -/

/-- The variables of BUILD (R93): `NODE`, `PQ`, and the next free index (`n` while seeding, `k` while merging). -/
structure TreeBuild where
  node : Table NodeEntry
  pq : List NodeIdx
  next : Nat
  deriving DecidableEq, Repr

/-- Step 1 for one symbol (R93, R95): a leaf at the next index where the count is not 0. -/
def seedSymbol (freq : Table Count) (b : TreeBuild) (sym : Symbol) : TreeBuild :=
  if freqAt freq sym = 0#32 then b
  else
    { node := tablePut b.node b.next (.leaf sym (freqAt freq sym))
      pq := b.pq ++ [BitVec.ofNat 9 b.next]
      next := b.next + 1 }

/-- Step 1, seed (R93, R95): one leaf per symbol present, in ascending symbol order, from an empty queue. -/
def seedLeaves (freq : Table Count) (node : Table NodeEntry) : TreeBuild :=
  allSymbols.foldl (seedSymbol freq) ⟨node, [], 0⟩

/-- `NODE[i].weight`. -/
def nodeWeight (node : Table NodeEntry) (i : NodeIdx) : Except Fault Count :=
  match nodeAt node i with
  | some e => .ok (entryWeight e)
  | none => .error .unwrittenNode

/-- The tie-break comparator on two weighted indices (R94): weight, then node index, both unsigned. -/
def beforeKeys (wa : Count) (a : NodeIdx) (wb : Count) (b : NodeIdx) : Bool :=
  wa.toNat < wb.toNat || (wa.toNat == wb.toNat && a.toNat < b.toNat)

/-- `before(a, b)` (R94). -/
def before (node : Table NodeEntry) (a b : NodeIdx) : Except Fault Bool :=
  match nodeWeight node a, nodeWeight node b with
  | .ok wa, .ok wb => .ok (beforeKeys wa a wb b)
  | .error f, _ => .error f
  | _, .error f => .error f

/-- The least under `before` of an index and a list of indices. -/
def leastOf (node : Table NodeEntry) (a : NodeIdx) : List NodeIdx → Except Fault NodeIdx
  | [] => .ok a
  | b :: rest =>
    match before node b a with
    | .ok true => leastOf node b rest
    | .ok false => leastOf node a rest
    | .error f => .error f

/-- `min(PQ)` and `PQ` without it (R93); the minimum is unique, so the order of the list does not matter (R94). -/
def takeLeast (node : Table NodeEntry) : List NodeIdx → Except Fault (NodeIdx × List NodeIdx)
  | [] => .error .emptyQueue
  | a :: rest =>
    match leastOf node a rest with
    | .ok m => .ok (m, (a :: rest).erase m)
    | .error f => .error f

/-- The new node of a merge (R96): the sum of the two weights, `lo` on the left, `hi` on the right. -/
def mergedEntry (node : Table NodeEntry) (lo hi : NodeIdx) : Except Fault NodeEntry :=
  match nodeWeight node lo, nodeWeight node hi with
  | .ok wl, .ok wh =>
    match addExact wl wh with
    | some w => .ok (.internal w lo hi)
    | none => .error .countOverflow
  | .error f, _ => .error f
  | _, .error f => .error f

/-- Step 2, one merge (R93, R96). -/
def mergeStep (b : TreeBuild) : Except Fault TreeBuild :=
  match takeLeast b.node b.pq with
  | .error f => .error f
  | .ok (lo, pq1) =>
    match takeLeast b.node pq1 with
    | .error f => .error f
    | .ok (hi, pq2) =>
      match mergedEntry b.node lo hi with
      | .error f => .error f
      | .ok e =>
        .ok { node := tablePut b.node b.next e, pq := pq2 ++ [BitVec.ofNat 9 b.next], next := b.next + 1 }

/-- Step 2, merge while more than one node remains (R93); every merge takes one node away, so `fuel` at least the length
of the queue is enough. -/
def mergeLoop : Nat → TreeBuild → Except Fault TreeBuild
  | 0, b => .ok b
  | fuel + 1, b =>
    if 1 < b.pq.length then
      match mergeStep b with
      | .ok b' => mergeLoop fuel b'
      | .error f => .error f
    else .ok b

/-- What BUILD leaves (R93): `NODE`, `NLEAF`, `NNODES`, `ROOT`. -/
structure BuiltTree where
  node : Table NodeEntry
  nleaf : NodeIdx
  nnodes : NodeIdx
  root : NodeIdx
  deriving DecidableEq, Repr

/-- Steps 1 to 3 of BUILD (R93); the one element the queue ends with is the root. -/
def buildTree (freq : Table Count) (node : Table NodeEntry) : Except Fault BuiltTree :=
  let seeded := seedLeaves freq node
  match mergeLoop seeded.next seeded with
  | .error f => .error f
  | .ok b =>
    match b.pq with
    | [root] => .ok ⟨b.node, BitVec.ofNat 9 seeded.next, BitVec.ofNat 9 b.next, root⟩
    | _ => .error .emptyQueue

/-- The state after BUILD has built `t` (R93): `PQ` is empty again. -/
def installTree (t : BuiltTree) (s : State) : State :=
  { s with mem := { s.mem with node := t.node }, nleaf := t.nleaf, nnodes := t.nnodes, root := t.root, tv := true, pq := [] }

/-- BUILD (R93). -/
def execBuild (s : State) : Result :=
  if s.mode = .idle ∧ s.tv = false then
    if s.total = 0#32 then abort .empty 0#9 s
    else
      match buildTree s.mem.freq s.mem.node with
      | .ok t => succeed (payload t.root) (installTree t s)
      | .error f => .fault f
  else abortSeq .build s

end Sys2Proof.Machine
end

