-- ==== Sys2Proof/Machine/Decoder.lean ====
section
/-! DEFINITION. The bit-serial decoder: DECBEG, DBIT, DECEND (43_decode.md). -/

namespace Sys2Proof.Machine

/-- DECBEG (R130). -/
def execDecbeg (s : State) : Result :=
  if s.mode = .idle ∧ s.tv = true then succeed 0#264 { s with ptr := s.root, mode := .dec } else abortSeq .decbeg s

/-- DBIT once the pointer's node is known (R131): move to the child `nxt`; a leaf emits and returns to the root. -/
def decodeMove (nxt : NodeIdx) (s : State) : Result :=
  match readNode s nxt with
  | none => .fault .unwrittenNode
  | some (.leaf symbol _) => succeed (payload (emitWord symbol)) { s with ptr := s.root }
  | some (.internal _ _ _) => succeed 0#264 { s with ptr := nxt }

/-- DBIT b (R131). A single-leaf tree emits its symbol for every bit and leaves `PTR` (R133). -/
def execDbit (b : Bool) (s : State) : Result :=
  if s.mode = .dec then
    match readNode s s.root with
    | none => .fault .unwrittenNode
    | some (.leaf symbol _) => succeed (payload (emitWord symbol)) s
    | some (.internal _ _ _) =>
      match readNode s s.ptr with
      | none => .fault .unwrittenNode
      | some (.leaf _ _) => .fault .leafHasNoChild
      | some (.internal _ left right) => decodeMove (childOf b left right) s
  else abortSeq (.dbit b) s

/-- DECEND (R132). -/
def execDecend (s : State) : Result :=
  if s.mode = .dec then
    if s.ptr ≠ s.root then abort .trunc s.ptr s else succeed 0#264 { s with mode := .idle }
  else abortSeq .decend s

end Sys2Proof.Machine
end

