-- ==== Sys2Proof/Machine/Derive.lean ====
section
/-! DEFINITION. The code deriver: DERIVE (41_derive.md). -/

namespace Sys2Proof.Machine

/-- `CODE` with every one of its 256 entries `{valid = 0, len = 0, bits = 0}`, the first line of R110. -/
def clearedCode : Table CodeEntry := (List.range Config.numSymbols).map fun i => (i, invalidCode)

/-- The depth-first walk of R110 with its explicit stack, one node a turn: a leaf writes its path, an internal node pushes
its right child and then its left one, so that the left is popped first (R113). The walk of a tree visits at most
`MAXNODES` nodes (70_reset_and_hazards.md R200), so `fuel` = `MAXNODES` is enough. -/
def deriveWalk (node : Table NodeEntry) : Nat → List StackEntry → Table CodeEntry → Except Fault (Table CodeEntry)
  | _, [], code => .ok code
  | 0, _ :: _, _ => .error .walkNotEnding
  | fuel + 1, e :: stk, code =>
    match nodeAt node e.node with
    | none => .error .unwrittenNode
    | some (.leaf symbol _) => deriveWalk node fuel stk (tablePut code symbol.toNat ⟨true, e.len, e.bits⟩)
    | some (.internal _ left right) =>
      match nextLen e.len with
      | none => .error .pathOverflow
      | some len =>
        deriveWalk node fuel
          (⟨left, len, appendDigit e.bits e.len false⟩ :: ⟨right, len, appendDigit e.bits e.len true⟩ :: stk) code

/-- The table DERIVE writes (R110): for a single leaf the codeword `"0"` (R112), else the walk from the root. -/
def deriveCodes (node : Table NodeEntry) (root : NodeIdx) : Except Fault (Table CodeEntry) :=
  match nodeAt node root with
  | none => .error .unwrittenNode
  | some (.leaf symbol _) => .ok (tablePut clearedCode symbol.toNat ⟨true, 1#8, 0#255⟩)
  | some (.internal _ _ _) => deriveWalk node Config.maxNodes [⟨root, 0#8, 0#255⟩] clearedCode

/-- The state after DERIVE has filled `code` (R110): `STK` is empty again. -/
def installCode (code : Table CodeEntry) (s : State) : State :=
  { s with mem := { s.mem with code := code }, cv := true, stk := [] }

/-- DERIVE (R110). -/
def execDerive (s : State) : Result :=
  if s.mode = .idle ∧ s.tv = true ∧ s.cv = false then
    match deriveCodes s.mem.node s.root with
    | .ok code => succeed 0#264 (installCode code s)
    | .error f => .fault f
  else abortSeq .derive s

end Sys2Proof.Machine
end

