-- ==== Sys2Proof/Machine/Encoder.lean ====
section
/-! DEFINITION. The encoder: ENCBEG, ENC, ENCEND (42_encode.md). -/

namespace Sys2Proof.Machine

/-- ENCBEG (R120). -/
def execEncbeg (s : State) : Result :=
  if s.mode = .idle ∧ s.cv = true then succeed 0#264 { s with mode := .enc } else abortSeq .encbeg s

/-- ENC s (R121): the code word of `CODE[s]`, or `UnknownSymbolError`. -/
def execEnc (sym : Symbol) (s : State) : Result :=
  if s.mode = .enc then
    match readCode s sym with
    | none => .fault .unwrittenCode
    | some e => if e.valid = false then abort .unknown (sym.setWidth 9) s else succeed (codeWord e) s
  else abortSeq (.enc sym) s

/-- ENCEND (R122). -/
def execEncend (s : State) : Result :=
  if s.mode = .enc then succeed 0#264 { s with mode := .idle } else abortSeq .encend s

end Sys2Proof.Machine
end

