-- ==== Sys2Proof/Machine/Readback.lean ====
section
/-! DEFINITION. NOP and the readback commands: NOP, RDREG, RDFREQ, RDNODE, RDCODE (44_readback.md). -/

namespace Sys2Proof.Machine

/-- NOP (R140). -/
def execNop (s : State) : Result := succeed 0#264 s

/-- RDREG r (R141). -/
def execRdreg (r : RegNum) (s : State) : Result :=
  match registerValue s r with
  | some v => succeed (payload v) s
  | none => abort .range (r.setWidth 9) s

/-- RDFREQ s (R142). -/
def execRdfreq (sym : Symbol) (s : State) : Result := succeed (payload (readFreq s sym)) s

/-- RDNODE i (R143). -/
def execRdnode (i : NodeIdx) (s : State) : Result :=
  if s.tv = true then
    if s.nnodes.toNat ≤ i.toNat then abort .range i s
    else
      match readNode s i with
      | some e => succeed (payload (nodeWord e)) s
      | none => .fault .unwrittenNode
  else abortSeq (.rdnode i) s

/-- RDCODE s (R144). -/
def execRdcode (sym : Symbol) (s : State) : Result :=
  if s.cv = true then
    match readCode s sym with
    | some e => succeed (codeWord e) s
    | none => .fault .unwrittenCode
  else abortSeq (.rdcode sym) s

end Sys2Proof.Machine
end

