-- ==== Sys2Proof/Machine/Reserved.lean ====
section
/-! DEFINITION. Illegal words (30_encoding.md R75): the reserved opcode 0xF, and every word with a must-be-zero bit set. -/

namespace Sys2Proof.Machine

/-- The reserved opcode: `E_ILLEGAL` with the opcode field, 0xF, as its info, whatever the other twelve bits (R75). -/
def execReservedF (rest : BitVec 12) (s : State) : Result :=
  abort .illegal ((instrOpcode (.reservedF rest)).setWidth 9) s

/-- A word the decoder refuses: `E_ILLEGAL` with the word's opcode field as its info (R75, R172). -/
def execIllegalWord (w : CmdWord) (s : State) : Result := abort .illegal ((opcodeOf w).setWidth 9) s

end Sys2Proof.Machine
end

