-- ==== Sys2Proof/Machine/Dispatch.lean ====
section
/-! DEFINITION. One arm per command. -/

namespace Sys2Proof.Machine

def exec (i : Instr) (s : State) : Host.Outcome State Fault Refusal :=
  match i with
  | .nop => Sys2Proof.Machine.execNop s
  | .clr => Sys2Proof.Machine.execClr s
  | .sym sym => Sys2Proof.Machine.execSym sym s
  | .build => Sys2Proof.Machine.execBuild s
  | .derive => Sys2Proof.Machine.execDerive s
  | .encbeg => Sys2Proof.Machine.execEncbeg s
  | .enc sym => Sys2Proof.Machine.execEnc sym s
  | .encend => Sys2Proof.Machine.execEncend s
  | .decbeg => Sys2Proof.Machine.execDecbeg s
  | .dbit b => Sys2Proof.Machine.execDbit b s
  | .decend => Sys2Proof.Machine.execDecend s
  | .rdreg r => Sys2Proof.Machine.execRdreg r s
  | .rdfreq sym => Sys2Proof.Machine.execRdfreq sym s
  | .rdnode idx => Sys2Proof.Machine.execRdnode idx s
  | .rdcode sym => Sys2Proof.Machine.execRdcode sym s
  | .reservedF rest => Sys2Proof.Machine.execReservedF rest s

end Sys2Proof.Machine
end

