-- ==== Sys2Proof/Machine/Ports.lean ====
section
/-! DEFINITION. The ports at the level of transfers (30_encoding.md R87, R88; 70_reset_and_hazards.md R190): a command word
taken and executed, a response taken, a reset. No clock and no time (70_reset_and_hazards.md R200). -/

namespace Sys2Proof.Machine

/-- `rsp_valid`: a response waits on the response port (30_encoding.md R87). -/
def rspValid (s : State) : Bool := s.rsp.isSome

/-- `cmd_ready`: the core can take a command word. Here it can when no response waits (notes/assumptions/2.md). -/
def cmdReady (s : State) : Bool := s.rsp.isNone

/-- One command word executed (R86, R88): decoded first, so that an illegal word raises before any other check
(60_exceptions.md R176). -/
def runWord (w : CmdWord) (s : State) : Result :=
  match decode w with
  | .ok i => exec i s
  | .error _ => execIllegalWord w s

/-- The host takes the response (R88): the port is free again. -/
def takeResponse (s : State) : State := { s with rsp := none }

/-- `rst` (70_reset_and_hazards.md R190): every field at its reset value, a response not yet taken dropped. What the host
does afterwards is not the core's state. -/
def resetCore (s : State) : State := { State.reset with host := s.host }

/-- The machine's next event: the host's next action, where its transfer can happen. A word waits while a response stands
on the port and a take waits while none does, and the core keeps all state (60_exceptions.md R185; R88, R198). -/
def hostStep (s : State) : Result :=
  match s.host with
  | [] => .next s
  | .send w :: rest => if cmdReady s then runWord w { s with host := rest } else .next s
  | .take :: rest => if rspValid s then .next (takeResponse { s with host := rest }) else .next s
  | .reset :: rest => .next (resetCore { s with host := rest })

/-- The state in which the host's next action presents a 16-bit word and the response port is free, so that the word is
taken at once. -/
def placeWord (w : CmdWord) (s : State) : State := { s with rsp := none, host := .send w :: s.host }

end Sys2Proof.Machine
end

