-- ==== Sys2Proof/Machine/Step.lean ====
section
/-! DEFINITION. One step of the machine, and where a test places the word it wants run. -/

namespace Sys2Proof.Machine

/-- One step: the machine's next event (Machine/Ports.lean). -/
def step (s : State) : Host.Outcome State Fault Refusal := hostStep s

/-- The state in which the next step runs the command word whose bits are `w` (bits above `nbits` 0): the host presents it
next and no response waits (notes/assumptions/1.md). -/
def State.withFetchWord (s : State) (nbits w : Nat) : State := placeWord (BitVec.ofNat 16 (w % 2 ^ nbits)) s

end Sys2Proof.Machine
end

