-- ==== Sys2Proof/Safety.lean ====
section
/-! DEFINITION. What claims about HUFFCORE are stated in: runs and their observation (45_pipelines.md R164), transactions and
their results (R154), the four operations as command sequences (R150 to R153), codes and their cost (R157, R159), and the
invariants of 10_state.md section 5. -/

namespace Sys2Proof.Machine

/-! ### What a command leaves, in the numbers of the spec -/

/-- The state with an OK response carrying the number `v` (30_encoding.md R78). -/
def answered (s : State) (v : Nat) : State := { s with rsp := some ⟨0#4, BitVec.ofNat 264 v⟩ }

/-- The state error `c` with info `v` leaves (60_exceptions.md R174): flag `c`, `ERRINFO = {v, c}`, `MODE` 0, the response
`(c, 0)`, and nothing else. -/
def erred (s : State) (c v : Nat) : State :=
  { s with
    errflags := s.errflags ||| BitVec.ofNat 7 (2 ^ (c - 1))
    errinfo := BitVec.ofNat 13 (v * 16 + c)
    mode := .idle
    rsp := some ⟨BitVec.ofNat 4 c, 0#264⟩ }

/-- The number of each value of `MODE` (10_state.md R23). -/
def modeNumber : Mode → Nat
  | .idle => 0
  | .enc => 1
  | .dec => 2

/-- `STATUS` as a number (10_state.md R37). -/
def statusNumber (s : State) : Nat :=
  modeNumber s.mode + 4 * s.tv.toNat + 8 * s.cv.toNat + 16 * (s.tv && s.nleaf.toNat == 1).toNat +
    256 * s.errflags.toNat

/-- A node word as a number (30_encoding.md R80). -/
def nodeNumber : NodeEntry → Nat
  | .leaf symbol weight => weight.toNat * 2 ^ 18 + symbol.toNat
  | .internal weight left right => 2 ^ 50 + weight.toNat * 2 ^ 18 + left.toNat * 2 ^ 9 + right.toNat

/-- A code word as a number (30_encoding.md R81). -/
def codeNumber (e : CodeEntry) : Nat := e.valid.toNat + 2 * e.len.toNat + 2 ^ 9 * e.bits.toNat

/-! ### The state graph (45_pipelines.md R155) -/

/-- The opcodes of the commands legal in each of the six states of R155; no list for the other triples. -/
def legalOpcodes : Mode → Bool → Bool → Option (List Opcode)
  | .idle, false, false => some [0x0#4, 0x1#4, 0x2#4, 0x3#4, 0xB#4, 0xC#4]
  | .idle, true, false => some [0x0#4, 0x1#4, 0x4#4, 0x8#4, 0xB#4, 0xC#4, 0xD#4]
  | .idle, true, true => some [0x0#4, 0x1#4, 0x5#4, 0x8#4, 0xB#4, 0xC#4, 0xD#4, 0xE#4]
  | .enc, true, true => some [0x0#4, 0x1#4, 0x6#4, 0x7#4, 0xB#4, 0xC#4, 0xD#4, 0xE#4]
  | .dec, true, false => some [0x0#4, 0x1#4, 0x9#4, 0xA#4, 0xB#4, 0xC#4, 0xD#4]
  | .dec, true, true => some [0x0#4, 0x1#4, 0x9#4, 0xA#4, 0xB#4, 0xC#4, 0xD#4, 0xE#4]
  | _, _, _ => none

/-- The triple (`MODE`, `TV`, `CV`) a command that responds OK leaves (R155). -/
def tripleAfter : Instr → Mode × Bool × Bool → Mode × Bool × Bool
  | .clr, _ => (.idle, false, false)
  | .build, (m, _, cv) => (m, true, cv)
  | .derive, (m, tv, _) => (m, tv, true)
  | .encbeg, (_, tv, cv) => (.enc, tv, cv)
  | .decbeg, (_, tv, cv) => (.dec, tv, cv)
  | .encend, (_, tv, cv) => (.idle, tv, cv)
  | .decend, (_, tv, cv) => (.idle, tv, cv)
  | _, triple => triple

/-! ### Runs -/

/-- One command executed and its response taken: the function from (state, word) to (state, response) of 30_encoding.md
R88. `none` where the model stops. -/
def transact (w : CmdWord) (s : State) : Option (State × Response) :=
  match runWord w s with
  | .next t =>
    match t.rsp with
    | some r => some (takeResponse t, r)
    | none => none
  | _ => none

/-- A command word and the response it got. -/
abbrev Exchange := CmdWord × Response

/-- A sequence of commands, each with its response, in order (R88, R164). -/
def runWords : List CmdWord → State → Option (State × List Exchange)
  | [], s => some (s, [])
  | w :: ws, s =>
    match transact w s with
    | none => none
    | some (t, r) =>
      match runWords ws t with
      | none => none
      | some (u, log) => some (u, (w, r) :: log)

/-- Every response is OK (30_encoding.md R78). -/
def allOk (log : List Exchange) : Bool := log.all fun x => x.2.err == 0#4

/-! ### The four operations (45_pipelines.md R150 to R153) -/

/-- `BUILDTREE S` (R150). -/
def buildTreeWords (symbols : List Symbol) : List CmdWord :=
  encode .clr :: symbols.map (fun s => encode (.sym s)) ++ [encode .build]

/-- `DERIVECODES` (R151). -/
def deriveCodesWords : List CmdWord := [encode .derive]

/-- `ENCODE S` (R152). -/
def encodeWords (symbols : List Symbol) : List CmdWord :=
  encode .encbeg :: symbols.map (fun s => encode (.enc s)) ++ [encode .encend]

/-- `DECODE B` (R153). -/
def decodeWords (bits : List Bool) : List CmdWord :=
  encode .decbeg :: bits.map (fun b => encode (.dbit b)) ++ [encode .decend]

/-! ### Transactions and their results (R154) -/

/-- The digit string of an OK ENC response: `rsp_data[9]`, …, `rsp_data[9 + len − 1]` (42_encode.md R123). -/
def responseDigits (r : Response) : List Bool :=
  (List.range (r.data.extractLsb' 1 8).toNat).map fun k => r.data.getLsbD (9 + k)

/-- The symbol of a DBIT response, if it emits one (30_encoding.md R82). -/
def responseSymbol (r : Response) : Option Symbol :=
  if r.data.getLsbD 0 then some (r.data.extractLsb' 1 8) else none

/-- The result of an encode transaction from the exchanges after its ENCBEG: the digits of its ENC responses if the first
command that closes it is an ENCEND that responds OK, else none (R154). -/
def encodeRest : List Exchange → Option (List Bool)
  | [] => none
  | (w, r) :: rest =>
    if r.err ≠ 0#4 then none
    else
      match decode w with
      | .ok .encend => some []
      | .ok .clr => none
      | .ok (.enc _) => (encodeRest rest).map (responseDigits r ++ ·)
      | _ => encodeRest rest

/-- The result of the encode transaction a log begins with, if it begins with one and it completes (R154). -/
def encodeResult : List Exchange → Option (List Bool)
  | (w, r) :: rest => if decode w = .ok .encbeg ∧ r.err = 0#4 then encodeRest rest else none
  | [] => none

/-- The result of a decode transaction from the exchanges after its DECBEG (R154). -/
def decodeRest : List Exchange → Option (List Symbol)
  | [] => none
  | (w, r) :: rest =>
    if r.err ≠ 0#4 then none
    else
      match decode w with
      | .ok .decend => some []
      | .ok .clr => none
      | .ok (.dbit _) => (decodeRest rest).map ((responseSymbol r).toList ++ ·)
      | _ => decodeRest rest

/-- The result of the decode transaction a log begins with, if it begins with one and it completes (R154). -/
def decodeResult : List Exchange → Option (List Symbol)
  | (w, r) :: rest => if decode w = .ok .decbeg ∧ r.err = 0#4 then decodeRest rest else none
  | [] => none

/-! ### Codes -/

/-- The digits of a codeword, first digit first (10_state.md R35). -/
def codeDigits (e : CodeEntry) : List Bool := (List.range e.len.toNat).map fun k => e.bits.getLsbD k

/-- The node a path of digits leads to (41_derive.md R111); none where it would leave a leaf or reach no entry. -/
def followPath (node : Table NodeEntry) : NodeIdx → List Bool → Option NodeIdx
  | i, [] => some i
  | i, d :: ds =>
    match nodeAt node i with
    | some (.internal _ left right) => followPath node (childOf d left right) ds
    | _ => none

/-- The digits are one whole codeword of the tree: the path from the root to a leaf (41_derive.md R111). -/
def IsCodeword (node : Table NodeEntry) (root : NodeIdx) (word : List Bool) : Prop :=
  ∃ i sym w, followPath node root word = some i ∧ nodeAt node i = some (.leaf sym w)

/-- The digits are a concatenation of whole codewords of the tree, of none for no digits (43_decode.md R134). -/
def IsCodewordSequence (node : Table NodeEntry) (root : NodeIdx) (bits : List Bool) : Prop :=
  ∃ words : List (List Bool), (∀ word ∈ words, IsCodeword node root word) ∧ bits = words.flatten

/-- The digits end strictly between the root and a leaf: past the root, at an internal node (43_decode.md R132). -/
def IsCutCodeword (node : Table NodeEntry) (root : NodeIdx) (cut : List Bool) : Prop :=
  cut ≠ [] ∧ ∃ i w left right, followPath node root cut = some i ∧ nodeAt node i = some (.internal w left right)

/-- Two states give every reader one tree and one code table: equal tree registers, equal entries of `NODE` below
`NNODES` and equal entries of `CODE` (45_pipelines.md R160). -/
structure SameTreeAndTable (s t : State) : Prop where
  nleaf : t.nleaf = s.nleaf
  nnodes : t.nnodes = s.nnodes
  root : t.root = s.root
  node : ∀ i : NodeIdx, i.toNat < s.nnodes.toNat → readNode t i = readNode s i
  code : ∀ a, readCode t a = readCode s a

/-- A code, as a map from symbols to digit strings, is a prefix code on the symbols present: every codeword is non-empty
and none begins another (10_state.md R40, 45_pipelines.md R157). -/
def IsPrefixCode (freq : Table Count) (code : Symbol → List Bool) : Prop :=
  (∀ a, freqAt freq a ≠ 0#32 → code a ≠ []) ∧
    ∀ a b, freqAt freq a ≠ 0#32 → freqAt freq b ≠ 0#32 → a ≠ b → ¬ code a <+: code b

/-- The cost of a code: `Σ_s FREQ[s] · len(code s)` (R159). -/
def codeCost (freq : Table Count) (code : Symbol → List Bool) : Nat :=
  (allSymbols.map fun s => (freqAt freq s).toNat * (code s).length).sum

/-- The digits `CODE` holds for a symbol; no digits where it holds no valid entry. -/
def tableCode (code : Table CodeEntry) (s : Symbol) : List Bool :=
  match codeAt code s with
  | some e => if e.valid then codeDigits e else []
  | none => []

/-! ### Invariants (10_state.md section 5) -/

/-- `Σ_s FREQ[s]` (R39). -/
def freqSum (freq : Table Count) : Nat := (allSymbols.map fun s => (freqAt freq s).toNat).sum

/-- The indices in the `left` and `right` fields of the internal entries below `nnodes` (R38, item 1). -/
def childIndices (node : Table NodeEntry) (nnodes : Nat) : List Nat :=
  (List.range nnodes).flatMap fun k =>
    match tableGet node k with
    | some (.internal _ left right) => [left.toNat, right.toNat]
    | _ => []

/-- The tree invariants of R38 on `NODE[0 .. nnodes − 1]`, whose root is the last entry (R30). -/
structure TreeOk (freq : Table Count) (node : Table NodeEntry) (nleaf nnodes : Nat) : Prop where
  /-- Items 5 and 6: entries below `nleaf` are leaves with weight `FREQ[symbol] ≥ 1`. -/
  leaves : ∀ i, i < nleaf → ∃ sym, tableGet node i = some (.leaf sym (freqAt freq sym)) ∧ freqAt freq sym ≠ 0#32
  /-- Item 5: in ascending order of symbol. -/
  ascending : ∀ i j a b wa wb, i < j → j < nleaf → tableGet node i = some (.leaf a wa) →
    tableGet node j = some (.leaf b wb) → a.toNat < b.toNat
  /-- R40's other half of "exactly": every symbol present labels a leaf. -/
  present : ∀ sym, freqAt freq sym ≠ 0#32 → ∃ i, i < nleaf ∧ tableGet node i = some (.leaf sym (freqAt freq sym))
  /-- Items 2, 3 and 5: the others are internal, with two different children below their own index whose weights add up. -/
  internals : ∀ k, nleaf ≤ k → k < nnodes → ∃ w left right el er,
    tableGet node k = some (.internal w left right) ∧ left ≠ right ∧ left.toNat < k ∧ right.toNat < k ∧
    nodeAt node left = some el ∧ nodeAt node right = some er ∧
    w.toNat = (entryWeight el).toNat + (entryWeight er).toNat
  /-- Item 1: every node but the root has exactly one parent. -/
  oneParent : ∀ i, i + 1 < nnodes → (childIndices node nnodes).count i = 1
  /-- Item 1: the root has none. -/
  rootFree : (childIndices node nnodes).count (nnodes - 1) = 0

/-- The code-table invariants of R40 and R35 for one symbol's entry. -/
structure CodeEntryOk (freq : Table Count) (node : Table NodeEntry) (root : NodeIdx) (sym : Symbol) (e : CodeEntry) :
    Prop where
  /-- `valid = 1` exactly for the symbols of the leaves. -/
  validIff : e.valid = true ↔ freqAt freq sym ≠ 0#32
  /-- An entry with `valid = 0` has `len = 0` and `bits = 0` (R35). -/
  invalid : e.valid = false → e = invalidCode
  /-- `bits[k] = 0` for every `k ≥ len` (R35). -/
  padding : ∀ k, e.len.toNat ≤ k → e.bits.getLsbD k = false
  /-- The codeword of a single leaf is `"0"` (41_derive.md R112). -/
  singleLeaf : e.valid = true → (∃ s w, nodeAt node root = some (.leaf s w)) → codeDigits e = [false]
  /-- Else the codeword is the path from the root to the leaf of the symbol. -/
  path : e.valid = true → (∃ w l r, nodeAt node root = some (.internal w l r)) →
    ∃ i w, followPath node root (codeDigits e) = some i ∧ nodeAt node i = some (.leaf sym w)

/-- `CODE` is the table of the tree (R40): every one of its 256 entries holds what it should. -/
def CodeOk (freq : Table Count) (node : Table NodeEntry) (root : NodeIdx) (code : Table CodeEntry) : Prop :=
  ∀ sym, ∃ e, codeAt code sym = some e ∧ CodeEntryOk freq node root sym e

/-- The register invariants of R44 that need no table. -/
structure RegistersOk (s : State) : Prop where
  cvTv : s.cv = true → s.tv = true
  encCv : s.mode = .enc → s.cv = true
  decTv : s.mode = .dec → s.tv = true
  noTree : s.tv = false → s.nleaf = 0#9 ∧ s.nnodes = 0#9 ∧ s.root = 0#9
  tree : s.tv = true → 1 ≤ s.nleaf.toNat ∧ s.nleaf.toNat ≤ Config.numSymbols ∧
    s.nnodes.toNat = 2 * s.nleaf.toNat - 1 ∧ s.root.toNat = s.nnodes.toNat - 1 ∧ 1 ≤ s.total.toNat

/-- The decoder's pointer (R44, 43_decode.md R134). -/
structure PointerOk (s : State) : Prop where
  many : s.mode = .dec → single s = false →
    s.ptr.toNat < s.nnodes.toNat ∧ ∃ w l r, readNode s s.ptr = some (.internal w l r)
  one : s.mode = .dec → single s = true → s.ptr = 0#9 ∧ s.root = 0#9

/-- A response has an error code 0 to 7, and no data with an error (30_encoding.md R78). -/
def responseOk (r : Response) : Bool := r.err.toNat ≤ 7 && (r.err == 0#4 || r.data == 0#264)

/-- The error record (10_state.md R31, R32): nothing recorded while no flag is set, and the flag of the recorded code set. -/
structure ErrorsOk (s : State) : Prop where
  clear : s.errflags = 0#7 → s.errinfo = 0#13
  recorded : s.errinfo = 0#13 ∨ ∃ e info, s.errinfo = errInfoWord e info ∧ errFlag s.errflags e = true

/-- The invariants of the machine, at all times between steps: 10_state.md R38, R39, R40, R41, R42, R44, the error record,
the response port, and the canonical form of the memories. -/
structure Inv (s : State) : Prop where
  mem : s.mem.wf = true
  registers : RegistersOk s
  sum : s.total.toNat = freqSum s.mem.freq
  tree : s.tv = true → TreeOk s.mem.freq s.mem.node s.nleaf.toNat s.nnodes.toNat
  rootWeight : s.tv = true → ∃ e, readNode s s.root = some e ∧ entryWeight e = s.total
  code : s.cv = true → CodeOk s.mem.freq s.mem.node s.root s.mem.code
  pointer : PointerOk s
  errors : ErrorsOk s
  response : ∀ r, s.rsp = some r → responseOk r = true
  queue : s.pq = []
  stack : s.stk = []

end Sys2Proof.Machine
end

