-- ==== Sys2Proof/Certificates/Slice0/Obligations.lean ====
section
/-! DEFINITION. The statements about HUFFCORE for the provers, from the numbered rules of spec/. -/

open Sys2Proof Sys2Proof.Machine

/-! ### Encodings -/

/-- R71, R72, R74, R84, R86: the word of every instruction decodes to it, with every operand at every value. -/
def Obligations.DecodeEncodeAgree : Prop :=
  ∀ i : Instr, decode (encode i) = .ok i

/-- R70 to R74: the decoder drops no bit, so a word has one meaning: what it decodes to encodes to that word. -/
def Obligations.DecodedWordIsItsEncoding : Prop :=
  ∀ (w : CmdWord) (i : Instr), decode w = .ok i → encode i = w

/-- R74: a word is a command exactly when `w & mask = match` for a row of the opcode map; no word is covered by two rows,
and none with the reserved opcode by any. -/
def Obligations.CommandsMatchOpcodeMap : Prop :=
  ∀ w : CmdWord,
    (∀ i, decode w = .ok i → instrWellFormed i = true →
      ∃ row ∈ opcodeRows, w &&& row.mask = row.matchBits ∧ row.opcode = instrOpcode i) ∧
    (∀ row ∈ opcodeRows, w &&& row.mask = row.matchBits →
      (∃ i, decode w = .ok i ∧ instrWellFormed i = true ∧ instrOpcode i = row.opcode) ∧
      (∀ row' ∈ opcodeRows, w &&& row'.mask = row'.matchBits → row' = row) ∧ w &&& 0xF000#16 ≠ 0xF000#16)

/-- R84: the words the spec writes out decode to the commands it writes beside them. -/
def Obligations.DecodesTheWordsOfTheSpec : Prop :=
  decode 0x2061#16 = .ok (.sym 0x61#8) ∧ decode 0x6062#16 = .ok (.enc 0x62#8) ∧ decode 0x9001#16 = .ok (.dbit true) ∧
    decode 0xD004#16 = .ok (.rdnode 4#9) ∧ decode 0xB006#16 = .ok (.rdreg 6#4) ∧ decode 0x3000#16 = .ok .build

/-- R75: a word that matches no row raises `E_ILLEGAL` with its opcode field, in every state, and has no other effect;
those words are the ones with opcode 0xF and the ones with a bit set that their format requires to be 0. -/
def Obligations.IllegalWordRaises : Prop :=
  ∀ w : CmdWord,
    ((∀ row ∈ opcodeRows, w &&& row.mask ≠ row.matchBits) ↔
      w.toNat / 4096 = 15 ∨
        ∃ row ∈ opcodeRows, row.opcode.toNat = w.toNat / 4096 ∧ w &&& (0x0E00#16 ||| formatZeroBits row.format) ≠ 0#16) ∧
    ((∀ row ∈ opcodeRows, w &&& row.mask ≠ row.matchBits) →
      ∀ (s : State) (rest : List HostAction), s.host = .send w :: rest → s.rsp = none →
        step s = .next (erred { s with host := rest } 5 (w.toNat / 4096)))

/-- R75: the reserved opcode raises `E_ILLEGAL` with info 15, whatever the other bits and the state. -/
def Obligations.ReservedOpcodeRaises : Prop :=
  ∀ (rest : BitVec 12) (s : State), exec (.reservedF rest) s = .next (erred s 5 15)

/-! ### Steps and ports -/

/-- R88: when the host presents a word, no response waits and the word decodes to `i`, the step is `exec i` at the state
from which the word has been taken. -/
def Obligations.StepRunsTheDecodedCommand : Prop :=
  ∀ (s : State) (w : CmdWord) (rest : List HostAction) (i : Instr),
    s.host = .send w :: rest → s.rsp = none → decode w = .ok i → step s = exec i { s with host := rest }

/-- R185, R88, R198 and notes/assumptions/1.md to 3.md (the model's own reading of the ports): with nothing to do the core
keeps all state; a word waits while a response stands on the port and a take while none does; a take frees the port. -/
def Obligations.PortsWaitAndKeepState : Prop :=
  ∀ (s : State) (rest : List HostAction),
    (s.host = [] → step s = .next s) ∧
    (∀ (w : CmdWord) (r : Response), s.host = .send w :: rest → s.rsp = some r → step s = .next s) ∧
    (s.host = .take :: rest → s.rsp = none → step s = .next s) ∧
    (∀ r : Response, s.host = .take :: rest → s.rsp = some r → step s = .next { s with rsp := none, host := rest })

/-- R88: sending a word and taking its response are two steps, and together they are the function from (state, word) to
(state, response) that runs are stated in. -/
def Obligations.SendThenTakeIsOneExchange : Prop :=
  ∀ (s t : State) (w : CmdWord) (rest : List HostAction) (r : Response),
    s.host = .send w :: .take :: rest → s.rsp = none → transact w { s with host := rest } = some (t, r) →
      ∃ u, step s = .next u ∧ u.rsp = some r ∧ step u = .next t

/-- R45, R191: what reset leaves: state COLLECT, all counters and pointers 0, nothing recorded, every count 0, `NODE` and
`CODE` unreadable, `PQ` and `STK` empty. -/
def Obligations.ResetValues : Prop :=
  State.reset.mode = .idle ∧ State.reset.tv = false ∧ State.reset.cv = false ∧ State.reset.ptr = 0#9 ∧
  State.reset.nleaf = 0#9 ∧ State.reset.nnodes = 0#9 ∧ State.reset.root = 0#9 ∧ State.reset.total = 0#32 ∧
  State.reset.errflags = 0#7 ∧ State.reset.errinfo = 0#13 ∧ State.reset.pq = [] ∧ State.reset.stk = [] ∧
  (∀ a, readFreq State.reset a = 0#32) ∧
  (∀ i, exec (.rdnode i) State.reset = .next (erred State.reset 4 0xD)) ∧
  (∀ a, exec (.rdcode a) State.reset = .next (erred State.reset 4 0xE)) ∧
  exec (.rdreg 0#4) State.reset = .next (answered State.reset 0x0000) ∧
  exec (.rdreg 7#4) State.reset = .next (answered State.reset 0x2008)

/-- R190, R192: an asserted reset leaves the reset state from every state, drops a response not yet taken, and no state of
the core survives it (what the host does next is not the core's). -/
def Obligations.ResetFromEveryState : Prop :=
  ∀ (s : State) (rest : List HostAction), s.host = .reset :: rest → step s = .next { State.reset with host := rest }

/-! ### Errors -/

/-- R174, R175: a command that raises leaves exactly the error record, `MODE` 0 and the response `(c, 0)`: no other
register and no memory entry changes. -/
def Obligations.ErrorsChangeNothingElse : Prop :=
  ∀ (i : Instr) (s t : State) (r : Response), exec i s = .next t → t.rsp = some r → r.err ≠ 0#4 →
    ∃ c v, 1 ≤ c ∧ c ≤ 7 ∧ v < 512 ∧ t = erred s c v

/-- R171 to R173: which command raises which error, and the info it records. -/
def Obligations.ErrorsByCommand : Prop :=
  ∀ (i : Instr) (s t : State) (r : Response), exec i s = .next t → t.rsp = some r →
    (r.err = 1#4 → i = .build ∧ s.total = 0#32 ∧ t = erred s 1 0) ∧
    (r.err = 2#4 → ∃ a e, i = .enc a ∧ readCode s a = some e ∧ e.valid = false ∧ t = erred s 2 a.toNat) ∧
    (r.err = 3#4 → i = .decend ∧ s.ptr ≠ s.root ∧ t = erred s 3 s.ptr.toNat) ∧
    (r.err = 4#4 → t = erred s 4 (instrOpcode i).toNat ∧
      instrOpcode i ∉ [0x0#4, 0x1#4, 0xB#4, 0xC#4, 0xF#4]) ∧
    (r.err = 5#4 → (∃ rest, i = .reservedF rest) ∧ t = erred s 5 15) ∧
    (r.err = 6#4 → ∃ a, i = .sym a ∧ s.total.toNat = 4294967295 ∧ t = erred s 6 a.toNat) ∧
    (r.err = 7#4 → (∃ n, i = .rdreg n ∧ 8 ≤ n.toNat ∧ t = erred s 7 n.toNat) ∨
      (∃ n, i = .rdnode n ∧ s.nnodes.toNat ≤ n.toNat ∧ t = erred s 7 n.toNat)) ∧
    r.err.toNat ≤ 7

/-- R155, R176: in each of the six states a command not legal there raises `E_SEQ` and nothing before it, a legal one does
not; an OK response leaves the triple of the graph, an error leaves `MODE` 0 with `TV` and `CV` as they were; and the
register invariants leave no other triple. -/
def Obligations.StateGraphOfCommands : Prop :=
  (∀ (i : Instr) (s : State) (legal : List Opcode), instrWellFormed i = true →
    legalOpcodes s.mode s.tv s.cv = some legal →
    (instrOpcode i ∉ legal → exec i s = .next (erred s 4 (instrOpcode i).toNat)) ∧
    (∀ (t : State) (r : Response), exec i s = .next t → t.rsp = some r →
      (instrOpcode i ∈ legal → r.err ≠ 4#4) ∧
      (r.err = 0#4 → (t.mode, t.tv, t.cv) = tripleAfter i (s.mode, s.tv, s.cv)) ∧
      (r.err ≠ 0#4 → (t.mode, t.tv, t.cv) = (.idle, s.tv, s.cv)))) ∧
  (∀ s : State, RegistersOk s → legalOpcodes s.mode s.tv s.cv ≠ none)

/-! ### The commands -/

/-- R140: NOP does nothing and responds `(0, 0)` in every state. -/
def Obligations.NopResult : Prop :=
  decode 0x0000#16 = .ok .nop ∧ ∀ s : State, exec .nop s = .next (answered s 0)

/-- R91: CLR, in every state: every register and `FREQ` to the reset values; `NODE` and `CODE` become unreadable. -/
def Obligations.ClrResult : Prop :=
  decode 0x1000#16 = .ok .clr ∧
  ∀ s : State, ∃ t, exec .clr s = .next t ∧
    t.mode = .idle ∧ t.tv = false ∧ t.cv = false ∧ t.ptr = 0#9 ∧ t.nleaf = 0#9 ∧ t.nnodes = 0#9 ∧ t.root = 0#9 ∧
    t.total = 0#32 ∧ t.errflags = 0#7 ∧ t.errinfo = 0#13 ∧ t.pq = [] ∧ t.stk = [] ∧ (∀ a, readFreq t a = 0#32) ∧
    t.rsp = some ⟨0#4, 0#264⟩ ∧ t.host = s.host

/-- R92: SYM a. Where legal and there is room it counts one `a` and nothing else changes (the premise that `FREQ[a]` is at
most `TOTAL` is R39's, kept by every step: StepKeepsInvariants); at `TOTAL = W_MAX` it raises `E_OVERFLOW`; elsewhere
`E_SEQ`. -/
def Obligations.SymCountsOne : Prop :=
  (∀ a : Symbol, decode (0x2000#16 ||| a.setWidth 16) = .ok (.sym a)) ∧
  ∀ (a : Symbol) (s : State),
    (s.mode = .idle → s.tv = false → s.total.toNat < 4294967295 → (readFreq s a).toNat ≤ s.total.toNat →
      ∃ t, exec (.sym a) s = .next t ∧ (readFreq t a).toNat = (readFreq s a).toNat + 1 ∧
        (∀ b, b ≠ a → readFreq t b = readFreq s b) ∧ t.total.toNat = s.total.toNat + 1 ∧
        t = { s with mem := { s.mem with freq := t.mem.freq }, total := t.total, rsp := some ⟨0#4, 0#264⟩ }) ∧
    (s.mode = .idle → s.tv = false → s.total.toNat = 4294967295 → exec (.sym a) s = .next (erred s 6 a.toNat)) ∧
    (s.mode ≠ .idle ∨ s.tv = true → exec (.sym a) s = .next (erred s 4 2))

/-- R93, R38, R39, R44: BUILD, where legal and with at least one symbol counted, completes: it writes a tree that meets the
tree invariants, with one leaf per symbol present, the root last and of weight `TOTAL`, and responds the root; `FREQ`,
`CODE` and every register it does not name are unchanged. -/
def Obligations.BuildMakesTheTree : Prop :=
  ∀ s : State, s.mode = .idle → s.tv = false → s.total.toNat = freqSum s.mem.freq → s.total ≠ 0#32 →
    ∃ t, exec .build s = .next t ∧
      t = { s with mem := { s.mem with node := t.mem.node }, nleaf := t.nleaf, nnodes := t.nnodes, root := t.root,
                   tv := true, pq := [], rsp := some ⟨0#4, BitVec.ofNat 264 t.root.toNat⟩ } ∧
      t.nleaf.toNat = (allSymbols.filter fun a => readFreq s a ≠ 0#32).length ∧
      t.nnodes.toNat = 2 * t.nleaf.toNat - 1 ∧ t.root.toNat = t.nnodes.toNat - 1 ∧
      TreeOk s.mem.freq t.mem.node t.nleaf.toNat t.nnodes.toNat ∧
      ∃ e, readNode t t.root = some e ∧ entryWeight e = s.total

/-- R93, R171: BUILD with nothing counted raises `EmptyInputError` with info 0; where it is not legal it raises `E_SEQ`. -/
def Obligations.BuildErrors : Prop :=
  ∀ s : State,
    (s.mode = .idle → s.tv = false → s.total = 0#32 → exec .build s = .next (erred s 1 0)) ∧
    (s.mode ≠ .idle ∨ s.tv = true → exec .build s = .next (erred s 4 3))

/-- R94: `before` compares weight, then index, both unsigned, and is a strict total order on written nodes. -/
def Obligations.ComparatorIsStrictTotalOrder : Prop :=
  ∀ (node : Table NodeEntry) (a b c : NodeIdx) (ea eb ec : NodeEntry),
    nodeAt node a = some ea → nodeAt node b = some eb → nodeAt node c = some ec →
    (before node a b = .ok true ↔ (entryWeight ea).toNat < (entryWeight eb).toNat ∨
      ((entryWeight ea).toNat = (entryWeight eb).toNat ∧ a.toNat < b.toNat)) ∧
    before node a a = .ok false ∧
    (a ≠ b → (before node a b = .ok true ↔ before node b a = .ok false)) ∧
    (before node a b = .ok true → before node b c = .ok true → before node a c = .ok true)

/-- R95: the symbols present become leaves 0, 1, … in ascending symbol order, all of them queued, and no other entry of
`NODE` is written. -/
def Obligations.LeavesSeededInSymbolOrder : Prop :=
  ∀ (freq : Table Count) (node : Table NodeEntry) (present : List Symbol),
    present = allSymbols.filter (fun a => freqAt freq a ≠ 0#32) →
    present.Pairwise (fun a b => a.toNat < b.toNat) ∧ (∀ a, a ∈ present ↔ freqAt freq a ≠ 0#32) ∧
    (seedLeaves freq node).next = present.length ∧
    (seedLeaves freq node).pq = (List.range present.length).map (BitVec.ofNat 9) ∧
    (∀ k a, present[k]? = some a → tableGet (seedLeaves freq node).node k = some (.leaf a (freqAt freq a))) ∧
    (∀ j, present.length ≤ j → tableGet (seedLeaves freq node).node j = tableGet node j)

/-- R96: a merge takes the two least nodes of the queue under `before`, `lo` before `hi` and both before every other, and
puts in their place one internal node at the next index with `lo` on the left, `hi` on the right and the exact sum of their
weights; no other entry of `NODE` changes. -/
def Obligations.MergeJoinsTheTwoLeast : Prop :=
  ∀ b b' : TreeBuild, b.pq.Nodup → mergeStep b = .ok b' →
    ∃ lo hi el eh w, lo ∈ b.pq ∧ hi ∈ b.pq ∧ lo ≠ hi ∧ nodeAt b.node lo = some el ∧ nodeAt b.node hi = some eh ∧
      before b.node lo hi = .ok true ∧
      (∀ j ∈ b.pq, j ≠ lo → j ≠ hi → before b.node lo j = .ok true ∧ before b.node hi j = .ok true) ∧
      w.toNat = (entryWeight el).toNat + (entryWeight eh).toNat ∧
      tableGet b'.node b.next = some (.internal w lo hi) ∧
      (∀ j, j ≠ b.next → tableGet b'.node j = tableGet b.node j) ∧
      b'.pq = (b.pq.erase lo).erase hi ++ [BitVec.ofNat 9 b.next] ∧ b'.next = b.next + 1

/-- 40_build.md R98, which the spec marks as its own inference: "the tree, down to every index and field of `NODE`, is a
function of `FREQ` alone". Whatever `NODE` held before, equal counts build equal trees. -/
def Obligations.TreeIsAFunctionOfCounts : Prop :=
  ∀ (freq freq' : Table Count) (node node' : Table NodeEntry) (t : BuiltTree),
    (∀ a, freqAt freq a = freqAt freq' a) → buildTree freq node = .ok t →
      ∃ t', buildTree freq' node' = .ok t' ∧ t'.nleaf = t.nleaf ∧ t'.nnodes = t.nnodes ∧ t'.root = t.root ∧
        ∀ i, i < t.nnodes.toNat → tableGet t'.node i = tableGet t.node i

/-- R97: with exactly one distinct symbol counted, BUILD makes a single leaf. -/
def Obligations.OneSymbolBuildsOneLeaf : Prop :=
  ∀ (a : Symbol) (s : State), s.mode = .idle → s.tv = false → readFreq s a = s.total → s.total ≠ 0#32 →
    (∀ b, b ≠ a → readFreq s b = 0#32) →
    ∃ t, exec .build s = .next t ∧ readNode t 0#9 = some (.leaf a s.total) ∧ t.root = 0#9 ∧ t.nleaf = 1#9 ∧
      t.nnodes = 1#9 ∧ single t = true ∧ t.rsp = some ⟨0#4, 0#264⟩

/-- R110, R35, R40: DERIVE, where legal and with a tree in `NODE`, completes: every symbol's entry holds its path from the
root (or `"0"` for a single leaf), or the entry of no codeword; `FREQ`, `NODE` and every other register are unchanged. -/
def Obligations.DeriveFillsTheCodeTable : Prop :=
  ∀ s : State, s.mode = .idle → s.tv = true → s.cv = false →
    1 ≤ s.nleaf.toNat → s.nleaf.toNat ≤ 256 → s.nnodes.toNat = 2 * s.nleaf.toNat - 1 →
    s.root.toNat = s.nnodes.toNat - 1 → TreeOk s.mem.freq s.mem.node s.nleaf.toNat s.nnodes.toNat →
    ∃ t, exec .derive s = .next t ∧
      t = { s with mem := { s.mem with code := t.mem.code }, cv := true, stk := [], rsp := some ⟨0#4, 0#264⟩ } ∧
      CodeOk s.mem.freq s.mem.node s.root t.mem.code

/-- R110: where DERIVE is not legal it raises `E_SEQ` and `CODE` is unchanged. -/
def Obligations.DeriveOutOfSequence : Prop :=
  decode 0x4000#16 = .ok .derive ∧
  ∀ s : State, s.mode ≠ .idle ∨ s.tv = false ∨ s.cv = true → exec .derive s = .next (erred s 4 4)

/-- R112: the one symbol of a single-leaf tree gets the codeword `"0"`, code word 0x3, and every other symbol none;
nothing else changes. -/
def Obligations.SingleLeafCodeword : Prop :=
  ∀ (s : State) (a : Symbol) (w : Count), s.mode = .idle → s.tv = true → s.cv = false →
    readNode s s.root = some (.leaf a w) →
    ∃ t, exec .derive s = .next t ∧ readCode t a = some ⟨true, 1#8, 0#255⟩ ∧
      codeNumber ⟨true, 1#8, 0#255⟩ = 0x3 ∧ (∀ b, b ≠ a → readCode t b = some ⟨false, 0#8, 0#255⟩) ∧
      t = { s with mem := { s.mem with code := t.mem.code }, cv := true, stk := [], rsp := some ⟨0#4, 0#264⟩ }

/-- R120: ENCBEG. -/
def Obligations.EncbegResult : Prop :=
  decode 0x5000#16 = .ok .encbeg ∧
  ∀ s : State,
    (s.mode = .idle → s.cv = true → exec .encbeg s = .next (answered { s with mode := .enc } 0)) ∧
    (s.mode ≠ .idle ∨ s.cv = false → exec .encbeg s = .next (erred s 4 5))

/-- R121: ENC a: the code word of `CODE[a]`, nothing written; `UnknownSymbolError` where there is none; `E_SEQ` outside an
encode transaction. -/
def Obligations.EncResult : Prop :=
  (∀ a : Symbol, decode (0x6000#16 ||| a.setWidth 16) = .ok (.enc a)) ∧
  ∀ (a : Symbol) (s : State),
    (∀ e, s.mode = .enc → readCode s a = some e → e.valid = true →
      exec (.enc a) s = .next (answered s (codeNumber e))) ∧
    (∀ e, s.mode = .enc → readCode s a = some e → e.valid = false → exec (.enc a) s = .next (erred s 2 a.toNat)) ∧
    (s.mode ≠ .enc → exec (.enc a) s = .next (erred s 4 6))

/-- R122: ENCEND. -/
def Obligations.EncendResult : Prop :=
  decode 0x7000#16 = .ok .encend ∧
  ∀ s : State,
    (s.mode = .enc → exec .encend s = .next (answered { s with mode := .idle } 0)) ∧
    (s.mode ≠ .enc → exec .encend s = .next (erred s 4 7))

/-- R130: DECBEG puts the pointer at the root. -/
def Obligations.DecbegResult : Prop :=
  decode 0x8000#16 = .ok .decbeg ∧
  ∀ s : State,
    (s.mode = .idle → s.tv = true → exec .decbeg s = .next (answered { s with ptr := s.root, mode := .dec } 0)) ∧
    (s.mode ≠ .idle ∨ s.tv = false → exec .decbeg s = .next (erred s 4 8))

/-- R131, R133: DBIT b: digit 0 moves left, digit 1 right; at a leaf the symbol is emitted and the pointer returns to the
root; a single leaf emits for every bit and the pointer stays. -/
def Obligations.DbitResult : Prop :=
  (∀ b : Bool, decode (0x9000#16 ||| BitVec.ofNat 16 b.toNat) = .ok (.dbit b)) ∧
  ∀ (b : Bool) (s : State),
    (∀ a w, s.mode = .dec → readNode s s.root = some (.leaf a w) →
      exec (.dbit b) s = .next (answered s (2 * a.toNat + 1))) ∧
    (∀ wr lr rr w l r, s.mode = .dec → readNode s s.root = some (.internal wr lr rr) →
      readNode s s.ptr = some (.internal w l r) →
      (∀ a wa, readNode s (if b = false then l else r) = some (.leaf a wa) →
        exec (.dbit b) s = .next (answered { s with ptr := s.root } (2 * a.toNat + 1))) ∧
      (∀ wn ln rn, readNode s (if b = false then l else r) = some (.internal wn ln rn) →
        exec (.dbit b) s = .next (answered { s with ptr := if b = false then l else r } 0))) ∧
    (s.mode ≠ .dec → exec (.dbit b) s = .next (erred s 4 9))

/-- R132: DECEND: the pointer must be at the root, else `TruncatedCodeError` with the pointer as info. -/
def Obligations.DecendResult : Prop :=
  decode 0xA000#16 = .ok .decend ∧
  ∀ s : State,
    (s.mode = .dec → s.ptr = s.root → exec .decend s = .next (answered { s with mode := .idle } 0)) ∧
    (s.mode = .dec → s.ptr ≠ s.root → exec .decend s = .next (erred s 3 s.ptr.toNat)) ∧
    (s.mode ≠ .dec → exec .decend s = .next (erred s 4 10))

/-- R141, R37, R83: RDREG r: the eight registers with all their fields, `MODE` read as 0 in IDLE, 1 in ENC and 2 in DEC,
nothing written; `E_RANGE` for 8 to 15. -/
def Obligations.RdregResult : Prop :=
  (∀ r : RegNum, decode (0xB000#16 ||| r.setWidth 16) = .ok (.rdreg r)) ∧
  ∀ (r : RegNum) (s : State),
    exec (.rdreg r) s =
      match [statusNumber s, s.total.toNat, s.nleaf.toNat, s.nnodes.toNat, s.root.toNat, s.ptr.toNat,
          s.errinfo.toNat, 0x2008][r.toNat]? with
      | some v => .next (answered s v)
      | none => .next (erred s 7 r.toNat)

/-- R142: RDFREQ a: the count, in every state, nothing written. -/
def Obligations.RdfreqResult : Prop :=
  (∀ a : Symbol, decode (0xC000#16 ||| a.setWidth 16) = .ok (.rdfreq a)) ∧
  ∀ (a : Symbol) (s : State), exec (.rdfreq a) s = .next (answered s (readFreq s a).toNat)

/-- R143, R80: RDNODE i: the node word, nothing written; `E_SEQ` without a tree, `E_RANGE` past it. -/
def Obligations.RdnodeResult : Prop :=
  (∀ i : NodeIdx, decode (0xD000#16 ||| i.setWidth 16) = .ok (.rdnode i)) ∧
  ∀ (i : NodeIdx) (s : State),
    (∀ e, s.tv = true → i.toNat < s.nnodes.toNat → readNode s i = some e →
      exec (.rdnode i) s = .next (answered s (nodeNumber e))) ∧
    (s.tv = true → s.nnodes.toNat ≤ i.toNat → exec (.rdnode i) s = .next (erred s 7 i.toNat)) ∧
    (s.tv = false → exec (.rdnode i) s = .next (erred s 4 13))

/-- R144, R81: RDCODE a: the code word, valid or not, nothing written; `E_SEQ` without a table. -/
def Obligations.RdcodeResult : Prop :=
  (∀ a : Symbol, decode (0xE000#16 ||| a.setWidth 16) = .ok (.rdcode a)) ∧
  ∀ (a : Symbol) (s : State),
    (∀ e, s.cv = true → readCode s a = some e → exec (.rdcode a) s = .next (answered s (codeNumber e))) ∧
    (s.cv = false → exec (.rdcode a) s = .next (erred s 4 14))

/-- R145: NOP, RDREG, RDFREQ, RDNODE and RDCODE change nothing but the response when they succeed, and with an error
nothing but what every error changes. -/
def Obligations.ReadbackChangesNothing : Prop :=
  ∀ (i : Instr) (s t : State) (r : Response),
    i = .nop ∨ (∃ n, i = .rdreg n) ∨ (∃ a, i = .rdfreq a) ∨ (∃ n, i = .rdnode n) ∨ (∃ a, i = .rdcode a) →
    exec i s = .next t → t.rsp = some r →
      (r.err = 0#4 → t = { s with rsp := some r }) ∧ (r.err ≠ 0#4 → ∃ c v, t = erred s c v)

/-! ### What holds of every command -/

/-- R78, R88: every command that answers gives exactly one response, in its place, and leaves the host's later actions; an
error carries no data and no code past 7. -/
def Obligations.EveryCommandResponds : Prop :=
  ∀ (i : Instr) (s t : State), exec i s = .next t →
    t.host = s.host ∧ ∃ r, t.rsp = some r ∧ r.err.toNat ≤ 7 ∧ (r.err ≠ 0#4 → r.data = 0#264)

/-- R31, R178: an error flag is cleared by no command but CLR, and a flag is set only by an error of its code. -/
def Obligations.ErrorFlagsAreSticky : Prop :=
  ∀ (i : Instr) (s t : State) (e : ErrorCode), exec i s = .next t → i ≠ .clr →
    (errFlag s.errflags e = true → errFlag t.errflags e = true) ∧
    (errFlag s.errflags e = false → errFlag t.errflags e = true → t.rsp = some ⟨errorNumber e, 0#264⟩)

/-- R24, R43: while `TV = 1` no command but CLR changes the tree, its registers, the counts or `TV`. -/
def Obligations.TreeIsImmutable : Prop :=
  ∀ (i : Instr) (s t : State), s.tv = true → exec i s = .next t → i ≠ .clr →
    t.tv = true ∧ t.mem.node = s.mem.node ∧ t.nleaf = s.nleaf ∧ t.nnodes = s.nnodes ∧ t.root = s.root ∧
    t.mem.freq = s.mem.freq ∧ t.total = s.total

/-- R25: while `CV = 1` no command but CLR changes the code table or `CV`. -/
def Obligations.CodeTableIsImmutable : Prop :=
  ∀ (i : Instr) (s t : State), s.cv = true → exec i s = .next t → i ≠ .clr →
    t.cv = true ∧ t.mem.code = s.mem.code

/-- R26: `PTR` is written by DECBEG (to `ROOT`), DBIT and CLR (to 0) only, and by no error. -/
def Obligations.PointerWriters : Prop :=
  ∀ (i : Instr) (s t : State) (r : Response), exec i s = .next t → t.rsp = some r →
    (r.err ≠ 0#4 → t.ptr = s.ptr) ∧
    (i ≠ .clr → i ≠ .decbeg → (∀ b, i ≠ .dbit b) → t.ptr = s.ptr) ∧
    (i = .decbeg → r.err = 0#4 → t.ptr = s.root) ∧ (i = .clr → t.ptr = 0#9)

/-- R136: in a decode transaction no bit is invalid: every DBIT is OK and the transaction stays open. -/
def Obligations.EveryBitHasAMove : Prop :=
  ∀ (s : State) (b : Bool), Inv s → s.mode = .dec →
    ∃ t d, exec (.dbit b) s = .next t ∧ t.rsp = some ⟨0#4, d⟩ ∧ t.mode = .dec

/-! ### Invariants -/

/-- R38 to R44 at reset. -/
def Obligations.InvariantsHoldAtReset : Prop := Inv State.reset

/-- R38, R39, R40, R41, R42, R44: every step from a state that meets the invariants of the machine leads to one that does. -/
def Obligations.StepKeepsInvariants : Prop :=
  ∀ s t : State, Inv s → step s = .next t → Inv t

/-- The step function is total on every state that meets the invariants: no run from reset meets a fault or a refusal
(93_implementation_defined.md Part 2; R56, R101). -/
def Obligations.StepNeverStops : Prop :=
  ∀ s : State, Inv s → ∃ t, step s = .next t

/-- The memories keep their canonical form on every step, in states no run reaches as well (notes/assumptions/13.md). -/
def Obligations.StepKeepsCanonicalMemory : Prop :=
  ∀ s t : State, s.mem.wf = true → step s = .next t → t.mem.wf = true

/-- R44, the register invariants alone, on every step. -/
def Obligations.StepKeepsRegisterInvariants : Prop :=
  ∀ s t : State, RegistersOk s → step s = .next t → RegistersOk t

/-! ### The properties of 45_pipelines.md -/

/-- R156, round-trip: after BUILDTREE S and DERIVECODES, from any state, ENCODE S completes with a bit sequence B and
DECODE B completes with S. -/
def Obligations.RoundTrip : Prop :=
  ∀ (symbols : List Symbol) (s : State), symbols ≠ [] → symbols.length ≤ 4294967295 →
    ∃ t log bits u log' v log'',
      runWords (buildTreeWords symbols ++ deriveCodesWords) s = some (t, log) ∧ allOk log = true ∧
      runWords (encodeWords symbols) t = some (u, log') ∧ encodeResult log' = some bits ∧
      runWords (decodeWords bits) u = some (v, log'') ∧ decodeResult log'' = some symbols

/-- R157, prefix-free: whenever `CV = 1` the codewords of the symbols present are non-empty and none begins another. -/
def Obligations.CodewordsArePrefixFree : Prop :=
  ∀ s : State, Inv s → s.cv = true → IsPrefixCode s.mem.freq (tableCode s.mem.code)

/-- R158, weight conservation: after BUILDTREE S the root's weight is the length of S, for any input; and whenever
`TV = 1`, in every state that meets the invariants, it is `TOTAL`. -/
def Obligations.RootWeightIsInputLength : Prop :=
  (∀ (symbols : List Symbol) (s : State), symbols ≠ [] → symbols.length ≤ 4294967295 →
    ∃ t log e, runWords (buildTreeWords symbols) s = some (t, log) ∧ allOk log = true ∧ t.tv = true ∧
      readNode t t.root = some e ∧ (entryWeight e).toNat = symbols.length) ∧
  (∀ s : State, Inv s → s.tv = true → ∃ e, readNode s s.root = some e ∧ entryWeight e = s.total)

/-- R159, optimality: with at least two symbols present, BUILD and DERIVE make a code whose cost is minimal among all
prefix codes for those counts. -/
def Obligations.CodeIsOptimal : Prop :=
  ∀ s t u : State, s.mode = .idle → s.tv = false → s.cv = false →
    exec .build s = .next t → t.tv = true → exec .derive t = .next u → 2 ≤ u.nleaf.toNat →
    IsPrefixCode u.mem.freq (tableCode u.mem.code) ∧
    ∀ code : Symbol → List Bool, IsPrefixCode u.mem.freq code →
      codeCost u.mem.freq (tableCode u.mem.code) ≤ codeCost u.mem.freq code

/-- R160, determinism: two inputs that are permutations of each other give identical counts, trees and code tables, from
any two states: equal `NLEAF`, `NNODES` and `ROOT`, and equal entries of `FREQ`, of `NODE` below `NNODES` and of `CODE`. -/
def Obligations.PermutedInputsGiveOneTree : Prop :=
  ∀ (symbols symbols' : List Symbol) (s s' : State), symbols.Perm symbols' → symbols ≠ [] →
    symbols.length ≤ 4294967295 →
    ∃ t log t' log', runWords (buildTreeWords symbols ++ deriveCodesWords) s = some (t, log) ∧
      runWords (buildTreeWords symbols' ++ deriveCodesWords) s' = some (t', log') ∧ t.cv = true ∧ t'.cv = true ∧
      (∀ a, readFreq t' a = readFreq t a) ∧ SameTreeAndTable t t'

/-- R162: two symbols of equal frequency get the codewords `"0"` (the smaller value) and `"1"`. -/
def Obligations.TwoEqualSymbols : Prop :=
  ∀ (a b : Symbol) (symbols : List Symbol) (s : State), a.toNat < b.toNat → (∀ x ∈ symbols, x = a ∨ x = b) →
    symbols.count a = symbols.count b → symbols ≠ [] → symbols.length ≤ 4294967295 →
    ∃ t log, runWords (buildTreeWords symbols ++ deriveCodesWords) s = some (t, log) ∧ allOk log = true ∧
      tableCode t.mem.code a = [false] ∧ tableCode t.mem.code b = [true]

/-- R163, truncation: decoding a bit sequence that ends strictly between the root and a leaf, after any number of whole
codewords, raises `TruncatedCodeError` at its DECEND, and the transaction has no result. -/
def Obligations.TruncationIsDetected : Prop :=
  ∀ (s : State) (whole cut : List Bool), Inv s → s.mode = .idle → s.tv = true →
    IsCodewordSequence s.mem.node s.root whole → IsCutCodeword s.mem.node s.root cut →
    ∃ t log, runWords (decodeWords (whole ++ cut)) s = some (t, log) ∧
      log.getLast? = some (encode .decend, ⟨3#4, 0#264⟩) ∧ decodeResult log = none

/-- 43_decode.md R134, the sentence the spec marks as its own inference: once DECBEG and any bits have been consumed in a
tree of more than one leaf, each with an OK response, the pointer is at an internal node, and it is at the root "exactly
when the bits consumed so far are a concatenation of whole codewords". -/
def Obligations.PointerAtRootBetweenCodewords : Prop :=
  ∀ (s : State) (bits : List Bool), Inv s → s.mode = .idle → s.tv = true → single s = false →
    ∃ t log, runWords (encode .decbeg :: bits.map fun b => encode (.dbit b)) s = some (t, log) ∧ allOk log = true ∧
      t.mode = .dec ∧ (∃ w l r, readNode t t.ptr = some (.internal w l r)) ∧
      (t.ptr = t.root ↔ IsCodewordSequence s.mem.node s.root bits)

/-- R166: encoding no symbol completes with no bit, decoding no bit with no symbol, and only BUILDTREE rejects an empty
input. -/
def Obligations.EmptyTransactionsComplete : Prop :=
  (∀ s : State, s.mode = .idle → s.cv = true →
    ∃ t log, runWords (encodeWords []) s = some (t, log) ∧ encodeResult log = some []) ∧
  (∀ s : State, s.mode = .idle → s.tv = true →
    ∃ t log, runWords (decodeWords []) s = some (t, log) ∧ decodeResult log = some []) ∧
  (∀ s : State, ∃ t log, runWords (buildTreeWords []) s = some (t, log) ∧
    log.getLast? = some (encode .build, ⟨1#4, 0#264⟩))
end

