-- ==== Sys2Proof/Laws/State.lean ====
section
/-! SUPPORT. One lemma per field of `State` and per named update: what the update leaves in the field. -/

namespace Sys2Proof.Machine

/-! ### respond -/

@[simp] theorem respond_mode (d : RspData) (s : State) : (respond d s).mode = s.mode := rfl
@[simp] theorem respond_tv (d : RspData) (s : State) : (respond d s).tv = s.tv := rfl
@[simp] theorem respond_cv (d : RspData) (s : State) : (respond d s).cv = s.cv := rfl
@[simp] theorem respond_ptr (d : RspData) (s : State) : (respond d s).ptr = s.ptr := rfl
@[simp] theorem respond_total (d : RspData) (s : State) : (respond d s).total = s.total := rfl
@[simp] theorem respond_nleaf (d : RspData) (s : State) : (respond d s).nleaf = s.nleaf := rfl
@[simp] theorem respond_nnodes (d : RspData) (s : State) : (respond d s).nnodes = s.nnodes := rfl
@[simp] theorem respond_root (d : RspData) (s : State) : (respond d s).root = s.root := rfl
@[simp] theorem respond_errflags (d : RspData) (s : State) : (respond d s).errflags = s.errflags := rfl
@[simp] theorem respond_errinfo (d : RspData) (s : State) : (respond d s).errinfo = s.errinfo := rfl
@[simp] theorem respond_mem (d : RspData) (s : State) : (respond d s).mem = s.mem := rfl
@[simp] theorem respond_pq (d : RspData) (s : State) : (respond d s).pq = s.pq := rfl
@[simp] theorem respond_stk (d : RspData) (s : State) : (respond d s).stk = s.stk := rfl
@[simp] theorem respond_rsp (d : RspData) (s : State) : (respond d s).rsp = some ⟨0#4, d⟩ := rfl
@[simp] theorem respond_host (d : RspData) (s : State) : (respond d s).host = s.host := rfl

/-! ### raiseError -/

@[simp] theorem raiseError_mode (e : ErrorCode) (v : Info) (s : State) : (raiseError e v s).mode = .idle := rfl
@[simp] theorem raiseError_tv (e : ErrorCode) (v : Info) (s : State) : (raiseError e v s).tv = s.tv := rfl
@[simp] theorem raiseError_cv (e : ErrorCode) (v : Info) (s : State) : (raiseError e v s).cv = s.cv := rfl
@[simp] theorem raiseError_ptr (e : ErrorCode) (v : Info) (s : State) : (raiseError e v s).ptr = s.ptr := rfl
@[simp] theorem raiseError_total (e : ErrorCode) (v : Info) (s : State) : (raiseError e v s).total = s.total := rfl
@[simp] theorem raiseError_nleaf (e : ErrorCode) (v : Info) (s : State) : (raiseError e v s).nleaf = s.nleaf := rfl
@[simp] theorem raiseError_nnodes (e : ErrorCode) (v : Info) (s : State) : (raiseError e v s).nnodes = s.nnodes := rfl
@[simp] theorem raiseError_root (e : ErrorCode) (v : Info) (s : State) : (raiseError e v s).root = s.root := rfl
@[simp] theorem raiseError_errflags (e : ErrorCode) (v : Info) (s : State) : (raiseError e v s).errflags = setErrFlag s.errflags e := rfl
@[simp] theorem raiseError_errinfo (e : ErrorCode) (v : Info) (s : State) : (raiseError e v s).errinfo = errInfoWord e v := rfl
@[simp] theorem raiseError_mem (e : ErrorCode) (v : Info) (s : State) : (raiseError e v s).mem = s.mem := rfl
@[simp] theorem raiseError_pq (e : ErrorCode) (v : Info) (s : State) : (raiseError e v s).pq = s.pq := rfl
@[simp] theorem raiseError_stk (e : ErrorCode) (v : Info) (s : State) : (raiseError e v s).stk = s.stk := rfl
@[simp] theorem raiseError_rsp (e : ErrorCode) (v : Info) (s : State) : (raiseError e v s).rsp = some ⟨errorNumber e, 0#264⟩ := rfl
@[simp] theorem raiseError_host (e : ErrorCode) (v : Info) (s : State) : (raiseError e v s).host = s.host := rfl

/-! ### writeFreq -/

@[simp] theorem writeFreq_mode (s : State) (a : Symbol) (v : Count) : (writeFreq s a v).mode = s.mode := rfl
@[simp] theorem writeFreq_tv (s : State) (a : Symbol) (v : Count) : (writeFreq s a v).tv = s.tv := rfl
@[simp] theorem writeFreq_cv (s : State) (a : Symbol) (v : Count) : (writeFreq s a v).cv = s.cv := rfl
@[simp] theorem writeFreq_ptr (s : State) (a : Symbol) (v : Count) : (writeFreq s a v).ptr = s.ptr := rfl
@[simp] theorem writeFreq_total (s : State) (a : Symbol) (v : Count) : (writeFreq s a v).total = s.total := rfl
@[simp] theorem writeFreq_nleaf (s : State) (a : Symbol) (v : Count) : (writeFreq s a v).nleaf = s.nleaf := rfl
@[simp] theorem writeFreq_nnodes (s : State) (a : Symbol) (v : Count) : (writeFreq s a v).nnodes = s.nnodes := rfl
@[simp] theorem writeFreq_root (s : State) (a : Symbol) (v : Count) : (writeFreq s a v).root = s.root := rfl
@[simp] theorem writeFreq_errflags (s : State) (a : Symbol) (v : Count) : (writeFreq s a v).errflags = s.errflags := rfl
@[simp] theorem writeFreq_errinfo (s : State) (a : Symbol) (v : Count) : (writeFreq s a v).errinfo = s.errinfo := rfl
@[simp] theorem writeFreq_pq (s : State) (a : Symbol) (v : Count) : (writeFreq s a v).pq = s.pq := rfl
@[simp] theorem writeFreq_stk (s : State) (a : Symbol) (v : Count) : (writeFreq s a v).stk = s.stk := rfl
@[simp] theorem writeFreq_rsp (s : State) (a : Symbol) (v : Count) : (writeFreq s a v).rsp = s.rsp := rfl
@[simp] theorem writeFreq_host (s : State) (a : Symbol) (v : Count) : (writeFreq s a v).host = s.host := rfl
@[simp] theorem writeFreq_node (s : State) (a : Symbol) (v : Count) : (writeFreq s a v).mem.node = s.mem.node := rfl
@[simp] theorem writeFreq_code (s : State) (a : Symbol) (v : Count) : (writeFreq s a v).mem.code = s.mem.code := rfl

/-! ### installTree -/

@[simp] theorem installTree_mode (t : BuiltTree) (s : State) : (installTree t s).mode = s.mode := rfl
@[simp] theorem installTree_tv (t : BuiltTree) (s : State) : (installTree t s).tv = true := rfl
@[simp] theorem installTree_cv (t : BuiltTree) (s : State) : (installTree t s).cv = s.cv := rfl
@[simp] theorem installTree_ptr (t : BuiltTree) (s : State) : (installTree t s).ptr = s.ptr := rfl
@[simp] theorem installTree_total (t : BuiltTree) (s : State) : (installTree t s).total = s.total := rfl
@[simp] theorem installTree_nleaf (t : BuiltTree) (s : State) : (installTree t s).nleaf = t.nleaf := rfl
@[simp] theorem installTree_nnodes (t : BuiltTree) (s : State) : (installTree t s).nnodes = t.nnodes := rfl
@[simp] theorem installTree_root (t : BuiltTree) (s : State) : (installTree t s).root = t.root := rfl
@[simp] theorem installTree_errflags (t : BuiltTree) (s : State) : (installTree t s).errflags = s.errflags := rfl
@[simp] theorem installTree_errinfo (t : BuiltTree) (s : State) : (installTree t s).errinfo = s.errinfo := rfl
@[simp] theorem installTree_mem (t : BuiltTree) (s : State) : (installTree t s).mem = { s.mem with node := t.node } := rfl
@[simp] theorem installTree_pq (t : BuiltTree) (s : State) : (installTree t s).pq = [] := rfl
@[simp] theorem installTree_stk (t : BuiltTree) (s : State) : (installTree t s).stk = s.stk := rfl
@[simp] theorem installTree_rsp (t : BuiltTree) (s : State) : (installTree t s).rsp = s.rsp := rfl
@[simp] theorem installTree_host (t : BuiltTree) (s : State) : (installTree t s).host = s.host := rfl

/-! ### installCode -/

@[simp] theorem installCode_mode (c : Table CodeEntry) (s : State) : (installCode c s).mode = s.mode := rfl
@[simp] theorem installCode_tv (c : Table CodeEntry) (s : State) : (installCode c s).tv = s.tv := rfl
@[simp] theorem installCode_cv (c : Table CodeEntry) (s : State) : (installCode c s).cv = true := rfl
@[simp] theorem installCode_ptr (c : Table CodeEntry) (s : State) : (installCode c s).ptr = s.ptr := rfl
@[simp] theorem installCode_total (c : Table CodeEntry) (s : State) : (installCode c s).total = s.total := rfl
@[simp] theorem installCode_nleaf (c : Table CodeEntry) (s : State) : (installCode c s).nleaf = s.nleaf := rfl
@[simp] theorem installCode_nnodes (c : Table CodeEntry) (s : State) : (installCode c s).nnodes = s.nnodes := rfl
@[simp] theorem installCode_root (c : Table CodeEntry) (s : State) : (installCode c s).root = s.root := rfl
@[simp] theorem installCode_errflags (c : Table CodeEntry) (s : State) : (installCode c s).errflags = s.errflags := rfl
@[simp] theorem installCode_errinfo (c : Table CodeEntry) (s : State) : (installCode c s).errinfo = s.errinfo := rfl
@[simp] theorem installCode_mem (c : Table CodeEntry) (s : State) : (installCode c s).mem = { s.mem with code := c } := rfl
@[simp] theorem installCode_pq (c : Table CodeEntry) (s : State) : (installCode c s).pq = s.pq := rfl
@[simp] theorem installCode_stk (c : Table CodeEntry) (s : State) : (installCode c s).stk = [] := rfl
@[simp] theorem installCode_rsp (c : Table CodeEntry) (s : State) : (installCode c s).rsp = s.rsp := rfl
@[simp] theorem installCode_host (c : Table CodeEntry) (s : State) : (installCode c s).host = s.host := rfl

/-! ### clearCore -/

@[simp] theorem clearCore_mode (s : State) : (clearCore s).mode = .idle := rfl
@[simp] theorem clearCore_tv (s : State) : (clearCore s).tv = false := rfl
@[simp] theorem clearCore_cv (s : State) : (clearCore s).cv = false := rfl
@[simp] theorem clearCore_ptr (s : State) : (clearCore s).ptr = 0#9 := rfl
@[simp] theorem clearCore_total (s : State) : (clearCore s).total = 0#32 := rfl
@[simp] theorem clearCore_nleaf (s : State) : (clearCore s).nleaf = 0#9 := rfl
@[simp] theorem clearCore_nnodes (s : State) : (clearCore s).nnodes = 0#9 := rfl
@[simp] theorem clearCore_root (s : State) : (clearCore s).root = 0#9 := rfl
@[simp] theorem clearCore_errflags (s : State) : (clearCore s).errflags = 0#7 := rfl
@[simp] theorem clearCore_errinfo (s : State) : (clearCore s).errinfo = 0#13 := rfl
@[simp] theorem clearCore_mem (s : State) : (clearCore s).mem = ⟨[], [], []⟩ := rfl
@[simp] theorem clearCore_pq (s : State) : (clearCore s).pq = [] := rfl
@[simp] theorem clearCore_stk (s : State) : (clearCore s).stk = [] := rfl
@[simp] theorem clearCore_rsp (s : State) : (clearCore s).rsp = s.rsp := rfl
@[simp] theorem clearCore_host (s : State) : (clearCore s).host = s.host := rfl

/-! ### takeResponse -/

@[simp] theorem takeResponse_mode (s : State) : (takeResponse s).mode = s.mode := rfl
@[simp] theorem takeResponse_tv (s : State) : (takeResponse s).tv = s.tv := rfl
@[simp] theorem takeResponse_cv (s : State) : (takeResponse s).cv = s.cv := rfl
@[simp] theorem takeResponse_ptr (s : State) : (takeResponse s).ptr = s.ptr := rfl
@[simp] theorem takeResponse_total (s : State) : (takeResponse s).total = s.total := rfl
@[simp] theorem takeResponse_nleaf (s : State) : (takeResponse s).nleaf = s.nleaf := rfl
@[simp] theorem takeResponse_nnodes (s : State) : (takeResponse s).nnodes = s.nnodes := rfl
@[simp] theorem takeResponse_root (s : State) : (takeResponse s).root = s.root := rfl
@[simp] theorem takeResponse_errflags (s : State) : (takeResponse s).errflags = s.errflags := rfl
@[simp] theorem takeResponse_errinfo (s : State) : (takeResponse s).errinfo = s.errinfo := rfl
@[simp] theorem takeResponse_mem (s : State) : (takeResponse s).mem = s.mem := rfl
@[simp] theorem takeResponse_pq (s : State) : (takeResponse s).pq = s.pq := rfl
@[simp] theorem takeResponse_stk (s : State) : (takeResponse s).stk = s.stk := rfl
@[simp] theorem takeResponse_rsp (s : State) : (takeResponse s).rsp = none := rfl
@[simp] theorem takeResponse_host (s : State) : (takeResponse s).host = s.host := rfl

/-! ### resetCore -/

@[simp] theorem resetCore_mode (s : State) : (resetCore s).mode = .idle := rfl
@[simp] theorem resetCore_tv (s : State) : (resetCore s).tv = false := rfl
@[simp] theorem resetCore_cv (s : State) : (resetCore s).cv = false := rfl
@[simp] theorem resetCore_ptr (s : State) : (resetCore s).ptr = 0#9 := rfl
@[simp] theorem resetCore_total (s : State) : (resetCore s).total = 0#32 := rfl
@[simp] theorem resetCore_nleaf (s : State) : (resetCore s).nleaf = 0#9 := rfl
@[simp] theorem resetCore_nnodes (s : State) : (resetCore s).nnodes = 0#9 := rfl
@[simp] theorem resetCore_root (s : State) : (resetCore s).root = 0#9 := rfl
@[simp] theorem resetCore_errflags (s : State) : (resetCore s).errflags = 0#7 := rfl
@[simp] theorem resetCore_errinfo (s : State) : (resetCore s).errinfo = 0#13 := rfl
@[simp] theorem resetCore_mem (s : State) : (resetCore s).mem = ⟨[], [], []⟩ := rfl
@[simp] theorem resetCore_pq (s : State) : (resetCore s).pq = [] := rfl
@[simp] theorem resetCore_stk (s : State) : (resetCore s).stk = [] := rfl
@[simp] theorem resetCore_rsp (s : State) : (resetCore s).rsp = none := rfl
@[simp] theorem resetCore_host (s : State) : (resetCore s).host = s.host := rfl

/-! ### placeWord -/

@[simp] theorem placeWord_mode (w : CmdWord) (s : State) : (placeWord w s).mode = s.mode := rfl
@[simp] theorem placeWord_tv (w : CmdWord) (s : State) : (placeWord w s).tv = s.tv := rfl
@[simp] theorem placeWord_cv (w : CmdWord) (s : State) : (placeWord w s).cv = s.cv := rfl
@[simp] theorem placeWord_ptr (w : CmdWord) (s : State) : (placeWord w s).ptr = s.ptr := rfl
@[simp] theorem placeWord_total (w : CmdWord) (s : State) : (placeWord w s).total = s.total := rfl
@[simp] theorem placeWord_nleaf (w : CmdWord) (s : State) : (placeWord w s).nleaf = s.nleaf := rfl
@[simp] theorem placeWord_nnodes (w : CmdWord) (s : State) : (placeWord w s).nnodes = s.nnodes := rfl
@[simp] theorem placeWord_root (w : CmdWord) (s : State) : (placeWord w s).root = s.root := rfl
@[simp] theorem placeWord_errflags (w : CmdWord) (s : State) : (placeWord w s).errflags = s.errflags := rfl
@[simp] theorem placeWord_errinfo (w : CmdWord) (s : State) : (placeWord w s).errinfo = s.errinfo := rfl
@[simp] theorem placeWord_mem (w : CmdWord) (s : State) : (placeWord w s).mem = s.mem := rfl
@[simp] theorem placeWord_pq (w : CmdWord) (s : State) : (placeWord w s).pq = s.pq := rfl
@[simp] theorem placeWord_stk (w : CmdWord) (s : State) : (placeWord w s).stk = s.stk := rfl
@[simp] theorem placeWord_rsp (w : CmdWord) (s : State) : (placeWord w s).rsp = none := rfl
@[simp] theorem placeWord_host (w : CmdWord) (s : State) : (placeWord w s).host = .send w :: s.host := rfl

end Sys2Proof.Machine
end

