-- ==== Sys2Proof/Laws/Table.lean ====
section
/-! SUPPORT. The laws of the table memories: a read after a write, and the canonical form kept by every write. -/

namespace Sys2Proof.Machine

variable {α : Type}

@[simp] theorem tableGet_put_same (t : Table α) (i : Nat) (v : α) : tableGet (tablePut t i v) i = some v := by
  induction t with
  | nil => simp [tablePut, tableGet]
  | cons c rest ih =>
    obtain ⟨k, u⟩ := c
    simp only [tablePut]
    split
    · simp [tableGet]
    · split
      · simp [tableGet]
      · rename_i h; simp [tableGet, Ne.symm h, ih]

theorem tableGet_put_other (t : Table α) {i j : Nat} (v : α) (h : j ≠ i) :
    tableGet (tablePut t i v) j = tableGet t j := by
  induction t with
  | nil => simp [tablePut, tableGet, Ne.symm h]
  | cons c rest ih =>
    obtain ⟨k, u⟩ := c
    simp only [tablePut]
    split
    · simp [tableGet, Ne.symm h]
    · split
      · rename_i hik; simp [tableGet, ← hik, Ne.symm h]
      · simp [tableGet, ih]

theorem tableGet_put (t : Table α) (i j : Nat) (v : α) :
    tableGet (tablePut t i v) j = if j = i then some v else tableGet t j := by
  split
  · subst_vars; simp
  · exact tableGet_put_other t v ‹_›

theorem tableGet_erase_other (t : Table α) {i j : Nat} (h : j ≠ i) : tableGet (tableErase t i) j = tableGet t j := by
  induction t with
  | nil => rfl
  | cons c rest ih =>
    obtain ⟨k, u⟩ := c
    simp only [tableErase]
    split
    · rename_i hk; simp [tableGet, hk, Ne.symm h]
    · simp [tableGet, ih]

/-- The canonical form without its recursion: indices pairwise rising and all below the bound. -/
theorem tableWf_iff (bound : Nat) (t : Table α) :
    tableWf bound t = true ↔ (t.map Prod.fst).Pairwise (· < ·) ∧ ∀ c ∈ t, c.1 < bound := by
  induction t with
  | nil => simp [tableWf]
  | cons c rest ih =>
    obtain ⟨k, u⟩ := c
    cases rest with
    | nil => simp [tableWf]
    | cons d rest =>
      obtain ⟨j, v⟩ := d
      simp only [tableWf, Bool.and_eq_true, decide_eq_true_eq, ih]
      constructor
      · rintro ⟨hkj, hp, hb⟩
        refine ⟨List.pairwise_cons.2 ⟨?_, hp⟩, ?_⟩
        · intro x hx
          rcases List.mem_cons.1 hx with rfl | hx
          · exact hkj
          · exact lt_trans hkj ((List.pairwise_cons.1 hp).1 x hx)
        · intro c hc
          rcases List.mem_cons.1 hc with rfl | hc
          · exact lt_trans hkj (hb (j, v) (by simp))
          · exact hb c hc
      · rintro ⟨hp, hb⟩
        obtain ⟨h1, h2⟩ := List.pairwise_cons.1 hp
        exact ⟨h1 j (by simp), h2, fun c hc => hb c (by simp [hc])⟩

/-- What a put lists: the new entry, and old entries at other indices or anywhere. -/
theorem mem_tablePut {t : Table α} {i : Nat} {v : α} {c : Nat × α} (h : c ∈ tablePut t i v) : c = (i, v) ∨ c ∈ t := by
  induction t with
  | nil => simpa [tablePut] using h
  | cons d rest ih =>
    obtain ⟨k, u⟩ := d
    simp only [tablePut] at h
    split at h
    · simpa using h
    · split at h
      · rcases List.mem_cons.1 h with h | h
        · exact .inl h
        · exact .inr (by simp [h])
      · rcases List.mem_cons.1 h with h | h
        · exact .inr (by simp [h])
        · rcases ih h with h | h
          · exact .inl h
          · exact .inr (by simp [h])

theorem mem_tableErase {t : Table α} {i : Nat} {c : Nat × α} (h : c ∈ tableErase t i) : c ∈ t := by
  induction t with
  | nil => simp [tableErase] at h
  | cons d rest ih =>
    obtain ⟨k, u⟩ := d
    simp only [tableErase] at h
    split at h
    · simp [h]
    · rcases List.mem_cons.1 h with h | h
      · simp [h]
      · simp [ih h]

theorem tableWf_put {bound i : Nat} {t : Table α} {v : α} (ht : tableWf bound t = true) (hi : i < bound) :
    tableWf bound (tablePut t i v) = true := by
  rw [tableWf_iff] at ht ⊢
  refine ⟨?_, fun c hc => ?_⟩
  · obtain ⟨hp, -⟩ := ht
    induction t with
    | nil => simp [tablePut]
    | cons d rest ih =>
      obtain ⟨k, u⟩ := d
      obtain ⟨h1, h2⟩ := List.pairwise_cons.1 hp
      simp only [tablePut]
      split
      · rename_i hik
        refine List.pairwise_cons.2 ⟨fun x hx => ?_, hp⟩
        rcases List.mem_cons.1 hx with rfl | hx
        · exact hik
        · exact lt_trans hik (h1 x hx)
      · split
        · rename_i _ hik
          subst hik
          exact List.pairwise_cons.2 ⟨h1, h2⟩
        · rename_i hlt hne
          refine List.pairwise_cons.2 ⟨fun x hx => ?_, ih h2⟩
          obtain ⟨c, hc, rfl⟩ := List.mem_map.1 hx
          rcases mem_tablePut hc with rfl | hc
          · show k < i; omega
          · exact h1 _ (List.mem_map_of_mem hc)
  · rcases mem_tablePut hc with rfl | hc
    · exact hi
    · exact ht.2 c hc

theorem tableErase_sublist (t : Table α) (i : Nat) : (tableErase t i).Sublist t := by
  induction t with
  | nil => simp [tableErase]
  | cons d rest ih =>
    obtain ⟨k, u⟩ := d
    simp only [tableErase]
    split
    · exact List.sublist_cons_self _ _
    · exact ih.cons_cons _

theorem tableWf_erase {bound i : Nat} {t : Table α} (ht : tableWf bound t = true) :
    tableWf bound (tableErase t i) = true := by
  rw [tableWf_iff] at ht ⊢
  exact ⟨ht.1.sublist ((tableErase_sublist t i).map _), fun c hc => ht.2 c (mem_tableErase hc)⟩

/-- In a canonical table an erased index is listed nowhere. -/
theorem tableGet_erase_same {bound : Nat} {t : Table α} (ht : tableWf bound t = true) (i : Nat) :
    tableGet (tableErase t i) i = none := by
  have hnone : ∀ r : Table α, (∀ c ∈ r, c.1 ≠ i) → tableGet r i = none := by
    intro r hr
    induction r with
    | nil => rfl
    | cons c rest ih =>
      obtain ⟨k, u⟩ := c
      simp [tableGet, hr (k, u) (by simp), ih fun c hc => hr c (by simp [hc])]
  have hp := ((tableWf_iff bound t).1 ht).1
  clear ht
  induction t with
  | nil => rfl
  | cons c rest ih =>
    obtain ⟨k, u⟩ := c
    obtain ⟨h1, h2⟩ := List.pairwise_cons.1 hp
    simp only [tableErase]
    split
    · rename_i hk
      refine hnone rest fun c hc => ?_
      have : k < c.1 := h1 _ (List.mem_map_of_mem hc)
      omega
    · rename_i hk
      simp [tableGet, hk, ih h2]

/-- A listed entry is found at its index in a canonical table. -/
theorem tableGet_of_mem {bound : Nat} {t : Table α} (ht : tableWf bound t = true) {i : Nat} {v : α} (h : (i, v) ∈ t) :
    tableGet t i = some v := by
  have hp := ((tableWf_iff bound t).1 ht).1
  clear ht
  induction t with
  | nil => simp at h
  | cons c rest ih =>
    obtain ⟨k, u⟩ := c
    obtain ⟨h1, h2⟩ := List.pairwise_cons.1 hp
    rcases List.mem_cons.1 h with h | h
    · cases h; simp [tableGet]
    · have : k < i := h1 _ (List.mem_map_of_mem h)
      simp [tableGet, Nat.ne_of_lt this, ih h h2]

theorem mem_of_tableGet {t : Table α} {i : Nat} {v : α} (h : tableGet t i = some v) : (i, v) ∈ t := by
  induction t with
  | nil => simp [tableGet] at h
  | cons c rest ih =>
    obtain ⟨k, u⟩ := c
    simp only [tableGet] at h
    split at h
    · cases h; subst_vars; simp
    · simp [ih h]

/-! ### The canonical form of the memories -/

theorem Memory.wf_iff (m : Memory) :
    m.wf = true ↔ tableWf Config.numSymbols m.freq = true ∧ tableWf Config.maxNodes m.node = true ∧
      tableWf Config.numSymbols m.code = true ∧ ∀ c ∈ m.freq, c.2 ≠ 0#32 := by
  simp [Memory.wf, and_assoc]

theorem wf_reset : State.reset.mem.wf = true := by decide

/-- A write of `FREQ` keeps the canonical form, whatever the value. -/
theorem writeFreq_wf {s : State} (h : s.mem.wf = true) (a : Symbol) (v : Count) : (writeFreq s a v).mem.wf = true := by
  rw [Memory.wf_iff] at h ⊢
  obtain ⟨hf, hn, hc, hz⟩ := h
  by_cases hv : v = 0#32
  · simp only [writeFreq, hv, if_true]
    exact ⟨tableWf_erase hf, hn, hc, fun c hc => hz c (mem_tableErase hc)⟩
  · simp only [writeFreq, hv, if_false]
    refine ⟨tableWf_put hf a.isLt, hn, hc, fun c hc => ?_⟩
    rcases mem_tablePut hc with rfl | hc
    · exact hv
    · exact hz c hc

/-- A read of the symbol just written gives the value written. -/
theorem readFreq_writeFreq_same {s : State} (h : s.mem.wf = true) (a : Symbol) (v : Count) :
    readFreq (writeFreq s a v) a = v := by
  have hf := ((Memory.wf_iff _).1 h).1
  by_cases hv : v = 0#32
  · simp [readFreq, freqAt, writeFreq, hv, tableGet_erase_same hf]
  · simp [readFreq, freqAt, writeFreq, hv]

/-- For a value other than 0 the read gives it in every state. -/
theorem readFreq_writeFreq_same_of_ne {s : State} (a : Symbol) {v : Count} (hv : v ≠ 0#32) :
    readFreq (writeFreq s a v) a = v := by
  simp [readFreq, freqAt, writeFreq, hv]

/-- Every other symbol's count is as before. -/
theorem readFreq_writeFreq_other (s : State) {a b : Symbol} (v : Count) (h : b ≠ a) :
    readFreq (writeFreq s a v) b = readFreq s b := by
  have hn : b.toNat ≠ a.toNat := fun e => h (BitVec.eq_of_toNat_eq e)
  by_cases hv : v = 0#32
  · simp [readFreq, freqAt, writeFreq, hv, tableGet_erase_other _ hn]
  · simp [readFreq, freqAt, writeFreq, hv, tableGet_put_other _ _ hn]

/-! ### Reads of the tables after a put, by index and by symbol -/

theorem nodeAt_eq (node : Table NodeEntry) (i : NodeIdx) : nodeAt node i = tableGet node i.toNat := rfl

theorem codeAt_eq (code : Table CodeEntry) (a : Symbol) : codeAt code a = tableGet code a.toNat := rfl

theorem codeAt_put (code : Table CodeEntry) (a b : Symbol) (e : CodeEntry) :
    codeAt (tablePut code a.toNat e) b = if b = a then some e else codeAt code b := by
  simp [codeAt, tableGet_put, BitVec.toNat_inj]

end Sys2Proof.Machine
end

