-- ==== Sys2Proof/Laws/Ops.lean ====
section
/-! SUPPORT. What the shared operations that end a command can do, and what the updates leave of the tables. -/

namespace Sys2Proof.Machine

@[simp] theorem succeed_next (d : RspData) (s t : State) : succeed d s = .next t ↔ t = respond d s := by
  simp [succeed, eq_comm]

@[simp] theorem abort_next (e : ErrorCode) (v : Info) (s t : State) : abort e v s = .next t ↔ t = raiseError e v s := by
  simp [abort, eq_comm]

@[simp] theorem abortSeq_next (i : Instr) (s t : State) :
    abortSeq i s = .next t ↔ t = raiseError .seq ((instrOpcode i).setWidth 9) s := by
  simp [abortSeq]

@[simp] theorem fault_next (f : Fault) (t : State) : (Host.Outcome.fault f : Result) = .next t ↔ False := by simp

/-- No error code is 0, the code of OK (60_exceptions.md R171). -/
theorem errorNumber_ne_zero (e : ErrorCode) : errorNumber e ≠ 0#4 := by cases e <;> decide

/-- The seven codes are different. -/
theorem errorNumber_injective {e f : ErrorCode} (h : errorNumber e = errorNumber f) : e = f := by
  cases e <;> cases f <;> first | rfl | exact absurd h (by decide)

/-- Setting a flag sets that flag and no other (60_exceptions.md R174, R178). -/
theorem errFlag_setErrFlag (flags : BitVec 7) (e f : ErrorCode) :
    errFlag (setErrFlag flags e) f = (errFlag flags f || e == f) := by
  cases e <;> cases f <;> simp [errFlag, setErrFlag, errorNumber]

@[simp] theorem readFreq_respond (d : RspData) (s : State) (a : Symbol) : readFreq (respond d s) a = readFreq s a := rfl
@[simp] theorem readNode_respond (d : RspData) (s : State) (i : NodeIdx) : readNode (respond d s) i = readNode s i := rfl
@[simp] theorem readCode_respond (d : RspData) (s : State) (a : Symbol) : readCode (respond d s) a = readCode s a := rfl
@[simp] theorem readFreq_raiseError (e : ErrorCode) (v : Info) (s : State) (a : Symbol) :
    readFreq (raiseError e v s) a = readFreq s a := rfl
@[simp] theorem readNode_raiseError (e : ErrorCode) (v : Info) (s : State) (i : NodeIdx) :
    readNode (raiseError e v s) i = readNode s i := rfl
@[simp] theorem readCode_raiseError (e : ErrorCode) (v : Info) (s : State) (a : Symbol) :
    readCode (raiseError e v s) a = readCode s a := rfl
@[simp] theorem readFreq_installTree (t : BuiltTree) (s : State) (a : Symbol) :
    readFreq (installTree t s) a = readFreq s a := rfl
@[simp] theorem readNode_installTree (t : BuiltTree) (s : State) (i : NodeIdx) :
    readNode (installTree t s) i = nodeAt t.node i := rfl
@[simp] theorem readCode_installTree (t : BuiltTree) (s : State) (a : Symbol) :
    readCode (installTree t s) a = readCode s a := rfl
@[simp] theorem readFreq_installCode (c : Table CodeEntry) (s : State) (a : Symbol) :
    readFreq (installCode c s) a = readFreq s a := rfl
@[simp] theorem readNode_installCode (c : Table CodeEntry) (s : State) (i : NodeIdx) :
    readNode (installCode c s) i = readNode s i := rfl
@[simp] theorem readCode_installCode (c : Table CodeEntry) (s : State) (a : Symbol) :
    readCode (installCode c s) a = codeAt c a := rfl

/-- Exact addition answers the sum, and answers it exactly where it fits (00_scope.md R12). -/
theorem addExact_eq_some {a b c : Count} : addExact a b = some c ↔ c.toNat = a.toNat + b.toNat := by
  unfold addExact
  split
  · rename_i h
    have hlt : (a + b).toNat = a.toNat + b.toNat := by
      rw [BitVec.toNat_add, Nat.mod_eq_of_lt (by simp only [Config.maxCount] at h; omega)]
    constructor
    · intro e; cases e; exact hlt
    · intro e; exact congrArg some (BitVec.eq_of_toNat_eq (by omega))
  · rename_i h
    have := c.isLt
    simp only [Config.maxCount] at h
    constructor
    · intro e; cases e
    · intro e; omega

theorem addExact_of_le {a b : Count} (h : a.toNat + b.toNat ≤ Config.maxCount) : ∃ c, addExact a b = some c :=
  ⟨a + b, by simp [addExact, h]⟩

/-- A path grows by exactly one digit, up to 255 (00_scope.md R9). -/
theorem nextLen_eq_some {l m : PathLen} : nextLen l = some m ↔ m.toNat = l.toNat + 1 := by
  unfold nextLen
  have hl := l.isLt
  have hm := m.isLt
  split
  · rename_i h
    simp only [Config.maxDigits] at h
    have hlt : (l + 1#8).toNat = l.toNat + 1 := by
      rw [BitVec.toNat_add]; simp; omega
    constructor
    · intro e; cases e; exact hlt
    · intro e; exact congrArg some (BitVec.eq_of_toNat_eq (by omega))
  · rename_i h
    simp only [Config.maxDigits] at h
    constructor
    · intro e; cases e
    · intro e; omega

/-- Digit `k` of a path with one more digit: the new digit at position `len`, the old ones elsewhere, where the old path
held 0 at `len` (10_state.md R35). -/
theorem getLsbD_appendDigit (bits : PathBits) (len : PathLen) (d : Bool) (k : Nat) (hlen : len.toNat < 255)
    (h : bits.getLsbD len.toNat = false) :
    (appendDigit bits len d).getLsbD k = if k = len.toNat then d else bits.getLsbD k := by
  have h1 : (BitVec.getLsbD (1#255) (k - len.toNat)) = decide (k - len.toNat = 0) := by
    rw [show (1#255) = BitVec.ofNat 255 1 from rfl, BitVec.getLsbD_one]
    simp
  cases d
  · simp only [appendDigit, Bool.false_eq_true, if_false]
    split
    · subst_vars; exact h
    · rfl
  · simp only [appendDigit, if_true, BitVec.getLsbD_or, BitVec.getLsbD_shiftLeft, h1]
    by_cases hk : k = len.toNat
    · subst hk; simp [hlen]
    · rcases Nat.lt_or_gt_of_ne hk with hlt | hgt
      · simp [hk, hlt]
      · have : k - len.toNat ≠ 0 := by omega
        simp [hk, this]

end Sys2Proof.Machine
end

