-- ==== Sys2Proof/Laws/Build.lean ====
section
/-! SUPPORT. What the parts of the tree builder can do: one lemma per part, the induction over the merge loop packaged
once, and the canonical form of `NODE`. -/

namespace Sys2Proof.Machine

/-! ### Taking the least node from the queue -/

theorem leastOf_mem {node : Table NodeEntry} {pq : List NodeIdx} {a m : NodeIdx} (h : leastOf node a pq = .ok m) :
    m = a ∨ m ∈ pq := by
  induction pq generalizing a with
  | nil => simp [leastOf] at h; exact .inl h.symm
  | cons b rest ih =>
    simp only [leastOf] at h
    split at h
    · rcases ih h with h | h
      · exact .inr (by simp [h])
      · exact .inr (by simp [h])
    · rcases ih h with h | h
      · exact .inl h
      · exact .inr (by simp [h])
    · cases h

/-- All `takeLeast` can answer: a member of the queue, and the queue without it (40_build.md R93). -/
theorem takeLeast_ok {node : Table NodeEntry} {pq q : List NodeIdx} {m : NodeIdx} (h : takeLeast node pq = .ok (m, q)) :
    m ∈ pq ∧ q = pq.erase m := by
  cases pq with
  | nil => simp [takeLeast] at h
  | cons a rest =>
    simp only [takeLeast] at h
    split at h
    · rename_i m' hm
      cases h
      refine ⟨?_, rfl⟩
      rcases leastOf_mem hm with h | h
      · simp [h]
      · simp [h]
    · cases h

theorem takeLeast_length {node : Table NodeEntry} {pq q : List NodeIdx} {m : NodeIdx}
    (h : takeLeast node pq = .ok (m, q)) : q.length + 1 = pq.length := by
  obtain ⟨hm, rfl⟩ := takeLeast_ok h
  have := List.length_pos_of_mem hm
  rw [List.length_erase_of_mem hm]; omega

theorem before_ok {node : Table NodeEntry} {a b : NodeIdx} {ea eb : NodeEntry} (ha : nodeAt node a = some ea)
    (hb : nodeAt node b = some eb) :
    before node a b = .ok (beforeKeys (entryWeight ea) a (entryWeight eb) b) := by
  simp [before, nodeWeight, ha, hb]

/-- Where every queued node is written, the least one is found. -/
theorem leastOf_total {node : Table NodeEntry} {pq : List NodeIdx} {a : NodeIdx}
    (h : ∀ i, i = a ∨ i ∈ pq → ∃ e, nodeAt node i = some e) : ∃ m, leastOf node a pq = .ok m := by
  induction pq generalizing a with
  | nil => exact ⟨a, rfl⟩
  | cons b rest ih =>
    obtain ⟨ea, ha⟩ := h a (.inl rfl)
    obtain ⟨eb, hb⟩ := h b (.inr (by simp))
    simp only [leastOf, before_ok hb ha]
    cases beforeKeys (entryWeight eb) b (entryWeight ea) a
    · exact ih fun i hi => h i (hi.imp_right fun hi => by simp [hi])
    · exact ih fun i hi => h i (.inr (by rcases hi with rfl | hi <;> simp [*]))

theorem takeLeast_total {node : Table NodeEntry} {pq : List NodeIdx} (hne : pq ≠ [])
    (h : ∀ i ∈ pq, ∃ e, nodeAt node i = some e) : ∃ m q, takeLeast node pq = .ok (m, q) := by
  cases pq with
  | nil => exact absurd rfl hne
  | cons a rest =>
    obtain ⟨m, hm⟩ := leastOf_total (node := node) (pq := rest) (a := a) fun i hi => h i (by simpa using hi)
    exact ⟨m, (a :: rest).erase m, by simp [takeLeast, hm]⟩

/-! ### One merge and the merge loop -/

/-- All a merge can do (40_build.md R96). -/
theorem mergeStep_cases {b b' : TreeBuild} (h : mergeStep b = .ok b') :
    ∃ lo hi pq1 pq2 el eh w, takeLeast b.node b.pq = .ok (lo, pq1) ∧ takeLeast b.node pq1 = .ok (hi, pq2) ∧
      nodeAt b.node lo = some el ∧ nodeAt b.node hi = some eh ∧
      w.toNat = (entryWeight el).toNat + (entryWeight eh).toNat ∧
      b' = { node := tablePut b.node b.next (.internal w lo hi), pq := pq2 ++ [BitVec.ofNat 9 b.next], next := b.next + 1 } := by
  unfold mergeStep at h
  split at h
  · cases h
  · rename_i lo pq1 h1
    split at h
    · cases h
    · rename_i hi pq2 h2
      split at h
      · cases h
      · rename_i e he
        cases h
        unfold mergedEntry nodeWeight at he
        cases hl : nodeAt b.node lo with
        | none => simp [hl] at he
        | some el =>
          cases hh : nodeAt b.node hi with
          | none => simp [hl, hh] at he
          | some eh =>
            simp only [hl, hh] at he
            cases hw : addExact (entryWeight el) (entryWeight eh) with
            | none => simp [hw] at he
            | some w =>
              simp only [hw, Except.ok.injEq] at he
              subst he
              exact ⟨lo, hi, pq1, pq2, el, eh, w, h1, h2, hl, hh, addExact_eq_some.1 hw, rfl⟩

/-- A merge takes one node away from the queue and uses one index. -/
theorem mergeStep_counts {b b' : TreeBuild} (h : mergeStep b = .ok b') :
    b'.pq.length + 1 = b.pq.length ∧ b'.next = b.next + 1 := by
  obtain ⟨lo, hi, pq1, pq2, el, eh, w, h1, h2, -, -, -, rfl⟩ := mergeStep_cases h
  have l1 := takeLeast_length h1
  have l2 := takeLeast_length h2
  simp; omega

/-- The induction over the merge loop, once: what holds of the seeded queue and every merge keeps holds at the end. -/
theorem mergeLoop_keeps {P : TreeBuild → Prop}
    (hstep : ∀ b b', P b → 1 < b.pq.length → mergeStep b = .ok b' → P b') :
    ∀ {fuel : Nat} {b b' : TreeBuild}, P b → mergeLoop fuel b = .ok b' → P b'
  | 0, b, b', hb, h => by simp [mergeLoop] at h; exact h ▸ hb
  | fuel + 1, b, b', hb, h => by
    simp only [mergeLoop] at h
    split at h
    · rename_i hlen
      split at h
      · exact mergeLoop_keeps hstep (hstep _ _ hb hlen ‹_›) h
      · cases h
    · cases h; exact hb

/-- Where a merge is always possible, the loop ends. -/
theorem mergeLoop_total {P : TreeBuild → Prop}
    (hstep : ∀ b, P b → 1 < b.pq.length → ∃ b', mergeStep b = .ok b' ∧ P b') :
    ∀ {fuel : Nat} {b : TreeBuild}, P b → ∃ b', mergeLoop fuel b = .ok b' ∧ P b'
  | 0, b, hb => ⟨b, rfl, hb⟩
  | fuel + 1, b, hb => by
    by_cases hlen : 1 < b.pq.length
    · obtain ⟨b1, h1, hb1⟩ := hstep b hb hlen
      obtain ⟨b', h', hb'⟩ := mergeLoop_total hstep (fuel := fuel) hb1
      exact ⟨b', by simp [mergeLoop, hlen, h1, h'], hb'⟩
    · exact ⟨b, by simp [mergeLoop, hlen], hb⟩

/-- With enough fuel the loop leaves at most one node in the queue (40_build.md R96). -/
theorem mergeLoop_ends : ∀ {fuel : Nat} {b b' : TreeBuild}, b.pq.length ≤ fuel → mergeLoop fuel b = .ok b' →
    b'.pq.length ≤ 1
  | 0, b, b', hlen, h => by simp [mergeLoop] at h; subst h; omega
  | fuel + 1, b, b', hlen, h => by
    simp only [mergeLoop] at h
    split at h
    · split at h
      · rename_i b1 h1
        have := (mergeStep_counts h1).1
        exact mergeLoop_ends (by omega) h
      · cases h
    · cases h; omega

/-- The loop never empties the queue. -/
theorem mergeLoop_nonempty {fuel : Nat} {b b' : TreeBuild} (hb : b.pq ≠ []) (h : mergeLoop fuel b = .ok b') :
    b'.pq ≠ [] :=
  mergeLoop_keeps (P := fun b => b.pq ≠ [])
    (fun b b' _ _ hs => by obtain ⟨lo, hi, pq1, pq2, el, eh, w, -, -, -, -, -, rfl⟩ := mergeStep_cases hs; simp) hb h

/-! ### Seeding -/

/-- The induction over the scan of `FREQ`, once. -/
theorem seedLeaves_keeps {P : TreeBuild → Prop} (freq : Table Count) (node : Table NodeEntry) (h0 : P ⟨node, [], 0⟩)
    (hstep : ∀ b sym, P b → freqAt freq sym ≠ 0#32 → P (seedSymbol freq b sym)) : P (seedLeaves freq node) := by
  unfold seedLeaves
  generalize allSymbols = l
  generalize (⟨node, [], 0⟩ : TreeBuild) = b at h0
  induction l generalizing b with
  | nil => exact h0
  | cons a rest ih =>
    refine ih _ ?_
    by_cases ha : freqAt freq a = 0#32
    · simpa [seedSymbol, ha] using h0
    · exact hstep b a h0 ha

theorem seedSymbol_of_ne {freq : Table Count} {sym : Symbol} (h : freqAt freq sym ≠ 0#32) (b : TreeBuild) :
    seedSymbol freq b sym =
      { node := tablePut b.node b.next (.leaf sym (freqAt freq sym))
        pq := b.pq ++ [BitVec.ofNat 9 b.next]
        next := b.next + 1 } := by
  simp [seedSymbol, h]

theorem seedSymbol_next (freq : Table Count) (b : TreeBuild) (sym : Symbol) :
    (seedSymbol freq b sym).next = b.next + (if freqAt freq sym = 0#32 then 0 else 1) := by
  unfold seedSymbol; split <;> simp [*]

/-- Seeding uses one index per symbol present (10_state.md R28). -/
theorem seedLeaves_next (freq : Table Count) (node : Table NodeEntry) :
    (seedLeaves freq node).next = (allSymbols.filter fun a => freqAt freq a ≠ 0#32).length := by
  unfold seedLeaves
  have : ∀ (l : List Symbol) (b : TreeBuild),
      (l.foldl (seedSymbol freq) b).next = b.next + (l.filter fun a => freqAt freq a ≠ 0#32).length := by
    intro l
    induction l with
    | nil => simp
    | cons a rest ih =>
      intro b
      rw [List.foldl_cons, ih, seedSymbol_next]
      by_cases ha : freqAt freq a = 0#32
      · simp [ha]
      · simp [ha]; omega
  simpa using this allSymbols ⟨node, [], 0⟩

theorem seedLeaves_next_le (freq : Table Count) (node : Table NodeEntry) : (seedLeaves freq node).next ≤ 256 := by
  rw [seedLeaves_next]
  exact (List.length_filter_le _ _).trans (by simp [allSymbols, Config.numSymbols])

/-- After seeding the queue holds as many nodes as there are leaves. -/
theorem seedLeaves_length (freq : Table Count) (node : Table NodeEntry) :
    (seedLeaves freq node).pq.length = (seedLeaves freq node).next :=
  seedLeaves_keeps (P := fun b => b.pq.length = b.next) freq node rfl
    (fun b sym hb hs => by simp [seedSymbol_of_ne hs, hb])

/-! ### The whole builder -/

/-- All `buildTree` can answer (40_build.md R93). -/
theorem buildTree_cases {freq : Table Count} {node : Table NodeEntry} {t : BuiltTree} (h : buildTree freq node = .ok t) :
    ∃ b root, mergeLoop (seedLeaves freq node).next (seedLeaves freq node) = .ok b ∧ b.pq = [root] ∧
      t = ⟨b.node, BitVec.ofNat 9 (seedLeaves freq node).next, BitVec.ofNat 9 b.next, root⟩ := by
  simp only [buildTree] at h
  split at h
  · cases h
  · rename_i b hb
    split at h
    · rename_i root hr
      cases h
      exact ⟨b, root, hb, hr, rfl⟩
    · cases h

/-- Merging n leaves makes n − 1 more nodes (00_scope.md R9, 40_build.md R96). -/
theorem buildTree_nodes {freq : Table Count} {node : Table NodeEntry} {b : TreeBuild} {root : NodeIdx}
    (h : mergeLoop (seedLeaves freq node).next (seedLeaves freq node) = .ok b) (hr : b.pq = [root]) :
    b.next + 1 = 2 * (seedLeaves freq node).next := by
  have := mergeLoop_keeps (P := fun b => b.next + b.pq.length = 2 * (seedLeaves freq node).next)
    (fun b b' hb _ hs => by have := mergeStep_counts hs; omega)
    (by have := seedLeaves_length freq node; omega) h
  simpa [hr] using this

/-- BUILD keeps `NODE` in canonical form: it writes indices 0 to 510 only (00_scope.md R9). -/
theorem buildTree_wf {freq : Table Count} {node : Table NodeEntry} {t : BuiltTree}
    (hn : tableWf Config.maxNodes node = true) (h : buildTree freq node = .ok t) :
    tableWf Config.maxNodes t.node = true := by
  obtain ⟨b, root, hb, -, rfl⟩ := buildTree_cases h
  have hle := seedLeaves_next_le freq node
  have hlen := seedLeaves_length freq node
  have hseed : tableWf Config.maxNodes (seedLeaves freq node).node = true := by
    have : ∀ (l : List Symbol) (b : TreeBuild), tableWf Config.maxNodes b.node = true → b.next + l.length ≤ 256 →
        tableWf Config.maxNodes (l.foldl (seedSymbol freq) b).node = true := by
      intro l
      induction l with
      | nil => exact fun b hb _ => hb
      | cons a rest ih =>
        intro b hb hl
        simp only [List.length_cons] at hl
        refine ih _ ?_ ?_
        · unfold seedSymbol
          split
          · exact hb
          · exact tableWf_put hb (by simp only [Config.maxNodes]; omega)
        · rw [seedSymbol_next]; split <;> omega
    exact this allSymbols _ hn (by simp [allSymbols, Config.numSymbols])
  exact (mergeLoop_keeps (P := fun b => tableWf Config.maxNodes b.node = true ∧ b.next + b.pq.length ≤ 512)
    (fun b b' hP h1 hs => by
      have hc := mergeStep_counts hs
      obtain ⟨lo, hi, pq1, pq2, el, eh, w, -, -, -, -, -, rfl⟩ := mergeStep_cases hs
      exact ⟨tableWf_put hP.1 (by simp only [Config.maxNodes]; omega), by omega⟩)
    ⟨hseed, by omega⟩ hb).1

theorem installTree_wf {s : State} {t : BuiltTree} (hs : s.mem.wf = true) (h : buildTree s.mem.freq s.mem.node = .ok t) :
    (installTree t s).mem.wf = true := by
  rw [Memory.wf_iff] at hs ⊢
  exact ⟨hs.1, buildTree_wf hs.2.1 h, hs.2.2⟩

end Sys2Proof.Machine
end

