-- ==== Sys2Proof/Laws/Derive.lean ====
section
/-! SUPPORT. What the code deriver can do: the induction over its walk packaged once, and the canonical form of `CODE`. -/

namespace Sys2Proof.Machine

theorem tableGet_clearedCode (i : Nat) : tableGet clearedCode i = if i < 256 then some invalidCode else none := by
  have : ∀ n k : Nat, tableGet ((List.range' k n).map fun i => (i, invalidCode)) i =
      if k ≤ i ∧ i < k + n then some invalidCode else none := by
    intro n
    induction n with
    | zero => intro k; simp [tableGet]
    | succ n ih =>
      intro k
      rw [List.range'_succ]
      simp only [List.map_cons, tableGet, ih]
      by_cases h : k = i
      · subst h; simp
      · simp only [h, if_false]; congr 1; apply propext; omega
  have h := this 256 0
  rw [← List.range_eq_range'] at h
  simpa [clearedCode, Config.numSymbols] using h

/-- Every entry of the cleared table holds no codeword (41_derive.md R110). -/
theorem codeAt_clearedCode (a : Symbol) : codeAt clearedCode a = some invalidCode := by
  have := a.isLt
  simp [codeAt, tableGet_clearedCode]; omega

theorem tableWf_clearedCode : tableWf Config.numSymbols clearedCode = true := by
  rw [tableWf_iff]
  have : clearedCode.map Prod.fst = List.range 256 := by simp [clearedCode, Config.numSymbols, Function.comp_def]
  refine ⟨?_, fun c hc => ?_⟩
  · rw [this]; exact List.pairwise_lt_range
  · have hm : c.1 ∈ clearedCode.map Prod.fst := List.mem_map_of_mem hc
    rw [this] at hm
    exact List.mem_range.1 hm

/-- The induction over the walk, once: what holds at its start and every turn keeps holds of the table it answers. -/
theorem deriveWalk_keeps {node : Table NodeEntry} {P : List StackEntry → Table CodeEntry → Prop}
    (hleaf : ∀ e stk code sym w, P (e :: stk) code → nodeAt node e.node = some (.leaf sym w) →
      P stk (tablePut code sym.toNat ⟨true, e.len, e.bits⟩))
    (hint : ∀ e stk code w left right len, P (e :: stk) code → nodeAt node e.node = some (.internal w left right) →
      nextLen e.len = some len →
      P (⟨left, len, appendDigit e.bits e.len false⟩ :: ⟨right, len, appendDigit e.bits e.len true⟩ :: stk) code) :
    ∀ {fuel : Nat} {stk : List StackEntry} {code code' : Table CodeEntry}, P stk code →
      deriveWalk node fuel stk code = .ok code' → P [] code'
  | fuel, [], code, code', hP, h => by
    rw [deriveWalk] at h; cases h; exact hP
  | 0, e :: stk, code, code', hP, h => by simp [deriveWalk] at h
  | fuel + 1, e :: stk, code, code', hP, h => by
    rw [deriveWalk] at h
    split at h
    · cases h
    · exact deriveWalk_keeps hleaf hint (hleaf _ _ _ _ _ hP ‹_›) h
    · split at h
      · cases h
      · exact deriveWalk_keeps hleaf hint (hint _ _ _ _ _ _ _ hP ‹_› ‹_›) h

/-- DERIVE writes `CODE` in canonical form, with an entry for every symbol (41_derive.md R115). -/
theorem deriveCodes_wf {node : Table NodeEntry} {root : NodeIdx} {code : Table CodeEntry}
    (h : deriveCodes node root = .ok code) :
    tableWf Config.numSymbols code = true ∧ ∀ a, ∃ e, codeAt code a = some e := by
  have hput : ∀ (c : Table CodeEntry) (a : Symbol) (e : CodeEntry),
      (tableWf Config.numSymbols c = true ∧ ∀ a, ∃ e, codeAt c a = some e) →
      (tableWf Config.numSymbols (tablePut c a.toNat e) = true ∧ ∀ b, ∃ e', codeAt (tablePut c a.toNat e) b = some e') := by
    intro c a e hc
    refine ⟨tableWf_put hc.1 a.isLt, fun b => ?_⟩
    rw [codeAt_put]
    split
    · exact ⟨e, rfl⟩
    · exact hc.2 b
  have h0 : tableWf Config.numSymbols clearedCode = true ∧ ∀ a, ∃ e, codeAt clearedCode a = some e :=
    ⟨tableWf_clearedCode, fun a => ⟨_, codeAt_clearedCode a⟩⟩
  unfold deriveCodes at h
  split at h
  · cases h
  · cases h; exact hput _ _ _ h0
  · exact deriveWalk_keeps
      (P := fun _ c => tableWf Config.numSymbols c = true ∧ ∀ a, ∃ e, codeAt c a = some e)
      (fun _ _ c a _ hP _ => hput c a _ hP) (fun _ _ _ _ _ _ _ hP _ _ => hP) h0 h

theorem installCode_wf {s : State} {code : Table CodeEntry} (hs : s.mem.wf = true)
    (h : deriveCodes s.mem.node s.root = .ok code) : (installCode code s).mem.wf = true := by
  rw [Memory.wf_iff] at hs ⊢
  exact ⟨hs.1, hs.2.1, (deriveCodes_wf h).1, hs.2.2.2⟩

end Sys2Proof.Machine
end

