-- ==== Sys2Proof/Laws/Exec.lean ====
section
/-! SUPPORT. Said once: what a command can do when it answers a next state. Either it raises an error, and the state is that
of 60_exceptions.md R174, or it has the effect its rule gives it, under the conditions its rule names. -/

namespace Sys2Proof.Machine

/-- The effect of a command that succeeds, by its rule. -/
inductive Effect (s : State) : Instr → State → Prop where
  | nop : Effect s .nop (respond 0#264 s)
  | clr : Effect s .clr (respond 0#264 (clearCore s))
  | sym (a : Symbol) (count total : Count) (mode : s.mode = .idle) (tv : s.tv = false)
      (room : s.total.toNat ≠ Config.maxCount) (hcount : count.toNat = (readFreq s a).toNat + 1)
      (htotal : total.toNat = s.total.toNat + 1) :
      Effect s (.sym a) (respond 0#264 { writeFreq s a count with total := total })
  | build (t : BuiltTree) (mode : s.mode = .idle) (tv : s.tv = false) (some : s.total ≠ 0#32)
      (tree : buildTree s.mem.freq s.mem.node = .ok t) : Effect s .build (respond (payload t.root) (installTree t s))
  | derive (code : Table CodeEntry) (mode : s.mode = .idle) (tv : s.tv = true) (cv : s.cv = false)
      (table : deriveCodes s.mem.node s.root = .ok code) : Effect s .derive (respond 0#264 (installCode code s))
  | encbeg (mode : s.mode = .idle) (cv : s.cv = true) : Effect s .encbeg (respond 0#264 { s with mode := .enc })
  | enc (a : Symbol) (e : CodeEntry) (mode : s.mode = .enc) (entry : readCode s a = some e) (valid : e.valid = true) :
      Effect s (.enc a) (respond (codeWord e) s)
  | encend (mode : s.mode = .enc) : Effect s .encend (respond 0#264 { s with mode := .idle })
  | decbeg (mode : s.mode = .idle) (tv : s.tv = true) :
      Effect s .decbeg (respond 0#264 { s with ptr := s.root, mode := .dec })
  | dbitSingle (b : Bool) (a : Symbol) (w : Count) (mode : s.mode = .dec) (root : readNode s s.root = some (.leaf a w)) :
      Effect s (.dbit b) (respond (payload (emitWord a)) s)
  | dbitEmit (b : Bool) (a : Symbol) (w wr wp : Count) (rl rr l r : NodeIdx) (mode : s.mode = .dec)
      (root : readNode s s.root = some (.internal wr rl rr)) (ptr : readNode s s.ptr = some (.internal wp l r))
      (next : readNode s (childOf b l r) = some (.leaf a w)) :
      Effect s (.dbit b) (respond (payload (emitWord a)) { s with ptr := s.root })
  | dbitMove (b : Bool) (w wr wp : Count) (rl rr l r l' r' : NodeIdx) (mode : s.mode = .dec)
      (root : readNode s s.root = some (.internal wr rl rr)) (ptr : readNode s s.ptr = some (.internal wp l r))
      (next : readNode s (childOf b l r) = some (.internal w l' r')) :
      Effect s (.dbit b) (respond 0#264 { s with ptr := childOf b l r })
  | decend (mode : s.mode = .dec) (ptr : s.ptr = s.root) : Effect s .decend (respond 0#264 { s with mode := .idle })
  | rdreg (r : RegNum) (v : BitVec 32) (value : registerValue s r = some v) : Effect s (.rdreg r) (respond (payload v) s)
  | rdfreq (a : Symbol) : Effect s (.rdfreq a) (respond (payload (readFreq s a)) s)
  | rdnode (i : NodeIdx) (e : NodeEntry) (tv : s.tv = true) (range : i.toNat < s.nnodes.toNat)
      (entry : readNode s i = some e) : Effect s (.rdnode i) (respond (payload (nodeWord e)) s)
  | rdcode (a : Symbol) (e : CodeEntry) (cv : s.cv = true) (entry : readCode s a = some e) :
      Effect s (.rdcode a) (respond (codeWord e) s)

variable {s t : State}

/-- All a command can do. -/
theorem exec_cases {i : Instr} (h : exec i s = .next t) :
    (∃ e v, t = raiseError e v s) ∨ Effect s i t := by
  have raised : ∀ {e : ErrorCode} {v : Info}, t = raiseError e v s → (∃ e v, t = raiseError e v s) ∨ Effect s i t :=
    fun h => .inl ⟨_, _, h⟩
  cases i with
  | nop => simp only [exec, execNop, succeed_next] at h; exact .inr (h ▸ .nop)
  | clr => simp only [exec, execClr, succeed_next] at h; exact .inr (h ▸ .clr)
  | sym a =>
    simp only [exec, execSym] at h
    split at h
    · rename_i hl
      split at h
      · exact raised ((abort_next ..).1 h)
      · rename_i hr
        split at h
        · rename_i c n hc hn
          exact .inr ((succeed_next ..).1 h ▸
            .sym a c n hl.1 hl.2 hr (addExact_eq_some.1 hc) (addExact_eq_some.1 hn))
        · cases h
    · exact raised ((abortSeq_next ..).1 h)
  | build =>
    simp only [exec, execBuild] at h
    split at h
    · rename_i hl
      split at h
      · exact raised ((abort_next ..).1 h)
      · split at h
        · exact .inr ((succeed_next ..).1 h ▸ .build _ hl.1 hl.2 ‹_› ‹_›)
        · cases h
    · exact raised ((abortSeq_next ..).1 h)
  | derive =>
    simp only [exec, execDerive] at h
    split at h
    · rename_i hl
      split at h
      · exact .inr ((succeed_next ..).1 h ▸ .derive _ hl.1 hl.2.1 hl.2.2 ‹_›)
      · cases h
    · exact raised ((abortSeq_next ..).1 h)
  | encbeg =>
    simp only [exec, execEncbeg] at h
    split at h
    · rename_i hl; exact .inr ((succeed_next ..).1 h ▸ .encbeg hl.1 hl.2)
    · exact raised ((abortSeq_next ..).1 h)
  | enc a =>
    simp only [exec, execEnc] at h
    split at h
    · split at h
      · cases h
      · split at h
        · exact raised ((abort_next ..).1 h)
        · rename_i hv
          exact .inr ((succeed_next ..).1 h ▸ .enc a _ ‹_› ‹_› (by simpa using hv))
    · exact raised ((abortSeq_next ..).1 h)
  | encend =>
    simp only [exec, execEncend] at h
    split at h
    · exact .inr ((succeed_next ..).1 h ▸ .encend ‹_›)
    · exact raised ((abortSeq_next ..).1 h)
  | decbeg =>
    simp only [exec, execDecbeg] at h
    split at h
    · rename_i hl; exact .inr ((succeed_next ..).1 h ▸ .decbeg hl.1 hl.2)
    · exact raised ((abortSeq_next ..).1 h)
  | dbit b =>
    simp only [exec, execDbit] at h
    split at h
    · split at h
      · cases h
      · exact .inr ((succeed_next ..).1 h ▸ .dbitSingle b _ _ ‹_› ‹_›)
      · split at h
        · cases h
        · cases h
        · unfold decodeMove at h
          split at h
          · cases h
          · exact .inr ((succeed_next ..).1 h ▸ .dbitEmit b _ _ _ _ _ _ _ _ ‹_› ‹_› ‹_› ‹_›)
          · exact .inr ((succeed_next ..).1 h ▸ .dbitMove b _ _ _ _ _ _ _ _ _ ‹_› ‹_› ‹_› ‹_›)
    · exact raised ((abortSeq_next ..).1 h)
  | decend =>
    simp only [exec, execDecend] at h
    split at h
    · split at h
      · exact raised ((abort_next ..).1 h)
      · rename_i hp; exact .inr ((succeed_next ..).1 h ▸ .decend ‹_› (by simpa using hp))
    · exact raised ((abortSeq_next ..).1 h)
  | rdreg r =>
    simp only [exec, execRdreg] at h
    split at h
    · exact .inr ((succeed_next ..).1 h ▸ .rdreg r _ ‹_›)
    · exact raised ((abort_next ..).1 h)
  | rdfreq a => simp only [exec, execRdfreq, succeed_next] at h; exact .inr (h ▸ .rdfreq a)
  | rdnode i =>
    simp only [exec, execRdnode] at h
    split at h
    · split at h
      · exact raised ((abort_next ..).1 h)
      · split at h
        · exact .inr ((succeed_next ..).1 h ▸ .rdnode i _ ‹_› (by omega) ‹_›)
        · cases h
    · exact raised ((abortSeq_next ..).1 h)
  | rdcode a =>
    simp only [exec, execRdcode] at h
    split at h
    · split at h
      · exact .inr ((succeed_next ..).1 h ▸ .rdcode a _ ‹_› ‹_›)
      · cases h
    · exact raised ((abortSeq_next ..).1 h)
  | reservedF rest => exact raised ((abort_next ..).1 h)

/-- A refused word raises, like the reserved opcode (30_encoding.md R75). -/
theorem runWord_cases {w : CmdWord} (h : runWord w s = .next t) :
    (∃ i, decode w = .ok i ∧ exec i s = .next t) ∨
      ((∃ r, decode w = .error r) ∧ t = raiseError .illegal ((opcodeOf w).setWidth 9) s) := by
  unfold runWord at h
  split at h
  · exact .inl ⟨_, ‹_›, h⟩
  · exact .inr ⟨⟨_, ‹_›⟩, (abort_next ..).1 h⟩

/-- All a step can do: nothing, one command word, one response taken, or reset. -/
theorem step_cases (h : step s = .next t) :
    t = s ∨
      (∃ w rest, s.host = .send w :: rest ∧ s.rsp = none ∧ runWord w { s with host := rest } = .next t) ∨
      (∃ rest, s.host = .take :: rest ∧ s.rsp.isSome ∧ t = { s with host := rest, rsp := none }) ∨
      (∃ rest, s.host = .reset :: rest ∧ t = { State.reset with host := rest }) := by
  unfold step hostStep at h
  split at h
  · cases h; exact .inl rfl
  · rename_i w rest hh
    split at h
    · rename_i hr; exact .inr (.inl ⟨w, rest, hh, by simpa [cmdReady] using hr, h⟩)
    · cases h; exact .inl rfl
  · rename_i rest hh
    split at h
    · rename_i hr; cases h; exact .inr (.inr (.inl ⟨rest, hh, hr, rfl⟩))
    · cases h; exact .inl rfl
  · rename_i rest hh
    cases h; exact .inr (.inr (.inr ⟨rest, hh, rfl⟩))

end Sys2Proof.Machine
end

