-- ==== Sys2Proof/Laws/Numbers.lean ====
section
/-! SUPPORT. The packed words of the machine as the numbers of the spec: the layouts of 30_encoding.md R80 to R83 and
10_state.md R32, R37 hold bit for bit. -/

namespace Sys2Proof.Machine

/-- The number a bit vector before another makes with it. -/
theorem toNat_append_eq {m n : Nat} (x : BitVec m) (y : BitVec n) : (x ++ y).toNat = x.toNat * 2 ^ n + y.toNat := by
  rw [BitVec.toNat_append, ← Nat.shiftLeft_add_eq_or_of_lt y.isLt, Nat.shiftLeft_eq]

/-- The error path in the spec's numbers (60_exceptions.md R174). -/
theorem raiseError_eq_erred (s : State) (e : ErrorCode) (v : Info) :
    raiseError e v s = erred s (errorNumber e).toNat v.toNat := by
  have hinfo : errInfoWord e v = BitVec.ofNat 13 (v.toNat * 16 + (errorNumber e).toNat) := by
    apply BitVec.eq_of_toNat_eq
    have h1 := v.isLt
    have h2 := (errorNumber e).isLt
    rw [errInfoWord, toNat_append_eq, BitVec.toNat_ofNat]
    omega
  unfold raiseError erred
  rw [hinfo]
  congr 1
  · cases e <;> simp [setErrFlag, errorNumber]
  · simp

/-- An OK response in the spec's numbers (30_encoding.md R78). -/
theorem respond_eq_answered (s : State) {d : RspData} {v : Nat} (h : d.toNat = v) : respond d s = answered s v := by
  subst h; simp [respond, answered]

/-- A payload no wider than `rsp_data` keeps its value (R78). -/
theorem toNat_payload {w : Nat} (v : BitVec w) (h : w ≤ 264) : (payload v).toNat = v.toNat := by
  rw [payload, BitVec.toNat_setWidth]
  exact Nat.mod_eq_of_lt (lt_of_lt_of_le v.isLt (Nat.pow_le_pow_right (by decide) h))

/-- R80. -/
theorem toNat_nodeWord (e : NodeEntry) : (nodeWord e).toNat = nodeNumber e := by
  cases e <;> simp only [nodeWord, nodeNumber, toNat_append_eq] <;> simp <;> omega

/-- R81. -/
theorem toNat_codeWord (e : CodeEntry) : (codeWord e).toNat = codeNumber e := by
  obtain ⟨v, l, b⟩ := e
  simp only [codeWord, codeNumber, toNat_append_eq]
  cases v <;> simp <;> omega

/-- R82. -/
theorem toNat_emitWord (a : Symbol) : (emitWord a).toNat = 2 * a.toNat + 1 := by
  rw [emitWord, toNat_append_eq]; simp; omega

/-- R37. -/
theorem toNat_statusWord (s : State) : (statusWord s).toNat = statusNumber s := by
  have hs : single s = (s.tv && s.nleaf.toNat == 1) := by
    unfold single; congr 1; rw [Bool.eq_iff_iff]; simp [← BitVec.toNat_inj]
  have hm : (modeBits s.mode).toNat = modeNumber s.mode := by cases s.mode <;> rfl
  simp only [statusWord, statusNumber, toNat_append_eq, hs, hm]
  simp; omega

end Sys2Proof.Machine
end

