-- ==== Sys2Proof/Laws/PerInstr.lean ====
section
/-! SUPPORT. Statements for all instructions, made per instruction. Family `EncodedOpcode`: the word of an instruction
carries its opcode in `[15:12]` (30_encoding.md R71), which is the info value `E_SEQ` records (60_exceptions.md R172). -/

namespace Sys2Proof.Laws.EncodedOpcode

/-- The opcode field of the instruction's word is the instruction's opcode. -/
def Statement (i : Instr) : Prop := opcodeOf (encode i) = instrOpcode i

/-- The field `[15:12]` of four bits followed by twelve. -/
theorem extract_high (a : BitVec 4) (b : BitVec 12) : (a ++ b : CmdWord).extractLsb' 12 4 = a := by
  apply BitVec.eq_of_getLsbD_eq
  intro k hk
  simp only [BitVec.getLsbD_extractLsb', BitVec.getLsbD_append]
  simp [hk]

theorem holds (i : Instr) : Statement i := extract_high _ _

theorem nop : Statement .nop := holds _
theorem clr : Statement .clr := holds _
theorem sym (s : Symbol) : Statement (.sym s) := holds _
theorem build : Statement .build := holds _
theorem derive : Statement .derive := holds _
theorem encbeg : Statement .encbeg := holds _
theorem enc (s : Symbol) : Statement (.enc s) := holds _
theorem encend : Statement .encend := holds _
theorem decbeg : Statement .decbeg := holds _
theorem dbit (b : Bool) : Statement (.dbit b) := holds _
theorem decend : Statement .decend := holds _
theorem rdreg (r : RegNum) : Statement (.rdreg r) := holds _
theorem rdfreq (s : Symbol) : Statement (.rdfreq s) := holds _
theorem rdnode (i : NodeIdx) : Statement (.rdnode i) := holds _
theorem rdcode (s : Symbol) : Statement (.rdcode s) := holds _
theorem reservedF (rest : BitVec 12) : Statement (.reservedF rest) := holds _

end Sys2Proof.Laws.EncodedOpcode
end

