-- ==== Sys2Proof/Tests/Slice0.lean ====
section
/-! SUPPORT. Tests: the spec's words and worked examples (30_encoding.md, 95_test_vectors.md), the well-formedness checks
against ill-formed terms, and a witness for the hypotheses of every obligation that has some. -/

namespace Sys2Proof.Tests

open Sys2Proof.Machine

/-! ### Helpers -/

/-- The state a result leaves. -/
def stateOf : Result → Option State
  | .next t => some t
  | _ => none

/-- The response a result leaves, as (code, data). -/
def answer (r : Result) : Option (Nat × Nat) :=
  match stateOf r with
  | some t => t.rsp.map fun x => (x.err.toNat, x.data.toNat)
  | none => none

/-- A number read off the state a result leaves. -/
def after (r : Result) (f : State → Nat) : Option Nat := (stateOf r).map f

/-- COLLECT with the counts of a list of (symbol, count), and their total. -/
def collect (counts : Table Count) : State :=
  { State.reset with total := BitVec.ofNat 32 (freqSum counts), mem := ⟨counts, [], []⟩ }

/-- The counts of "ab" and "abc". -/
def abFreq : Table Count := [(0x61, 1#32), (0x62, 1#32)]

def abcFreq : Table Count := [(0x61, 1#32), (0x62, 1#32), (0x63, 1#32)]

/-- TREE with the tree of "ab" (95_test_vectors.md V2). -/
def abTree : State :=
  { collect abFreq with
    tv := true, nleaf := 2#9, nnodes := 3#9, root := 2#9
    mem := ⟨abFreq, [(0, .leaf 0x61#8 1#32), (1, .leaf 0x62#8 1#32), (2, .internal 2#32 0#9 1#9)], []⟩ }

/-- The code table of "ab" (V2). -/
def abCode : Table CodeEntry :=
  tablePut (tablePut clearedCode (0x61#8).toNat ⟨true, 1#8, 0#255⟩) (0x62#8).toNat ⟨true, 1#8, 1#255⟩

/-- READY, ENC or DEC1 with the tree and table of "ab", the pointer at the root. -/
def abReady (m : Mode) : State :=
  { abTree with cv := true, mode := m, ptr := 2#9, mem := { abTree.mem with code := abCode } }

/-- A state with the tree of "abc" (V11). -/
def abcTree (m : Mode) (p : NodeIdx) : State :=
  { collect abcFreq with
    tv := true, nleaf := 3#9, nnodes := 5#9, root := 4#9, mode := m, ptr := p
    mem := ⟨abcFreq, [(0, .leaf 0x61#8 1#32), (1, .leaf 0x62#8 1#32), (2, .leaf 0x63#8 1#32),
      (3, .internal 2#32 0#9 1#9), (4, .internal 3#32 2#9 3#9)], []⟩ }

/-- A state with the single leaf of "aaaa" (V1). -/
def aaaaTree (m : Mode) : State :=
  { collect [(0x61, 4#32)] with
    tv := true, nleaf := 1#9, nnodes := 1#9, mode := m, mem := ⟨[(0x61, 4#32)], [(0, .leaf 0x61#8 4#32)], []⟩ }

/-- `TOTAL = W_MAX`, all of it 'a' (table 2.3). -/
def full : State := collect [(0x61, 4294967295#32)]

/-! ### Words, bit by bit from R71 to R74: opcode, three zero bits, operand -/

theorem test_decode_nop : decode 0b0000000000000000#16 = .ok .nop := by decide
theorem test_decode_clr : decode 0b0001000000000000#16 = .ok .clr := by decide
theorem test_decode_sym : decode 0b0010000001100001#16 = .ok (.sym 0x61#8) := by decide
theorem test_decode_build : decode 0b0011000000000000#16 = .ok .build := by decide
theorem test_decode_derive : decode 0b0100000000000000#16 = .ok .derive := by decide
theorem test_decode_encbeg : decode 0b0101000000000000#16 = .ok .encbeg := by decide
theorem test_decode_enc : decode 0b0110000001100010#16 = .ok (.enc 0x62#8) := by decide
theorem test_decode_encend : decode 0b0111000000000000#16 = .ok .encend := by decide
theorem test_decode_decbeg : decode 0b1000000000000000#16 = .ok .decbeg := by decide
theorem test_decode_dbit : decode 0b1001000000000001#16 = .ok (.dbit true) := by decide
theorem test_decode_decend : decode 0b1010000000000000#16 = .ok .decend := by decide
theorem test_decode_rdreg : decode 0b1011000000001001#16 = .ok (.rdreg 9#4) := by decide
theorem test_decode_rdfreq : decode 0b1100000011111111#16 = .ok (.rdfreq 0xFF#8) := by decide
theorem test_decode_rdnode : decode 0b1101000111111111#16 = .ok (.rdnode 511#9) := by decide
theorem test_decode_rdcode : decode 0b1110000001100001#16 = .ok (.rdcode 0x61#8) := by decide
theorem test_decode_reserved : decode 0b1111111111111111#16 = .ok (.reservedF 0xFFF#12) := by decide

/-! ### Ill-formed terms, one for each check (R72, R75; tables 2.3, 2.6, 2.7) -/

theorem test_reserved_is_no_command : instrWellFormed (.reservedF 0#12) = false := by decide
theorem test_reserved_bits : wordWellFormed 0x0E00#16 = false ∧ decode 0x0E00#16 = .error .reservedBits := by decide
theorem test_zero_bits_N : wordWellFormed 0x0001#16 = false ∧ decode 0x0001#16 = .error .operandBits := by decide
theorem test_zero_bits_S : wordWellFormed 0x2161#16 = false ∧ decode 0x2161#16 = .error .operandBits := by decide
theorem test_zero_bits_B : wordWellFormed 0x9002#16 = false ∧ decode 0x9002#16 = .error .operandBits := by decide
theorem test_zero_bits_I : wordWellFormed 0xD200#16 = false ∧ decode 0xD200#16 = .error .reservedBits := by decide
theorem test_zero_bits_R : wordWellFormed 0xB010#16 = false ∧ decode 0xB010#16 = .error .operandBits := by decide
theorem test_opcode_15 : wordWellFormed 0xF000#16 = false := by decide

/-! ### The parameters (R8) -/

theorem test_parameters : Config.numSymbols = 2 ^ Config.symW ∧ Config.maxNodes = 2 * Config.numSymbols - 1 ∧
    Config.maxDigits = Config.numSymbols - 1 ∧ Config.maxCount = 2 ^ Config.weightW - 1 ∧
    Config.configWord = BitVec.ofNat 16 (Config.weightW * 256 + Config.symW) := by decide

/-! ### The host's table check -/

theorem test_table_word : decodeTableWord 16 0xD004 = some (.rdnode 4#9) ∧ decodeTableWord 16 0x0001 = none := by decide
theorem test_fetch_word : answer (step (State.reset.withFetchWord 16 0xB007)) = some (0, 0x2008) := by decide
theorem test_fetch_illegal : answer (step (State.reset.withFetchWord 16 0x1001)) = some (5, 0) := by decide

/-! ### The commands, expected values from the rules' examples and 95_test_vectors.md -/

/-- R140. -/
theorem test_nop : answer (exec .nop (abReady .enc)) = some (0, 0) ∧
    after (exec .nop (abReady .enc)) statusNumber = some 0x000D := by decide +kernel

/-- R91's example: `TV = 1`, `TOTAL = 11`, `ERRFLAGS = 0b0000100`. -/
theorem test_clr : after (exec .clr { abTree with total := 11#32, errflags := 0b0000100#7 }) statusNumber = some 0 ∧
    after (exec .clr { abTree with total := 11#32, errflags := 0b0000100#7 })
      (fun t => t.total.toNat + (readFreq t 0x61#8).toNat) = some 0 := by decide

/-- Table 2.3, row 2. -/
theorem test_sym : after (exec (.sym 0xFF#8) State.reset) (fun t => (readFreq t 0xFF#8).toNat) = some 1 ∧
    after (exec (.sym 0xFF#8) State.reset) (fun t => t.total.toNat) = some 1 := by decide

/-- Table 2.3, row 4. -/
theorem test_sym_overflow : answer (exec (.sym 0x62#8) full) = some (6, 0) ∧
    after (exec (.sym 0x62#8) full) (fun t => t.errinfo.toNat) = some 0x626 := by decide +kernel

/-- V10 "aabc": the leaf before the internal node of equal weight. -/
theorem test_build_tie : answer (exec .build (collect [(0x61, 2#32), (0x62, 1#32), (0x63, 1#32)])) = some (0, 4) ∧
    after (exec .build (collect [(0x61, 2#32), (0x62, 1#32), (0x63, 1#32)]))
      (fun t => ((readNode t 4#9).map nodeNumber).getD 0) = some 0x4000000100003 := by decide +kernel

/-- V16 "abbcccc": an internal node as left child. -/
theorem test_build_left : after (exec .build (collect [(0x61, 1#32), (0x62, 2#32), (0x63, 4#32)]))
    (fun t => ((readNode t 4#9).map nodeNumber).getD 0) = some 0x40000001C0602 := by decide +kernel

/-- V2: `CODE['a']` = 0x3, `CODE['b']` = 0x203. -/
theorem test_derive : after (exec .derive abTree) (fun t => ((readCode t 0x61#8).map codeNumber).getD 0) = some 0x3 ∧
    after (exec .derive abTree) (fun t => ((readCode t 0x62#8).map codeNumber).getD 0) = some 0x203 := by decide +kernel

/-- V1: the single leaf's codeword is `"0"`. -/
theorem test_derive_single :
    after (exec .derive (aaaaTree .idle)) (fun t => ((readCode t 0x61#8).map codeNumber).getD 0) = some 0x3 := by
  decide +kernel

/-- P2, step 8. -/
theorem test_encbeg : after (exec .encbeg (abReady .idle)) statusNumber = some 0x000D := by decide +kernel

/-- P2, step 10; table 2.5, row 4. -/
theorem test_enc : answer (exec (.enc 0x62#8) (abReady .enc)) = some (0, 0x203) ∧
    after (exec (.enc 0x7A#8) (abReady .enc)) (fun t => t.errinfo.toNat) = some 0x7A2 := by decide +kernel

/-- P2, step 11; table 2.5, last row. -/
theorem test_encend : after (exec .encend (abReady .enc)) statusNumber = some 0x000C ∧
    after (exec .encend (abReady .dec)) (fun t => t.errinfo.toNat) = some 0x074 := by decide +kernel

/-- R130's example. -/
theorem test_decbeg : after (exec .decbeg (abcTree .idle 0#9)) statusNumber = some 0x0006 ∧
    after (exec .decbeg (abcTree .idle 0#9)) (fun t => t.ptr.toNat) = some 4 := by decide +kernel

/-- R131's example, first bit: digit 1 is right. -/
theorem test_dbit_move : answer (exec (.dbit true) (abcTree .dec 4#9)) = some (0, 0) ∧
    after (exec (.dbit true) (abcTree .dec 4#9)) (fun t => t.ptr.toNat) = some 3 := by decide +kernel

/-- R131's example, second bit: digit 0 is left, and the leaf emits. -/
theorem test_dbit_emit : answer (exec (.dbit false) (abcTree .dec 3#9)) = some (0, 0x0C3) ∧
    after (exec (.dbit false) (abcTree .dec 3#9)) (fun t => t.ptr.toNat) = some 4 := by decide +kernel

/-- R132's example. -/
theorem test_decend : after (exec .decend (abcTree .dec 3#9)) (fun t => t.errinfo.toNat) = some 0x033 ∧
    after (exec .decend (abcTree .dec 3#9)) statusNumber = some 0x0404 := by decide +kernel

/-- Table 2.7, rows 2 and 4. -/
theorem test_rdreg : answer (exec (.rdreg 7#4) State.reset) = some (0, 0x2008) ∧
    after (exec (.rdreg 15#4) State.reset) (fun t => t.errinfo.toNat) = some 0x0F7 := by decide +kernel

/-- R142's example. -/
theorem test_rdfreq : answer (exec (.rdfreq 0x61#8) (aaaaTree .idle)) = some (0, 4) ∧
    answer (exec (.rdfreq 0x62#8) (aaaaTree .idle)) = some (0, 0) := by decide +kernel

/-- Table 2.7: `RDNODE 2` and `RDNODE 511` with the tree of V2. -/
theorem test_rdnode : answer (exec (.rdnode 2#9) abTree) = some (0, 0x4000000080001) ∧
    after (exec (.rdnode 511#9) abTree) (fun t => t.errinfo.toNat) = some 0x1FF7 := by decide +kernel

/-- R144's example. -/
theorem test_rdcode : answer (exec (.rdcode 0x62#8) (abReady .idle)) = some (0, 0x203) ∧
    answer (exec (.rdcode 0x63#8) (abReady .idle)) = some (0, 0) := by decide +kernel

/-- P5, step 17: the reserved opcode; table 2.8, first row: the illegal word comes before the sequence check. -/
theorem test_illegal : after (exec (.reservedF 0#12) abTree) (fun t => t.errinfo.toNat) = some 0x0F5 ∧
    after (runWord 0x2161#16 abTree) (fun t => t.errinfo.toNat) = some 0x025 := by decide +kernel

/-! ### Witnesses: the invariants of the machine hold of states with a tree, a table and an open transaction -/

theorem abFreq_read : ∀ a : Symbol, freqAt abFreq a = if a = 0x61#8 ∨ a = 0x62#8 then 1#32 else 0#32 := by decide +kernel

theorem abTree_ok : TreeOk abFreq abTree.mem.node 2 3 where
  leaves i hi := by
    interval_cases i
    · exact ⟨0x61#8, by decide⟩
    · exact ⟨0x62#8, by decide⟩
  ascending i j a b wa wb hij hj ha hb := by
    obtain ⟨rfl, rfl⟩ : i = 0 ∧ j = 1 := by omega
    have h0 : tableGet abTree.mem.node 0 = some (.leaf 0x61#8 1#32) := rfl
    have h1 : tableGet abTree.mem.node 1 = some (.leaf 0x62#8 1#32) := rfl
    rw [h0] at ha; rw [h1] at hb
    cases ha; cases hb; decide
  present a ha := by
    rw [abFreq_read] at ha ⊢
    split at ha
    · rename_i h
      rcases h with rfl | rfl
      · exact ⟨0, by decide⟩
      · exact ⟨1, by decide⟩
    · exact absurd rfl ha
  internals k hk hk' := by
    obtain rfl : k = 2 := by omega
    exact ⟨2#32, 0#9, 1#9, .leaf 0x61#8 1#32, .leaf 0x62#8 1#32, by decide⟩
  oneParent i hi := by
    have : i < 2 := by omega
    interval_cases i <;> decide
  rootFree := by decide

theorem abCode_read (a : Symbol) : codeAt abCode a =
    if a = 0x62#8 then some ⟨true, 1#8, 1#255⟩ else if a = 0x61#8 then some ⟨true, 1#8, 0#255⟩ else some invalidCode := by
  unfold abCode; rw [codeAt_put, codeAt_put, codeAt_clearedCode]

theorem abCode_ok : CodeOk abFreq abTree.mem.node 2#9 abCode := by
  have hroot : nodeAt abTree.mem.node 2#9 = some (.internal 2#32 0#9 1#9) := rfl
  have noLeaf : ¬ ∃ s w, nodeAt abTree.mem.node 2#9 = some (.leaf s w) := by rw [hroot]; simp
  intro a
  rw [abCode_read]
  by_cases hb : a = 0x62#8
  · subst hb
    refine ⟨_, rfl, by decide, by simp, fun k hk => ?_, fun _ h => absurd h noLeaf, fun _ _ => ⟨1#9, 1#32, by decide⟩⟩
    have : k ≠ 0 := by rintro rfl; simp at hk
    rw [show (1#255) = BitVec.ofNat 255 1 from rfl, BitVec.getLsbD_one]; simp [this]
  · by_cases ha : a = 0x61#8
    · subst ha
      exact ⟨_, rfl, by decide, by simp, fun k _ => by simp, fun _ h => absurd h noLeaf, fun _ _ => ⟨0#9, 1#32, by decide⟩⟩
    · refine ⟨invalidCode, by simp [ha, hb], ?_, fun _ => rfl, fun k _ => by simp [invalidCode],
        fun h => by simp [invalidCode] at h, fun h => by simp [invalidCode] at h⟩
      rw [abFreq_read]; simp [ha, hb, invalidCode]

/-- The state with the tree and table of "ab" meets the invariants in each of the three modes. -/
theorem abReady_inv (m : Mode) : Inv (abReady m) where
  mem := by show Memory.wf ⟨abFreq, abTree.mem.node, abCode⟩ = true; decide +kernel
  registers := ⟨fun _ => rfl, fun _ => rfl, fun _ => rfl, fun h => (by cases h), fun _ => by
      show 1 ≤ 2 ∧ 2 ≤ 256 ∧ 3 = 2 * 2 - 1 ∧ 2 = 3 - 1 ∧ 1 ≤ (collect abFreq).total.toNat
      decide +kernel⟩
  sum := by show (collect abFreq).total.toNat = freqSum abFreq; decide +kernel
  tree _ := abTree_ok
  rootWeight _ := ⟨.internal 2#32 0#9 1#9, rfl, by show 2#32 = (collect abFreq).total; decide +kernel⟩
  code _ := abCode_ok
  pointer := ⟨fun _ _ => ⟨by show 2 < 3; decide, 2#32, 0#9, 1#9, rfl⟩, fun _ h => (by cases h)⟩
  errors := ⟨fun _ => rfl, .inl rfl⟩
  response r h := by cases h
  queue := rfl
  stack := rfl

/-- Such a state with a word to take: the hypotheses of the step invariants (also RegistersOk's and the canonical form's). -/
theorem witness_step_invariants : ∃ s t, Inv s ∧ RegistersOk s ∧ s.mem.wf = true ∧ step s = .next t ∧ t.mode = .dec := by
  let s : State := { abReady .idle with host := [.send 0x8000#16] }
  have h : Inv s := by
    have h := abReady_inv .idle
    exact ⟨h.mem, ⟨h.registers.1, h.registers.2, h.registers.3, h.registers.4, h.registers.5⟩, h.sum, h.tree, h.rootWeight,
      h.code, ⟨h.pointer.1, h.pointer.2⟩, ⟨h.errors.1, h.errors.2⟩, h.response, h.queue, h.stack⟩
  exact ⟨s, _, h, h.registers, h.mem, rfl, rfl⟩

/-- StepNeverStops, CodewordsArePrefixFree, EveryBitHasAMove. -/
theorem witness_ready : Inv (abReady .dec) ∧ (abReady .dec).cv = true ∧ (abReady .dec).mode = .dec :=
  ⟨abReady_inv .dec, rfl, rfl⟩

theorem abcFreq_read : ∀ a : Symbol, freqAt abcFreq a = if a = 0x61#8 ∨ a = 0x62#8 ∨ a = 0x63#8 then 1#32 else 0#32 := by
  decide +kernel

theorem abcTree_ok (m : Mode) (p : NodeIdx) : TreeOk abcFreq (abcTree m p).mem.node 3 5 where
  leaves i hi := by
    interval_cases i
    · exact ⟨0x61#8, rfl, by decide⟩
    · exact ⟨0x62#8, rfl, by decide⟩
    · exact ⟨0x63#8, rfl, by decide⟩
  ascending i j a b wa wb hij hj ha hb := by
    have h0 : tableGet (abcTree m p).mem.node 0 = some (.leaf 0x61#8 1#32) := rfl
    have h1 : tableGet (abcTree m p).mem.node 1 = some (.leaf 0x62#8 1#32) := rfl
    have h2 : tableGet (abcTree m p).mem.node 2 = some (.leaf 0x63#8 1#32) := rfl
    have hi : i < 2 := by omega
    interval_cases i <;> interval_cases j <;> simp_all
  present a ha := by
    rw [abcFreq_read] at ha ⊢
    split at ha
    · rename_i h
      rcases h with rfl | rfl | rfl
      · exact ⟨0, by decide, rfl⟩
      · exact ⟨1, by decide, rfl⟩
      · exact ⟨2, by decide, rfl⟩
    · exact absurd rfl ha
  internals k hk hk' := by
    interval_cases k
    · exact ⟨2#32, 0#9, 1#9, .leaf 0x61#8 1#32, .leaf 0x62#8 1#32, rfl, by decide, by decide, by decide, rfl, rfl, by decide⟩
    · exact ⟨3#32, 2#9, 3#9, .leaf 0x63#8 1#32, .internal 2#32 0#9 1#9, rfl, by decide, by decide, by decide, rfl, rfl,
        by decide⟩
  oneParent i hi := by
    have : i < 4 := by omega
    interval_cases i <;> rfl
  rootFree := rfl

/-- The tree of "abc" with no table, idle, meets the invariants. -/
theorem abcTree_inv : Inv (abcTree .idle 0#9) where
  mem := by decide +kernel
  registers := ⟨fun h => (by cases h), fun h => (by cases h), fun h => (by cases h), fun h => (by cases h), fun _ => by decide +kernel⟩
  sum := by decide +kernel
  tree _ := abcTree_ok .idle 0#9
  rootWeight _ := ⟨.internal 3#32 2#9 3#9, rfl, by decide +kernel⟩
  code h := by cases h
  pointer := ⟨fun h => (by cases h), fun h => (by cases h)⟩
  errors := ⟨fun _ => rfl, .inl rfl⟩
  response r h := by cases h
  queue := rfl
  stack := rfl

/-- TruncationIsDetected, PointerAtRootBetweenCodewords: with the tree of "abc" (`c` is "0", `a` is "10"), two whole
codewords, and the first digit of a third. -/
theorem witness_truncation : Inv (abcTree .idle 0#9) ∧ (abcTree .idle 0#9).mode = .idle ∧ (abcTree .idle 0#9).tv = true ∧
    single (abcTree .idle 0#9) = false ∧
    IsCodewordSequence (abcTree .idle 0#9).mem.node (abcTree .idle 0#9).root [false, true, false] ∧
    IsCutCodeword (abcTree .idle 0#9).mem.node (abcTree .idle 0#9).root [true] := by
  refine ⟨abcTree_inv, rfl, rfl, rfl, ⟨[[false], [true, false]], ?_, rfl⟩, by decide, 3#9, 2#32, 0#9, 1#9, rfl, rfl⟩
  simp only [List.forall_mem_cons]
  exact ⟨⟨2#9, 0x63#8, 1#32, rfl, rfl⟩, ⟨0#9, 0x61#8, 1#32, rfl, rfl⟩, by simp⟩

/-- TruncationIsDetected at its other boundary: no whole codeword before the cut one. -/
theorem witness_no_whole_codeword :
    IsCodewordSequence (abcTree .idle 0#9).mem.node (abcTree .idle 0#9).root [] := ⟨[], by simp, rfl⟩

/-! ### Witnesses: encodings and steps -/

/-- DecodedWordIsItsEncoding, CommandsMatchOpcodeMap: a command word, its row, and a boundary value of its operand. -/
theorem witness_command_word : decode 0xD1FF#16 = .ok (.rdnode 511#9) ∧ instrWellFormed (.rdnode 511#9) = true ∧
    (∃ row ∈ opcodeRows, 0xD1FF#16 &&& row.mask = row.matchBits) :=
  ⟨by decide, by decide, ⟨"RDNODE", 0xD#4, .i, 0xD000#16, 0xFE00#16⟩, by decide, by decide⟩

/-- IllegalWordRaises: words covered by no row, with opcode 0xF and with a bit set that must be 0, about to be taken. -/
theorem witness_illegal_word : (∀ row ∈ opcodeRows, 0xFFFF#16 &&& row.mask ≠ row.matchBits) ∧
    (∀ row ∈ opcodeRows, 0x9002#16 &&& row.mask ≠ row.matchBits) ∧
    (placeWord 0x9002#16 abTree).host = .send 0x9002#16 :: [] ∧ (placeWord 0x9002#16 abTree).rsp = none := by decide

/-- StepRunsTheDecodedCommand. -/
theorem witness_step : (placeWord 0x4000#16 abTree).host = .send 0x4000#16 :: [] ∧
    (placeWord 0x4000#16 abTree).rsp = none ∧ decode 0x4000#16 = .ok .derive := by decide

/-- PortsWaitAndKeepState, clause by clause. -/
theorem witness_ports : abTree.host = [] ∧
    ({ abTree with host := [.send 0#16], rsp := some ⟨0#4, 0#264⟩ } : State).rsp = some ⟨0#4, 0#264⟩ ∧
    ({ abTree with host := [.take] } : State).rsp = none ∧
    ({ abTree with host := [.take], rsp := some ⟨0#4, 0#264⟩ } : State).host = .take :: [] := by
  exact ⟨rfl, rfl, rfl, rfl⟩

/-- SendThenTakeIsOneExchange. -/
theorem witness_exchange : ∃ t, transact 0xB007#16 { abTree with host := [] } = some (t, ⟨0#4, 0x2008#264⟩) ∧
    ({ abTree with host := [.send 0xB007#16, .take] } : State).rsp = none := ⟨_, rfl, rfl⟩

/-- ResetFromEveryState. -/
theorem witness_reset : ({ abReady .enc with host := [.reset] } : State).host = .reset :: [] := rfl

/-! ### Witnesses: errors and legality -/

/-- What an answer says of the result. -/
theorem answer_some {r : Result} {c d : Nat} (h : answer r = some (c, d)) :
    ∃ t x, r = .next t ∧ t.rsp = some x ∧ x.err.toNat = c := by
  unfold answer at h
  cases r with
  | next t =>
    simp only [stateOf, Option.map_eq_some_iff] at h
    obtain ⟨x, hx, he⟩ := h
    exact ⟨t, x, rfl, hx, congrArg Prod.fst he⟩
  | fault f => cases h
  | refused f => cases h

/-- ErrorsChangeNothingElse, ErrorsByCommand, ErrorFlagsAreSticky, PointerWriters, ReadbackChangesNothing,
EveryCommandResponds: a command and a state for each of the seven codes, both commands of `E_RANGE` among them. -/
theorem witness_errors : answer (exec .build State.reset) = some (1, 0) ∧
    answer (exec (.enc 0x7A#8) (abReady .enc)) = some (2, 0) ∧
    answer (exec .decend (abcTree .dec 3#9)) = some (3, 0) ∧
    answer (exec .encend (abReady .dec)) = some (4, 0) ∧
    answer (exec (.reservedF 0#12) State.reset) = some (5, 0) ∧
    answer (exec (.sym 0x61#8) full) = some (6, 0) ∧
    answer (exec (.rdreg 8#4) State.reset) = some (7, 0) ∧ answer (exec (.rdnode 3#9) abTree) = some (7, 0) := by
  decide +kernel

/-- StateGraphOfCommands: each of the six states, with an opcode that is not legal in it. -/
theorem witness_graph : (∃ l, legalOpcodes .idle false false = some l ∧ 0xD#4 ∉ l) ∧
    (∃ l, legalOpcodes .idle true false = some l ∧ 0x2#4 ∉ l) ∧ (∃ l, legalOpcodes .idle true true = some l ∧ 0x4#4 ∉ l) ∧
    (∃ l, legalOpcodes .enc true true = some l ∧ 0x8#4 ∉ l) ∧ (∃ l, legalOpcodes .dec true false = some l ∧ 0xE#4 ∉ l) ∧
    (∃ l, legalOpcodes .dec true true = some l ∧ 0x7#4 ∉ l) :=
  ⟨⟨_, rfl, by decide⟩, ⟨_, rfl, by decide⟩, ⟨_, rfl, by decide⟩, ⟨_, rfl, by decide⟩, ⟨_, rfl, by decide⟩, ⟨_, rfl, by decide⟩⟩

/-! ### Witnesses: the commands -/

/-- SymCountsOne: room for exactly one more; none; not legal. -/
theorem witness_sym : (collect [(0x61, 4294967294#32)]).mode = .idle ∧ (collect [(0x61, 4294967294#32)]).tv = false ∧
    (collect [(0x61, 4294967294#32)]).total.toNat < 4294967295 ∧
    (readFreq (collect [(0x61, 4294967294#32)]) 0x61#8).toNat ≤ (collect [(0x61, 4294967294#32)]).total.toNat ∧
    full.mode = .idle ∧ full.tv = false ∧ full.total.toNat = 4294967295 ∧ abTree.tv = true := by decide +kernel

/-- BuildMakesTheTree, at the largest total; BuildErrors. -/
theorem witness_build : full.mode = .idle ∧ full.tv = false ∧ full.total.toNat = freqSum full.mem.freq ∧
    full.total ≠ 0#32 ∧ State.reset.mode = .idle ∧ State.reset.tv = false ∧ State.reset.total = 0#32 ∧
    abTree.tv = true := by decide +kernel

/-- ComparatorIsStrictTotalOrder: three written nodes, two of equal weight and one heavier (the root). -/
theorem witness_comparator : before abTree.mem.node 0#9 1#9 = .ok true ∧ before abTree.mem.node 1#9 2#9 = .ok true ∧
    (0#9 : NodeIdx) ≠ 1#9 := ⟨rfl, rfl, by decide⟩

/-- LeavesSeededInSymbolOrder (its premise names a list). -/
theorem witness_seed : [0x61#8, 0x62#8] = allSymbols.filter (fun a => freqAt abFreq a ≠ 0#32) := by decide +kernel

/-- MergeJoinsTheTwoLeast: the seeded queue of "abc". -/
theorem witness_merge : (seedLeaves abcFreq []).pq.Nodup ∧
    (mergeStep (seedLeaves abcFreq [])).toOption.isSome = true := by decide +kernel

/-- TreeIsAFunctionOfCounts: the same counts in a table that is not canonical, and an old `NODE`. -/
theorem witness_function_of_counts : (∀ a, freqAt abFreq a = freqAt ((0x63, 0#32) :: abFreq) a) ∧
    (buildTree abFreq []).toOption.isSome = true := by decide +kernel

/-- OneSymbolBuildsOneLeaf. -/
theorem witness_one_symbol : full.mode = .idle ∧ full.tv = false ∧ readFreq full 0x61#8 = full.total ∧ full.total ≠ 0#32 ∧
    (∀ b, b ≠ 0x61#8 → readFreq full b = 0#32) := by decide +kernel

/-- DeriveFillsTheCodeTable. -/
theorem witness_derive : abTree.mode = .idle ∧ abTree.tv = true ∧ abTree.cv = false ∧
    (1 ≤ abTree.nleaf.toNat ∧ abTree.nleaf.toNat ≤ 256 ∧ abTree.nnodes.toNat = 2 * abTree.nleaf.toNat - 1 ∧
      abTree.root.toNat = abTree.nnodes.toNat - 1) ∧
    TreeOk abTree.mem.freq abTree.mem.node abTree.nleaf.toNat abTree.nnodes.toNat :=
  ⟨rfl, rfl, rfl, by decide, abTree_ok⟩

/-- DeriveOutOfSequence: its three cases. -/
theorem witness_derive_out_of_sequence : (abReady .enc).mode ≠ .idle ∧ State.reset.tv = false ∧ (abReady .idle).cv = true := by
  decide

/-- SingleLeafCodeword. -/
theorem witness_single_leaf : (aaaaTree .idle).mode = .idle ∧ (aaaaTree .idle).tv = true ∧ (aaaaTree .idle).cv = false ∧
    readNode (aaaaTree .idle) (aaaaTree .idle).root = some (.leaf 0x61#8 4#32) := ⟨rfl, rfl, rfl, rfl⟩

/-- EncbegResult, EncResult (a symbol with and one without a codeword), EncendResult, EmptyTransactionsComplete. -/
theorem witness_encoder : (abReady .idle).mode = .idle ∧ (abReady .idle).cv = true ∧ abTree.cv = false ∧
    (abReady .enc).mode = .enc ∧ readCode (abReady .enc) 0x62#8 = some ⟨true, 1#8, 1#255⟩ ∧
    readCode (abReady .enc) 0x7A#8 = some invalidCode ∧ (abReady .dec).mode ≠ .enc := by decide +kernel

/-- DecbegResult, DecendResult and DbitResult, clause by clause: a single leaf, a move, an emission. -/
theorem witness_decoder : (abcTree .idle 0#9).mode = .idle ∧ (abcTree .idle 0#9).tv = true ∧ State.reset.tv = false ∧
    readNode (aaaaTree .dec) (aaaaTree .dec).root = some (.leaf 0x61#8 4#32) ∧
    readNode (abcTree .dec 4#9) 4#9 = some (.internal 3#32 2#9 3#9) ∧
    readNode (abcTree .dec 4#9) 3#9 = some (.internal 2#32 0#9 1#9) ∧
    readNode (abcTree .dec 4#9) 2#9 = some (.leaf 0x63#8 1#32) ∧
    (abcTree .dec 4#9).ptr = (abcTree .dec 4#9).root ∧ (abcTree .dec 3#9).ptr ≠ (abcTree .dec 3#9).root := by decide

/-- RdnodeResult at the last node and just past it; RdcodeResult. -/
theorem witness_readback : abTree.tv = true ∧ (2#9 : NodeIdx).toNat < abTree.nnodes.toNat ∧
    readNode abTree 2#9 = some (.internal 2#32 0#9 1#9) ∧ abTree.nnodes.toNat ≤ (3#9 : NodeIdx).toNat ∧
    State.reset.tv = false ∧ (abReady .idle).cv = true ∧ readCode (abReady .idle) 0x61#8 = some ⟨true, 1#8, 0#255⟩ ∧
    abTree.cv = false := by decide +kernel

/-- ReadbackChangesNothing, TreeIsImmutable, CodeTableIsImmutable, PointerWriters: OK answers with a tree and a table. -/
theorem witness_ok_answers : answer (exec .nop (abReady .enc)) = some (0, 0) ∧
    answer (exec (.rdnode 0#9) (abReady .idle)) = some (0, 0x0000000040061) ∧ (abReady .idle).tv = true ∧
    (abReady .idle).cv = true ∧ answer (exec .decbeg (abReady .idle)) = some (0, 0) ∧
    answer (exec .clr (abReady .idle)) = some (0, 0) := by decide +kernel

/-- ErrorFlagsAreSticky: a flag that is set, and one that an error sets. -/
theorem witness_flags : errFlag ({ abTree with errflags := 1#7 } : State).errflags .empty = true ∧
    errFlag State.reset.errflags .empty = false ∧
    after (exec .build State.reset) (fun t => (errFlag t.errflags .empty).toNat) = some 1 := by decide +kernel

/-- RoundTrip, RootWeightIsInputLength, PermutedInputsGiveOneTree, TwoEqualSymbols: the input "ab". -/
theorem witness_inputs : [0x61#8, 0x62#8] ≠ [] ∧ [0x61#8, 0x62#8].length ≤ 4294967295 ∧
    [0x61#8, 0x62#8].Perm [0x62#8, 0x61#8] ∧ (0x61#8).toNat < (0x62#8).toNat ∧
    (∀ x ∈ [0x61#8, 0x62#8], x = 0x61#8 ∨ x = 0x62#8) ∧ [0x61#8, 0x62#8].count 0x61#8 = [0x61#8, 0x62#8].count 0x62#8 := by
  exact ⟨by decide, by decide, List.Perm.swap _ _ _, by decide, by decide, by decide⟩

theorem stateOf_some {r : Result} {t : State} (h : stateOf r = some t) : r = .next t := by
  cases r with
  | next u => cases h; rfl
  | fault f => cases h
  | refused f => cases h

/-- CodeIsOptimal: the counts of "ab" build a tree of two leaves, and DERIVE runs on it. -/
theorem witness_optimal : ∃ s t u : State, s.mode = .idle ∧ s.tv = false ∧ s.cv = false ∧ exec .build s = .next t ∧
    t.tv = true ∧ exec .derive t = .next u ∧ 2 ≤ u.nleaf.toNat := by
  have h : ∃ t ∈ stateOf (exec .build (collect abFreq)), t.tv = true ∧
      ∃ u ∈ stateOf (exec .derive t), 2 ≤ u.nleaf.toNat := by decide +kernel
  obtain ⟨t, ht, htv, u, hu, hn⟩ := h
  exact ⟨collect abFreq, t, u, rfl, rfl, rfl, stateOf_some ht, htv, stateOf_some hu, hn⟩

end Sys2Proof.Tests
end

section
/-! SUPPORT. What a successful command and an error leave of the error record, the tree, the code table and the pointer
(10_state.md R24 to R26, R31, R43; 60_exceptions.md R174, R178). -/

namespace Sys2Proof.Machine

variable {s t : State} {i : Instr}

/-- A command that succeeds answers OK (30_encoding.md R78). -/
theorem Effect.rsp_ok (h : Effect s i t) : ∃ d, t.rsp = some ⟨0#4, d⟩ := by
  cases h <;> exact ⟨_, rfl⟩

theorem Effect.errflags_eq (h : Effect s i t) (hi : i ≠ .clr) : t.errflags = s.errflags := by
  cases h with
  | clr => exact absurd rfl hi
  | _ => rfl

/-- SYM and BUILD, the writers of the counts and the tree, succeed only while `TV = 0`. -/
theorem Effect.tree_eq (h : Effect s i t) (htv : s.tv = true) (hi : i ≠ .clr) :
    t.tv = true ∧ t.mem.node = s.mem.node ∧ t.nleaf = s.nleaf ∧ t.nnodes = s.nnodes ∧ t.root = s.root ∧
      t.mem.freq = s.mem.freq ∧ t.total = s.total := by
  cases h with
  | clr => exact absurd rfl hi
  | sym _ _ _ _ tv => simp [htv] at tv
  | build _ _ tv => simp [htv] at tv
  | _ => exact ⟨htv, rfl, rfl, rfl, rfl, rfl, rfl⟩

/-- DERIVE, the writer of the code table, succeeds only while `CV = 0`. -/
theorem Effect.code_eq (h : Effect s i t) (hcv : s.cv = true) (hi : i ≠ .clr) :
    t.cv = true ∧ t.mem.code = s.mem.code := by
  cases h with
  | clr => exact absurd rfl hi
  | derive _ _ _ cv => simp [hcv] at cv
  | _ => exact ⟨hcv, rfl⟩

theorem Effect.ptr_eq (h : Effect s i t) (hclr : i ≠ .clr) (hbeg : i ≠ .decbeg) (hbit : ∀ b, i ≠ .dbit b) :
    t.ptr = s.ptr := by
  cases h with
  | clr => exact absurd rfl hclr
  | decbeg => exact absurd rfl hbeg
  | dbitEmit b => exact absurd rfl (hbit b)
  | dbitMove b => exact absurd rfl (hbit b)
  | _ => rfl

/-- CLR never raises (40_build.md R91). -/
theorem exec_clr_next : exec .clr s = .next t ↔ t = respond 0#264 (clearCore s) := by
  simp [exec, execClr]

/-- Settles O40: an error sets its own flag only, and a command that succeeds leaves the flags unless it is CLR. -/
theorem errorFlagsAreSticky : Obligations.ErrorFlagsAreSticky := by
  intro i s t e h hi
  rcases exec_cases h with ⟨e', v, rfl⟩ | heff
  · rw [raiseError_errflags, errFlag_setErrFlag]
    refine ⟨fun hset => by simp [hset], fun hclear hset => ?_⟩
    have : e' = e := by simpa [hclear] using hset
    rw [raiseError_rsp, this]
  · rw [heff.errflags_eq hi]
    exact ⟨id, fun hclear hset => by simp [hclear] at hset⟩

/-- Settles O41: an error changes no register of the tree, and SYM and BUILD are not legal while `TV = 1`. -/
theorem treeIsImmutable : Obligations.TreeIsImmutable := by
  intro i s t htv h hi
  rcases exec_cases h with ⟨e, v, rfl⟩ | heff
  · exact ⟨htv, rfl, rfl, rfl, rfl, rfl, rfl⟩
  · exact heff.tree_eq htv hi

/-- Settles O42: an error changes no code-table entry, and DERIVE is not legal while `CV = 1`. -/
theorem codeTableIsImmutable : Obligations.CodeTableIsImmutable := by
  intro i s t hcv h hi
  rcases exec_cases h with ⟨e, v, rfl⟩ | heff
  · exact ⟨hcv, rfl⟩
  · exact heff.code_eq hcv hi

/-- Settles O43: an error leaves `PTR`, and so does every success but those of CLR, DECBEG and DBIT. -/
theorem pointerWriters : Obligations.PointerWriters := by
  intro i s t r h hr
  have hclr : i = .clr → t.ptr = 0#9 := by
    rintro rfl
    rw [exec_clr_next.1 h, respond_ptr, clearCore_ptr]
  rcases exec_cases h with ⟨e, v, rfl⟩ | heff
  · obtain rfl : ⟨errorNumber e, 0#264⟩ = r := by simpa using hr
    exact ⟨fun _ => rfl, fun _ _ _ => rfl, fun _ hok => absurd hok (errorNumber_ne_zero e), hclr⟩
  · obtain ⟨d, hd⟩ := heff.rsp_ok
    obtain rfl : ⟨0#4, d⟩ = r := by simpa [hd] using hr
    refine ⟨fun hne => absurd rfl hne, heff.ptr_eq, ?_, hclr⟩
    rintro rfl -
    cases heff
    rfl

end Sys2Proof.Machine
end

section
/-! SUPPORT. What BUILD writes: the leaves of the symbols present in symbol order (40_build.md R95), then a forest that every
merge keeps (R93, R96), and at the end one tree that meets the tree invariants (10_state.md R38). -/

namespace Sys2Proof.Machine

/-! ### Seeding -/

/-- The symbols present, in ascending order (10_state.md R28, 40_build.md R95). -/
def presentSymbols (freq : Table Count) : List Symbol := allSymbols.filter fun a => freqAt freq a ≠ 0#32

variable {freq : Table Count} {node : Table NodeEntry}

theorem mem_allSymbols (a : Symbol) : a ∈ allSymbols :=
  List.mem_map.2 ⟨a.toNat, List.mem_range.2 a.isLt, by simp⟩

theorem allSymbols_ascending : allSymbols.Pairwise fun a b => a.toNat < b.toNat := by
  refine List.pairwise_map.2 (List.pairwise_lt_range.imp_of_mem fun {i j} hi hj hij => ?_)
  have hi := List.mem_range.1 hi
  have hj := List.mem_range.1 hj
  simp only [Config.numSymbols] at hi hj
  simp only [BitVec.toNat_ofNat]
  omega

theorem mem_presentSymbols {a : Symbol} : a ∈ presentSymbols freq ↔ freqAt freq a ≠ 0#32 := by
  simp [presentSymbols, mem_allSymbols]

theorem presentSymbols_ascending : (presentSymbols freq).Pairwise fun a b => a.toNat < b.toNat :=
  allSymbols_ascending.filter _

theorem length_presentSymbols_le : (presentSymbols freq).length ≤ 256 :=
  (List.length_filter_le _ _).trans (by simp [allSymbols, Config.numSymbols])

/-- An absent symbol adds nothing to the sum of the counts. -/
theorem freqSum_eq_sum_present :
    freqSum freq = ((presentSymbols freq).map fun a => (freqAt freq a).toNat).sum := by
  unfold freqSum presentSymbols
  induction allSymbols with
  | nil => rfl
  | cons a rest ih =>
    by_cases ha : freqAt freq a = 0#32
    · simp [ha, ih]
    · simp [ha, ih]

/-- The scan of any list of symbols: the present ones get leaves at the next indices, in order, and all of them are queued. -/
theorem foldl_seedSymbol (l : List Symbol) (b : TreeBuild) {ps : List Symbol}
    (hps : ps = l.filter fun a => freqAt freq a ≠ 0#32) :
    (l.foldl (seedSymbol freq) b).next = b.next + ps.length ∧
    (l.foldl (seedSymbol freq) b).pq = b.pq ++ (List.range' b.next ps.length).map (BitVec.ofNat 9) ∧
    (∀ k a, ps[k]? = some a →
      tableGet (l.foldl (seedSymbol freq) b).node (b.next + k) = some (.leaf a (freqAt freq a))) ∧
    ∀ i, i < b.next ∨ b.next + ps.length ≤ i →
      tableGet (l.foldl (seedSymbol freq) b).node i = tableGet b.node i := by
  induction l generalizing b ps with
  | nil => subst hps; simp
  | cons c rest ih =>
    by_cases hc : freqAt freq c = 0#32
    · simpa [seedSymbol, hc] using ih b (by simpa [hc] using hps)
    · obtain ⟨qs, hqs⟩ : ∃ qs, qs = rest.filter fun a => freqAt freq a ≠ 0#32 := ⟨_, rfl⟩
      obtain rfl : ps = c :: qs := by simp [hps, hqs, hc]
      obtain ⟨hnext, hpq, hleaf, hother⟩ := ih (seedSymbol freq b c) hqs
      simp only [seedSymbol_of_ne hc] at hnext hpq hleaf hother
      rw [List.foldl_cons, seedSymbol_of_ne hc]
      refine ⟨by rw [hnext, List.length_cons]; omega, by simp [hpq, List.range'_succ], fun k a hk => ?_, fun i hi => ?_⟩
      · cases k with
        | zero =>
          obtain rfl : c = a := by simpa using hk
          rw [hother _ (.inl (by simp))]
          simp
        | succ k => rw [← hleaf k a (by simpa using hk)]; congr 1; omega
      · rw [List.length_cons] at hi
        rw [hother i (by omega), tableGet_put_other _ _ (by omega)]

/-- What seeding leaves (40_build.md R95). -/
theorem seedLeaves_spec (freq : Table Count) (node : Table NodeEntry) :
    (seedLeaves freq node).next = (presentSymbols freq).length ∧
    (seedLeaves freq node).pq = (List.range (presentSymbols freq).length).map (BitVec.ofNat 9) ∧
    (∀ k a, (presentSymbols freq)[k]? = some a →
      tableGet (seedLeaves freq node).node k = some (.leaf a (freqAt freq a))) ∧
    ∀ i, (presentSymbols freq).length ≤ i → tableGet (seedLeaves freq node).node i = tableGet node i := by
  have h := foldl_seedSymbol (freq := freq) allSymbols ⟨node, [], 0⟩ (ps := presentSymbols freq) rfl
  simpa only [seedLeaves, Nat.zero_add, List.nil_append, ← List.range_eq_range', Nat.not_lt_zero, false_or] using h

/-! ### The children of a forest -/

/-- The weight an index has in `NODE`, 0 where nothing is written. -/
def weightAt (node : Table NodeEntry) (i : NodeIdx) : Nat := ((nodeAt node i).map fun e => (entryWeight e).toNat).getD 0

theorem weightAt_of_some {i : NodeIdx} {e : NodeEntry} (h : nodeAt node i = some e) :
    weightAt node i = (entryWeight e).toNat := by
  simp [weightAt, h]

theorem weightAt_put_same (i : NodeIdx) (e : NodeEntry) :
    weightAt (tablePut node i.toNat e) i = (entryWeight e).toNat := by
  simp [weightAt, nodeAt]

theorem nodeAt_put_of_lt {i : NodeIdx} {k : Nat} {e : NodeEntry} (h : i.toNat < k) :
    nodeAt (tablePut node k e) i = nodeAt node i :=
  tableGet_put_other _ _ (Nat.ne_of_lt h)

/-- Entries from `n` on do not matter for the children of the entries below `n`. -/
theorem childIndices_put_of_le {n k : Nat} {e : NodeEntry} (h : n ≤ k) :
    childIndices (tablePut node k e) n = childIndices node n := by
  have hsame : ∀ i ∈ List.range n, tableGet (tablePut node k e) i = tableGet node i := fun i hi =>
    tableGet_put_other _ _ (by have := List.mem_range.1 hi; omega)
  simp only [childIndices, List.flatMap_def]
  exact congrArg List.flatten (List.map_congr_left fun i hi => by rw [hsame i hi])

theorem childIndices_succ_of_internal {n : Nat} {w : Count} {left right : NodeIdx}
    (h : tableGet node n = some (.internal w left right)) :
    childIndices node (n + 1) = childIndices node n ++ [left.toNat, right.toNat] := by
  simp [childIndices, List.range_succ, h]

theorem childIndices_of_leaves {n : Nat} (h : ∀ k < n, ∃ a w, tableGet node k = some (.leaf a w)) :
    childIndices node n = [] := by
  refine List.flatMap_eq_nil_iff.2 fun k hk => ?_
  obtain ⟨a, w, hk⟩ := h k (List.mem_range.1 hk)
  rw [hk]

theorem mem_childIndices {n j : Nat} : j ∈ childIndices node n ↔
    ∃ k < n, ∃ w left right, tableGet node k = some (.internal w left right) ∧ (j = left.toNat ∨ j = right.toNat) := by
  unfold childIndices
  rw [List.mem_flatMap]
  constructor
  · rintro ⟨k, hk, hj⟩
    split at hj
    · rename_i w left right he
      exact ⟨k, List.mem_range.1 hk, w, left, right, he, by simpa using hj⟩
    · simp at hj
  · rintro ⟨k, hk, w, left, right, he, hj⟩
    refine ⟨k, List.mem_range.2 hk, ?_⟩
    rw [he]
    simpa using hj

/-! ### The forest of the merge loop -/

theorem takeLeast_perm {pq q : List NodeIdx} {m : NodeIdx} (h : takeLeast node pq = .ok (m, q)) : pq.Perm (m :: q) := by
  obtain ⟨hm, rfl⟩ := takeLeast_ok h
  exact List.perm_cons_erase hm

/-- The internal entry R38 (items 2, 3 and 5) asks for at `k`: two different children below `k`, whose weights add up. -/
def JoinsTwo (node : Table NodeEntry) (k : Nat) : Prop :=
  ∃ w left right el er, tableGet node k = some (.internal w left right) ∧ left ≠ right ∧ left.toNat < k ∧
    right.toNat < k ∧ nodeAt node left = some el ∧ nodeAt node right = some er ∧
    w.toNat = (entryWeight el).toNat + (entryWeight er).toNat

theorem JoinsTwo.put {k j : Nat} {e : NodeEntry} (h : JoinsTwo node k) (hkj : k < j) : JoinsTwo (tablePut node j e) k := by
  obtain ⟨w, left, right, el, er, hk, hne, hl, hr, hel, her, hw⟩ := h
  exact ⟨w, left, right, el, er, by rwa [tableGet_put_other _ _ (by omega)], hne, hl, hr,
    by rwa [nodeAt_put_of_lt (by omega)], by rwa [nodeAt_put_of_lt (by omega)], hw⟩

/-- What holds between merges (40_build.md R93): the leaves of the symbols present, then internal entries; every node is the
child of one internal entry or one of the queued roots; and the queued roots weigh as much as all counts together. -/
structure ForestOk (freq : Table Count) (b : TreeBuild) : Prop where
  leaf : ∀ k a, (presentSymbols freq)[k]? = some a → tableGet b.node k = some (.leaf a (freqAt freq a))
  internal : ∀ k, (presentSymbols freq).length ≤ k → k < b.next → JoinsTwo b.node k
  slots : (childIndices b.node b.next ++ b.pq.map BitVec.toNat).Perm (List.range b.next)
  size : b.next + b.pq.length = 2 * (presentSymbols freq).length
  weight : (b.pq.map (weightAt b.node)).sum = freqSum freq

theorem seedLeaves_forest (freq : Table Count) (node : Table NodeEntry) : ForestOk freq (seedLeaves freq node) := by
  obtain ⟨hnext, hpq, hleaf, -⟩ := seedLeaves_spec freq node
  have hlen := length_presentSymbols_le (freq := freq)
  have hidx : ∀ k ∈ List.range (presentSymbols freq).length, (BitVec.ofNat 9 k).toNat = k := fun k hk => by
    have := List.mem_range.1 hk
    rw [BitVec.toNat_ofNat]; omega
  refine ⟨hleaf, fun k hk hk' => by omega, ?_, by simp [hnext, hpq]; omega, ?_⟩
  · rw [childIndices_of_leaves fun k hk => ⟨_, _, hleaf k _ (List.getElem?_eq_getElem (hnext ▸ hk))⟩, hpq, hnext,
      List.map_map, List.nil_append, List.map_congr_left (f := BitVec.toNat ∘ BitVec.ofNat 9) (g := id) hidx, List.map_id]
  · rw [hpq, List.map_map, freqSum_eq_sum_present]
    congr 1
    refine List.ext_getElem (by simp) fun k hk _ => ?_
    have hk : k < (presentSymbols freq).length := by simpa using hk
    have hat : nodeAt (seedLeaves freq node).node (BitVec.ofNat 9 k) = _ :=
      (congrArg (tableGet _) (hidx k (List.mem_range.2 hk))).trans (hleaf k _ (List.getElem?_eq_getElem hk))
    simp [weightAt_of_some hat, entryWeight]

theorem ForestOk.nodup {b : TreeBuild} (h : ForestOk freq b) : (b.pq.map BitVec.toNat).Nodup :=
  (List.nodup_append.1 (h.slots.nodup_iff.2 List.nodup_range)).2.1

theorem ForestOk.queued_lt {b : TreeBuild} (h : ForestOk freq b) {i : NodeIdx} (hi : i ∈ b.pq) : i.toNat < b.next :=
  List.mem_range.1 (h.slots.subset (List.mem_append_right _ (List.mem_map_of_mem hi)))

theorem ForestOk.leaves_le {b : TreeBuild} (h : ForestOk freq b) : (presentSymbols freq).length ≤ b.next := by
  have hslots := h.slots.length_eq
  have hsize := h.size
  simp at hslots
  omega

/-- While two roots or more are queued, the next index fits a node index (00_scope.md R9). -/
theorem ForestOk.toNat_next {b : TreeBuild} (h : ForestOk freq b) (hq : 1 < b.pq.length) :
    (BitVec.ofNat 9 b.next).toNat = b.next := by
  have hsize := h.size
  have hlen := length_presentSymbols_le (freq := freq)
  rw [BitVec.toNat_ofNat]
  omega

/-- A new parent makes its two roots children. -/
theorem ForestOk.slots_merge {b : TreeBuild} (h : ForestOk freq b) {lo hi : NodeIdx} {pq : List NodeIdx} {w : Count}
    (hpq : b.pq.Perm (lo :: hi :: pq)) (hnext : (BitVec.ofNat 9 b.next).toNat = b.next) :
    (childIndices (tablePut b.node b.next (.internal w lo hi)) (b.next + 1) ++
      (pq ++ [BitVec.ofNat 9 b.next]).map BitVec.toNat).Perm (List.range (b.next + 1)) := by
  have hold := (((hpq.map BitVec.toNat).append_left (childIndices b.node b.next)).symm).trans h.slots
  rw [childIndices_succ_of_internal (tableGet_put_same ..), childIndices_put_of_le le_rfl, List.range_succ, List.map_append,
    List.map_singleton, hnext, ← List.append_assoc]
  exact List.Perm.append_right _ (by simpa using hold)

/-- A new parent weighs as much as its two roots did. -/
theorem ForestOk.weight_merge {b : TreeBuild} (h : ForestOk freq b) {lo hi : NodeIdx} {pq : List NodeIdx} {w : Count}
    (hpq : b.pq.Perm (lo :: hi :: pq)) (hnext : (BitVec.ofNat 9 b.next).toNat = b.next)
    (hw : w.toNat = weightAt b.node lo + weightAt b.node hi) :
    ((pq ++ [BitVec.ofNat 9 b.next]).map (weightAt (tablePut b.node b.next (.internal w lo hi)))).sum = freqSum freq := by
  have hsame : ∀ i ∈ pq, weightAt (tablePut b.node b.next (.internal w lo hi)) i = weightAt b.node i := fun i hmem => by
    have hlt := h.queued_lt (i := i) (hpq.symm.subset (by simp [hmem]))
    rw [weightAt, nodeAt_put_of_lt hlt, weightAt]
  have htop := weightAt_put_same (node := b.node) (BitVec.ofNat 9 b.next) (.internal w lo hi)
  rw [hnext] at htop
  rw [← h.weight, (hpq.map (weightAt b.node)).sum_eq, List.map_append, List.map_congr_left hsame]
  simp [htop, entryWeight, hw]
  omega

/-- A merge takes two roots out of the queue and puts their new parent in. -/
theorem mergeStep_forest {b b' : TreeBuild} (h : ForestOk freq b) (hq : 1 < b.pq.length) (hs : mergeStep b = .ok b') :
    ForestOk freq b' := by
  obtain ⟨hlength, hnext'⟩ := mergeStep_counts hs
  obtain ⟨lo, hi, pq1, pq2, el, eh, w, h1, h2, hl, hh, hw, rfl⟩ := mergeStep_cases hs
  have hpq : b.pq.Perm (lo :: hi :: pq2) := (takeLeast_perm h1).trans ((takeLeast_perm h2).cons lo)
  have hlo := h.queued_lt (i := lo) (hpq.symm.subset (by simp))
  have hhi := h.queued_lt (i := hi) (hpq.symm.subset (by simp))
  have hne : lo ≠ hi := by
    have hnodup := (hpq.map BitVec.toNat).nodup_iff.1 h.nodup
    rintro rfl
    simp at hnodup
  have hnext := h.toNat_next hq
  have hsize := h.size
  have hleaves := h.leaves_le
  exact
    { leaf := fun k a hk => by
        have := (List.getElem?_eq_some_iff.1 hk).1
        rw [← h.leaf k a hk, tableGet_put_other _ _ (by omega)]
      internal := fun k hk hk' => by
        rcases Nat.lt_succ_iff_lt_or_eq.1 hk' with hlt | rfl
        · exact (h.internal k hk hlt).put hlt
        · exact ⟨w, lo, hi, el, eh, tableGet_put_same .., hne, hlo, hhi, by rwa [nodeAt_put_of_lt hlo],
            by rwa [nodeAt_put_of_lt hhi], hw⟩
      slots := h.slots_merge hpq hnext
      size := by omega
      weight := h.weight_merge hpq hnext (by rw [hw, weightAt_of_some hl, weightAt_of_some hh]) }

theorem mergeLoop_forest {fuel : Nat} {b b' : TreeBuild} (h : ForestOk freq b) (hm : mergeLoop fuel b = .ok b') :
    ForestOk freq b' :=
  mergeLoop_keeps (fun _ _ hb hq hs => mergeStep_forest hb hq hs) h hm

/-! ### The tree -/

/-- A child's index is below its parent's, so the last node of a forest is a root. -/
theorem ForestOk.last_not_child {b : TreeBuild} (h : ForestOk freq b) : b.next - 1 ∉ childIndices b.node b.next := by
  intro hmem
  obtain ⟨k, hk, w, left, right, he, hj⟩ := mem_childIndices.1 hmem
  by_cases hleaf : k < (presentSymbols freq).length
  · simp [h.leaf k _ (List.getElem?_eq_getElem hleaf)] at he
  · obtain ⟨w', left', right', el, er, he', -, hl, hr, -⟩ := h.internal k (by omega) hk
    simp only [he, Option.some.injEq, NodeEntry.internal.injEq] at he'
    obtain ⟨-, rfl, rfl⟩ := he'
    omega

/-- A forest whose queue holds one root is a tree, its root the last node (10_state.md R30, R38). -/
theorem ForestOk.root_eq {b : TreeBuild} {root : NodeIdx} (h : ForestOk freq b) (hr : b.pq = [root]) :
    root.toNat = b.next - 1 := by
  have hpos := h.queued_lt (i := root) (by simp [hr])
  have hmem : b.next - 1 ∈ childIndices b.node b.next ++ b.pq.map BitVec.toNat :=
    h.slots.symm.subset (List.mem_range.2 (by omega))
  rcases List.mem_append.1 hmem with hc | hq
  · exact absurd hc h.last_not_child
  · simpa [hr, eq_comm] using hq

theorem ForestOk.treeOk {b : TreeBuild} {root : NodeIdx} (h : ForestOk freq b) (hr : b.pq = [root]) :
    TreeOk freq b.node (presentSymbols freq).length b.next where
  leaves i hi := ⟨_, h.leaf i _ (List.getElem?_eq_getElem hi), mem_presentSymbols.1 (List.getElem_mem hi)⟩
  ascending i j a c wa wc hij hj ha hc := by
    rw [h.leaf i _ (List.getElem?_eq_getElem (hij.trans hj))] at ha
    rw [h.leaf j _ (List.getElem?_eq_getElem hj)] at hc
    cases ha
    cases hc
    exact List.pairwise_iff_getElem.1 presentSymbols_ascending i j _ _ hij
  present a ha := by
    obtain ⟨i, hi, rfl⟩ := List.getElem_of_mem (mem_presentSymbols.2 ha)
    exact ⟨i, hi, h.leaf i _ (List.getElem?_eq_getElem hi)⟩
  internals := h.internal
  oneParent i hi := by
    have hroot := h.root_eq hr
    have hcount := h.slots.count_eq i
    rw [hr, List.map_singleton, List.count_append, List.count_singleton,
      List.count_eq_one_of_mem List.nodup_range (List.mem_range.2 (by omega : i < b.next))] at hcount
    simpa [show root.toNat ≠ i by omega] using hcount
  rootFree := List.count_eq_zero.2 h.last_not_child

/-- What BUILD's answer is: the tree registers, the tree invariants, and the root's weight (10_state.md R38, R39, R44). -/
structure BuiltOk (freq : Table Count) (t : BuiltTree) : Prop where
  nleaf : t.nleaf.toNat = (presentSymbols freq).length
  pos : 1 ≤ t.nleaf.toNat
  nnodes : t.nnodes.toNat = 2 * t.nleaf.toNat - 1
  root : t.root.toNat = t.nnodes.toNat - 1
  tree : TreeOk freq t.node t.nleaf.toNat t.nnodes.toNat
  weight : ∃ e, nodeAt t.node t.root = some e ∧ (entryWeight e).toNat = freqSum freq

/-- The last node of a forest is written. -/
theorem ForestOk.exists_last {b : TreeBuild} (h : ForestOk freq b) (hpos : 0 < b.next) :
    ∃ e, tableGet b.node (b.next - 1) = some e := by
  by_cases hle : (presentSymbols freq).length ≤ b.next - 1
  · obtain ⟨w, left, right, -, -, he, -⟩ := h.internal (b.next - 1) hle (by omega)
    exact ⟨_, he⟩
  · exact ⟨_, h.leaf _ _ (List.getElem?_eq_getElem (by omega))⟩

/-- All BUILD can answer is the tree of the counts. -/
theorem buildTree_ok {t : BuiltTree} (h : buildTree freq node = .ok t) : BuiltOk freq t := by
  obtain ⟨b, root, hm, hr, rfl⟩ := buildTree_cases h
  have hf := mergeLoop_forest (seedLeaves_forest freq node) hm
  have hlen := length_presentSymbols_le (freq := freq)
  have hsize : b.next + 1 = 2 * (presentSymbols freq).length := by simpa [hr] using hf.size
  have hroot := hf.root_eq hr
  have hnleaf : (BitVec.ofNat 9 (seedLeaves freq node).next).toNat = (presentSymbols freq).length := by
    rw [(seedLeaves_spec freq node).1, BitVec.toNat_ofNat]
    omega
  have hnnodes : (BitVec.ofNat 9 b.next).toNat = b.next := by rw [BitVec.toNat_ofNat]; omega
  obtain ⟨e, he⟩ := hf.exists_last (by omega)
  rw [← hroot] at he
  have hweight : weightAt b.node root = freqSum freq := by simpa [hr] using hf.weight
  exact
    { nleaf := hnleaf
      pos := by dsimp only; omega
      nnodes := by dsimp only; omega
      root := by dsimp only; omega
      tree := by rw [hnleaf, hnnodes]; exact hf.treeOk hr
      weight := ⟨e, he, (weightAt_of_some he).symm.trans hweight⟩ }

theorem BuiltOk.nleaf_le {t : BuiltTree} (h : BuiltOk freq t) : t.nleaf.toNat ≤ Config.numSymbols :=
  h.nleaf ▸ length_presentSymbols_le

end Sys2Proof.Machine
end

section
/-! SUPPORT. The register invariants of 10_state.md R44 on every command and every step. -/

namespace Sys2Proof.Machine

variable {s t : State} {i : Instr}

/-- Neither the ports nor the tables, the pointer or the error record have a part in the register invariants. -/
theorem RegistersOk.congr (h : RegistersOk s) (hmode : t.mode = s.mode ∨ t.mode = .idle) (htv : t.tv = s.tv)
    (hcv : t.cv = s.cv) (hnleaf : t.nleaf = s.nleaf) (hnnodes : t.nnodes = s.nnodes) (hroot : t.root = s.root)
    (htotal : t.total = s.total) : RegistersOk t where
  cvTv hc := htv ▸ h.cvTv (hcv ▸ hc)
  encCv hm := by
    rcases hmode with hmode | hmode
    · exact hcv ▸ h.encCv (hmode ▸ hm)
    · simp [hmode] at hm
  decTv hm := by
    rcases hmode with hmode | hmode
    · exact htv ▸ h.decTv (hmode ▸ hm)
    · simp [hmode] at hm
  noTree hv := by rw [hnleaf, hnnodes, hroot]; exact h.noTree (htv ▸ hv)
  tree hv := by rw [hnleaf, hnnodes, hroot, htotal]; exact h.tree (htv ▸ hv)

/-- With no tree, no table, no transaction and the tree registers 0, nothing more is asked. -/
theorem RegistersOk.of_noTree (hmode : t.mode = .idle) (htv : t.tv = false) (hcv : t.cv = false) (hnleaf : t.nleaf = 0#9)
    (hnnodes : t.nnodes = 0#9) (hroot : t.root = 0#9) : RegistersOk t where
  cvTv hc := by simp [hcv] at hc
  encCv hm := by simp [hmode] at hm
  decTv hm := by simp [hmode] at hm
  noTree _ := ⟨hnleaf, hnnodes, hroot⟩
  tree hv := by simp [htv] at hv

/-- There is no code table without a tree (10_state.md R44). -/
theorem RegistersOk.cv_of_noTree (h : RegistersOk s) (htv : s.tv = false) : s.cv = false :=
  Bool.eq_false_iff.2 fun hcv => by simp [h.cvTv hcv] at htv

theorem Effect.registersOk (h : RegistersOk s) (heff : Effect s i t) : RegistersOk t := by
  cases heff with
  | clr => exact .of_noTree rfl rfl rfl rfl rfl rfl
  | sym a count total mode tv =>
    obtain ⟨hnleaf, hnnodes, hroot⟩ := h.noTree tv
    exact .of_noTree mode tv (h.cv_of_noTree tv) hnleaf hnnodes hroot
  | build b mode tv some tree =>
    have hb := buildTree_ok tree
    have htotal : 1 ≤ s.total.toNat :=
      Nat.pos_of_ne_zero fun h0 => some (BitVec.eq_of_toNat_eq h0)
    exact ⟨fun _ => rfl, fun hm => absurd (mode ▸ hm) (by decide), fun _ => rfl, nofun,
      fun _ => ⟨hb.pos, hb.nleaf_le, hb.nnodes, hb.root, htotal⟩⟩
  | derive code mode tv => exact ⟨fun _ => tv, fun _ => rfl, h.decTv, h.noTree, h.tree⟩
  | encbeg mode cv => exact ⟨h.cvTv, fun _ => cv, nofun, h.noTree, h.tree⟩
  | decbeg mode tv => exact ⟨h.cvTv, nofun, fun _ => tv, h.noTree, h.tree⟩
  | encend | decend => exact h.congr (.inr rfl) rfl rfl rfl rfl rfl rfl
  | _ => exact h.congr (.inl rfl) rfl rfl rfl rfl rfl rfl

theorem raiseError_registersOk (h : RegistersOk s) (e : ErrorCode) (v : Info) : RegistersOk (raiseError e v s) :=
  h.congr (.inr rfl) rfl rfl rfl rfl rfl rfl

theorem exec_registersOk (h : RegistersOk s) (hx : exec i s = .next t) : RegistersOk t := by
  rcases exec_cases hx with ⟨e, v, rfl⟩ | heff
  · exact raiseError_registersOk h e v
  · exact heff.registersOk h

/-- What every command and every illegal word keeps, and the ports and reset respect, every step keeps. -/
theorem step_keeps {P : State → Prop} (hreset : ∀ host, P { State.reset with host := host })
    (hhost : ∀ s host, P s → P { s with host := host })
    (htake : ∀ s host, P s → P { s with host := host, rsp := none })
    (hillegal : ∀ s e v, P s → P (raiseError e v s)) (hexec : ∀ s t i, P s → exec i s = .next t → P t)
    (h : P s) (hs : step s = .next t) : P t := by
  rcases step_cases hs with rfl | ⟨w, rest, -, -, hw⟩ | ⟨rest, -, -, rfl⟩ | ⟨rest, -, rfl⟩
  · exact h
  · rcases runWord_cases hw with ⟨i, -, hi⟩ | ⟨-, rfl⟩
    · exact hexec _ _ i (hhost s rest h) hi
    · exact hillegal _ _ _ (hhost s rest h)
  · exact htake s rest h
  · exact hreset rest

/-- Settles O49: BUILD makes the tree registers from the counts, and every other command keeps or clears them. -/
theorem stepKeepsRegisterInvariants : Obligations.StepKeepsRegisterInvariants := by
  intro s t h hs
  exact step_keeps (fun _ => .of_noTree rfl rfl rfl rfl rfl rfl)
    (fun _ _ h => h.congr (.inl rfl) rfl rfl rfl rfl rfl rfl) (fun _ _ h => h.congr (.inl rfl) rfl rfl rfl rfl rfl rfl)
    (fun _ e v h => raiseError_registersOk h e v) (fun _ _ _ h hx => exec_registersOk h hx) h hs

end Sys2Proof.Machine
end

section
/-! SUPPORT. Paths in a tree that meets the tree invariants (41_derive.md R111), and the code table DERIVE writes from them
(R110, R112; 10_state.md R35, R40). -/

namespace Sys2Proof.Machine

variable {freq : Table Count} {node : Table NodeEntry} {root : NodeIdx}

/-! ### Paths -/

theorem followPath_append (i : NodeIdx) (xs ys : List Bool) :
    followPath node i (xs ++ ys) = (followPath node i xs).bind fun j => followPath node j ys := by
  induction xs generalizing i with
  | nil => rfl
  | cons d ds ih =>
    simp only [List.cons_append, followPath]
    split
    · exact ih _
    · rfl

theorem followPath_cons_of_internal {i left right : NodeIdx} {w : Count} (h : nodeAt node i = some (.internal w left right))
    (d : Bool) (ds : List Bool) : followPath node i (d :: ds) = followPath node (childOf d left right) ds := by
  rw [followPath, h]

/-- No path leaves a leaf. -/
theorem followPath_of_leaf {i j : NodeIdx} {a : Symbol} {w : Count} {word : List Bool}
    (h : nodeAt node i = some (.leaf a w)) (hp : followPath node i word = some j) : word = [] ∧ j = i := by
  cases word with
  | nil => exact ⟨rfl, (Option.some.inj hp).symm⟩
  | cons d ds => simp [followPath, h] at hp

variable {nleaf nnodes : Nat}

/-- An internal entry of a tree stands at or past the leaves. -/
theorem TreeOk.nleaf_le_of_internal (h : TreeOk freq node nleaf nnodes) {k : Nat} {w : Count} {left right : NodeIdx}
    (hk : tableGet node k = some (.internal w left right)) : nleaf ≤ k := by
  by_contra hlt
  obtain ⟨a, ha, -⟩ := h.leaves k (by omega)
  simp [hk] at ha

theorem TreeOk.child_lt (h : TreeOk freq node nleaf nnodes) {i left right : NodeIdx} {w : Count}
    (hi : i.toNat < nnodes) (he : nodeAt node i = some (.internal w left right)) (d : Bool) :
    (childOf d left right).toNat < i.toNat := by
  obtain ⟨w', left', right', -, -, he', -, hl, hr, -⟩ := h.internals _ (h.nleaf_le_of_internal he) hi
  rw [nodeAt_eq, he'] at he
  cases he
  cases d
  · exact hl
  · exact hr

/-- A leaf of a tree carries a symbol that is present. -/
theorem TreeOk.present_of_leaf (h : TreeOk freq node nleaf nnodes) {i : NodeIdx} {a : Symbol} {w : Count}
    (hi : i.toNat < nnodes) (he : nodeAt node i = some (.leaf a w)) : i.toNat < nleaf ∧ freqAt freq a ≠ 0#32 := by
  rw [nodeAt_eq] at he
  by_cases hlt : i.toNat < nleaf
  · obtain ⟨b, hb, hne⟩ := h.leaves _ hlt
    rw [hb] at he
    cases he
    exact ⟨hlt, hne⟩
  · obtain ⟨w', left', right', -, -, he', -⟩ := h.internals _ (by omega) hi
    simp [he] at he'

/-- Paths of a tree stay in the tree. -/
theorem TreeOk.followPath_lt (h : TreeOk freq node nleaf nnodes) {i j : NodeIdx} {word : List Bool}
    (hi : i.toNat < nnodes) (hp : followPath node i word = some j) : j.toNat < nnodes := by
  induction word generalizing i with
  | nil => exact Option.some.inj hp ▸ hi
  | cons d ds ih =>
    rw [followPath] at hp
    split at hp
    · exact ih (lt_trans (h.child_lt hi ‹_› d) hi) hp
    · cases hp

/-- Every node of a tree is reached from the root: its parent, of a higher index, is. -/
theorem TreeOk.exists_path (h : TreeOk freq node nleaf nnodes) (hroot : root.toNat = nnodes - 1) (i : NodeIdx)
    (hi : i.toNat < nnodes) : ∃ word, followPath node root word = some i := by
  induction hd : nnodes - i.toNat using Nat.strong_induction_on generalizing i with
  | _ d ih =>
    by_cases hlast : i.toNat + 1 < nnodes
    · have hone := h.oneParent _ hlast
      obtain ⟨k, hk, w, left, right, he, hchild⟩ :=
        mem_childIndices.1 (List.count_pos_iff.1 (by omega : 0 < (childIndices node nnodes).count i.toNat))
      have hroot_lt := root.isLt
      have hkn : (BitVec.ofNat 9 k).toNat = k := by rw [BitVec.toNat_ofNat]; omega
      have he : nodeAt node (BitVec.ofNat 9 k) = some (.internal w left right) := by rwa [nodeAt_eq, hkn]
      obtain ⟨dg, rfl⟩ : ∃ dg, i = childOf dg left right := by
        rcases hchild with hl | hr
        · exact ⟨false, BitVec.eq_of_toNat_eq hl⟩
        · exact ⟨true, BitVec.eq_of_toNat_eq hr⟩
      have hlt := h.child_lt (hkn.symm ▸ hk) he dg
      obtain ⟨word, hword⟩ := ih _ (by omega) (BitVec.ofNat 9 k) (by omega) rfl
      exact ⟨word ++ [dg], by rw [followPath_append, hword, Option.bind_some, followPath_cons_of_internal he, followPath]⟩
    · exact ⟨[], congrArg some (BitVec.eq_of_toNat_eq (by omega))⟩

/-! ### The digits of a path -/

/-- The digits of a path the walk has taken (10_state.md R35, R42). -/
def pathDigits (len : PathLen) (bits : PathBits) : List Bool := codeDigits ⟨true, len, bits⟩

/-- Every digit at or past the length is 0 (10_state.md R35). -/
def PaddedFrom (len : PathLen) (bits : PathBits) : Prop := ∀ k, len.toNat ≤ k → bits.getLsbD k = false

variable {len len' : PathLen} {bits : PathBits}

theorem getLsbD_appendDigit_of_padded (hp : PaddedFrom len bits) (hl : nextLen len = some len') (d : Bool) (k : Nat) :
    (appendDigit bits len d).getLsbD k = if k = len.toNat then d else bits.getLsbD k := by
  have hlen := nextLen_eq_some.1 hl
  have := len'.isLt
  exact getLsbD_appendDigit bits len d k (by omega) (hp _ le_rfl)

theorem PaddedFrom.append (hp : PaddedFrom len bits) (hl : nextLen len = some len') (d : Bool) :
    PaddedFrom len' (appendDigit bits len d) := by
  intro k hk
  have hlen := nextLen_eq_some.1 hl
  rw [getLsbD_appendDigit_of_padded hp hl, if_neg (by omega)]
  exact hp k (by omega)

theorem pathDigits_append (hp : PaddedFrom len bits) (hl : nextLen len = some len') (d : Bool) :
    pathDigits len' (appendDigit bits len d) = pathDigits len bits ++ [d] := by
  have hold : ∀ k ∈ List.range len.toNat, (appendDigit bits len d).getLsbD k = bits.getLsbD k := fun k hk => by
    have := List.mem_range.1 hk
    rw [getLsbD_appendDigit_of_padded hp hl, if_neg (by omega)]
  simp only [pathDigits, codeDigits, nextLen_eq_some.1 hl, List.range_succ, List.map_append, List.map_singleton]
  rw [List.map_congr_left hold, getLsbD_appendDigit_of_padded hp hl, if_pos rfl]

/-! ### The walk -/

/-- What holds of the stack and the table at every turn of the walk (41_derive.md R110): a stacked path leads to its node,
an entry written is the path to a leaf of its symbol, and each leaf has its entry or still lies below a stacked node. -/
structure WalkOk (node : Table NodeEntry) (root : NodeIdx) (stk : List StackEntry) (code : Table CodeEntry) : Prop where
  stacked : ∀ e ∈ stk, PaddedFrom e.len e.bits ∧ followPath node root (pathDigits e.len e.bits) = some e.node
  written : ∀ a, ∃ c, codeAt code a = some c ∧ (c = invalidCode ∨ c.valid = true ∧ PaddedFrom c.len c.bits ∧
    ∃ i w, followPath node root (codeDigits c) = some i ∧ nodeAt node i = some (.leaf a w))
  covered : ∀ word i a w, followPath node root word = some i → nodeAt node i = some (.leaf a w) →
    (∃ c, codeAt code a = some c ∧ c.valid = true) ∨ ∃ e ∈ stk, pathDigits e.len e.bits <+: word

theorem walkOk_start : WalkOk node root [⟨root, 0#8, 0#255⟩] clearedCode where
  stacked e he := by
    obtain rfl := List.mem_singleton.1 he
    exact ⟨fun k _ => BitVec.getLsbD_zero, rfl⟩
  written a := ⟨invalidCode, codeAt_clearedCode a, .inl rfl⟩
  covered word i a w _ _ := .inr ⟨_, List.mem_singleton_self _, List.nil_prefix⟩

/-- Below a stacked node a path goes on from that node. -/
theorem WalkOk.below {stk : List StackEntry} {code : Table CodeEntry} (h : WalkOk node root stk code) {e : StackEntry}
    (he : e ∈ stk) {word : List Bool} {i : NodeIdx} (hpre : pathDigits e.len e.bits <+: word)
    (hw : followPath node root word = some i) :
    ∃ rest, word = pathDigits e.len e.bits ++ rest ∧ followPath node e.node rest = some i := by
  obtain ⟨rest, rfl⟩ := hpre
  exact ⟨rest, rfl, by rwa [followPath_append, (h.stacked e he).2, Option.bind_some] at hw⟩

/-- The turn at a leaf writes the path as its symbol's entry. -/
theorem WalkOk.leaf {e : StackEntry} {stk : List StackEntry} {code : Table CodeEntry} {a : Symbol} {w : Count}
    (h : WalkOk node root (e :: stk) code) (he : nodeAt node e.node = some (.leaf a w)) :
    WalkOk node root stk (tablePut code a.toNat ⟨true, e.len, e.bits⟩) where
  stacked x hx := h.stacked x (List.mem_cons_of_mem _ hx)
  written b := by
    obtain ⟨hpad, hpath⟩ := h.stacked e List.mem_cons_self
    rw [codeAt_put]
    split
    · subst b
      exact ⟨_, rfl, .inr ⟨rfl, hpad, e.node, w, hpath, he⟩⟩
    · exact h.written b
  covered word i b wb hp hb := by
    rw [codeAt_put]
    by_cases hba : b = a
    · exact .inl ⟨_, if_pos hba, rfl⟩
    · rw [if_neg hba]
      refine (h.covered word i b wb hp hb).imp_right ?_
      rintro ⟨x, hx, hpre⟩
      rcases List.mem_cons.1 hx with rfl | hx
      · obtain ⟨rest, -, hrest⟩ := h.below List.mem_cons_self hpre hp
        obtain ⟨-, rfl⟩ := followPath_of_leaf he hrest
        rw [he] at hb
        cases hb
        exact absurd rfl hba
      · exact ⟨x, hx, hpre⟩

/-- The turn at an internal node stacks the paths to its two children. -/
theorem WalkOk.internal {e : StackEntry} {stk : List StackEntry} {code : Table CodeEntry} {w : Count}
    {left right : NodeIdx} (h : WalkOk node root (e :: stk) code)
    (he : nodeAt node e.node = some (.internal w left right)) (hl : nextLen e.len = some len) :
    WalkOk node root (⟨left, len, appendDigit e.bits e.len false⟩ :: ⟨right, len, appendDigit e.bits e.len true⟩ :: stk)
      code := by
  obtain ⟨hpad, hpath⟩ := h.stacked e List.mem_cons_self
  have hchild : ∀ d, PaddedFrom len (appendDigit e.bits e.len d) ∧
      followPath node root (pathDigits len (appendDigit e.bits e.len d)) = some (childOf d left right) := fun d =>
    ⟨hpad.append hl d, by
      rw [pathDigits_append hpad hl, followPath_append, hpath, Option.bind_some, followPath_cons_of_internal he,
        followPath]⟩
  refine ⟨fun x hx => ?_, h.written, fun word i a wa hp ha => (h.covered word i a wa hp ha).imp_right ?_⟩
  · rcases List.mem_cons.1 hx with rfl | hx
    · exact hchild false
    rcases List.mem_cons.1 hx with rfl | hx
    · exact hchild true
    · exact h.stacked x (List.mem_cons_of_mem _ hx)
  · rintro ⟨x, hx, hpre⟩
    rcases List.mem_cons.1 hx with rfl | hx
    · obtain ⟨rest, rfl, hrest⟩ := h.below List.mem_cons_self hpre hp
      cases rest with
      | nil =>
        obtain rfl := Option.some.inj hrest
        rw [he] at ha
        cases ha
      | cons d ds =>
        have hpre' : pathDigits len (appendDigit x.bits x.len d) <+: pathDigits x.len x.bits ++ d :: ds :=
          ⟨ds, by rw [pathDigits_append hpad hl, List.append_assoc, List.singleton_append]⟩
        cases d
        · exact ⟨_, List.mem_cons_self, hpre'⟩
        · exact ⟨_, List.mem_cons_of_mem _ List.mem_cons_self, hpre'⟩
    · exact ⟨x, List.mem_cons_of_mem _ (List.mem_cons_of_mem _ hx), hpre⟩

theorem deriveWalk_walkOk {fuel : Nat} {stk : List StackEntry} {code code' : Table CodeEntry}
    (h : WalkOk node root stk code) (hw : deriveWalk node fuel stk code = .ok code') : WalkOk node root [] code' :=
  deriveWalk_keeps (fun _ _ _ _ _ h he => h.leaf he) (fun _ _ _ _ _ _ _ h he hl => h.internal he hl) h hw

/-! ### The table -/

/-- At the end of the walk every symbol present has a codeword: its leaf has a path from the root. -/
theorem WalkOk.valid_of_present {code : Table CodeEntry} (h : WalkOk node root [] code)
    (ht : TreeOk freq node nleaf nnodes) (hroot : root.toNat = nnodes - 1) (hn : nleaf < nnodes) {a : Symbol}
    {c : CodeEntry} (hc : codeAt code a = some c) (hne : freqAt freq a ≠ 0#32) : c.valid = true := by
  obtain ⟨i, hi, he⟩ := ht.present a hne
  have hin : (BitVec.ofNat 9 i).toNat = i := by
    have := root.isLt
    rw [BitVec.toNat_ofNat]; omega
  have he : nodeAt node (BitVec.ofNat 9 i) = some (.leaf a (freqAt freq a)) := by rwa [nodeAt_eq, hin]
  obtain ⟨word, hword⟩ := ht.exists_path hroot (BitVec.ofNat 9 i) (by omega)
  rcases h.covered word _ a _ hword he with ⟨c', hc', hv⟩ | ⟨x, hx, -⟩
  · rw [hc] at hc'
    cases hc'
    exact hv
  · simp at hx

/-- At the end of the walk of a tree the table is that of the tree. -/
theorem WalkOk.codeOk {code : Table CodeEntry} (h : WalkOk node root [] code) (ht : TreeOk freq node nleaf nnodes)
    (hroot : root.toNat = nnodes - 1) (hn : nleaf < nnodes) {w : Count} {l r : NodeIdx}
    (hint : nodeAt node root = some (.internal w l r)) : CodeOk freq node root code := by
  intro a
  obtain ⟨c, hc, hwritten⟩ := h.written a
  have hvalid := h.valid_of_present ht hroot hn hc
  refine ⟨c, hc, ?_⟩
  rcases hwritten with rfl | ⟨hv, hpad, i, wi, hpath, he⟩
  · exact
      { validIff := ⟨nofun, hvalid⟩
        invalid := fun _ => rfl
        padding := fun k _ => BitVec.getLsbD_zero
        singleLeaf := nofun
        path := nofun }
  · exact
      { validIff := ⟨fun _ => (ht.present_of_leaf (ht.followPath_lt (by omega) hpath) he).2, hvalid⟩
        invalid := fun hv' => by simp [hv] at hv'
        padding := hpad
        singleLeaf := fun _ ⟨s, ws, hs⟩ => by simp [hint] at hs
        path := fun _ _ => ⟨i, wi, hpath, he⟩ }

/-- The table of a single leaf: the codeword "0" for its symbol and none for the others (41_derive.md R112). -/
theorem codeOk_single (ht : TreeOk freq node 1 1) {a : Symbol} {w : Count}
    (hroot0 : root = 0#9) (hroot : nodeAt node root = some (.leaf a w)) :
    CodeOk freq node root (tablePut clearedCode a.toNat ⟨true, 1#8, 0#255⟩) := by
  have hpresent : ∀ b, freqAt freq b ≠ 0#32 ↔ b = a := fun b => by
    constructor
    · intro hb
      obtain ⟨i, hi, he⟩ := ht.present b hb
      obtain rfl : i = 0 := by omega
      rw [hroot0, nodeAt_eq, show (0#9).toNat = 0 from rfl, he] at hroot
      cases hroot
      rfl
    · rintro rfl
      exact (ht.present_of_leaf (by simp [hroot0]) hroot).2
  have hnot : ¬ ∃ w l r, nodeAt node root = some (.internal w l r) := by simp [hroot]
  intro b
  rw [codeAt_put, codeAt_clearedCode]
  by_cases hb : b = a
  · rw [if_pos hb]
    exact ⟨_, rfl,
      { validIff := by simp [hpresent, hb]
        invalid := nofun
        padding := fun k _ => BitVec.getLsbD_zero
        singleLeaf := fun _ _ => rfl
        path := fun _ hi => absurd hi hnot }⟩
  · rw [if_neg hb]
    exact ⟨_, rfl,
      { validIff := by simp [hpresent, hb, invalidCode]
        invalid := fun _ => rfl
        padding := fun k _ => BitVec.getLsbD_zero
        singleLeaf := nofun
        path := nofun }⟩

/-- All DERIVE can write for a tree is the table of that tree (10_state.md R40). -/
theorem deriveCodes_codeOk {code : Table CodeEntry} (ht : TreeOk freq node nleaf nnodes) (hpos : 1 ≤ nleaf)
    (hn : nnodes = 2 * nleaf - 1) (hroot : root.toNat = nnodes - 1) (h : deriveCodes node root = .ok code) :
    CodeOk freq node root code := by
  unfold deriveCodes at h
  split at h
  · cases h
  · rename_i a w hleaf
    have hlt := (ht.present_of_leaf (by omega) hleaf).1
    obtain rfl : nleaf = 1 := by omega
    obtain rfl : nnodes = 1 := by omega
    cases h
    exact codeOk_single ht (BitVec.eq_of_toNat_eq hroot) hleaf
  · rename_i w l r hint
    have hle := ht.nleaf_le_of_internal hint
    exact (deriveWalk_walkOk walkOk_start h).codeOk ht hroot (by omega) hint

end Sys2Proof.Machine
end

section
/-! SUPPORT. The invariants of the machine (10_state.md R38 to R44) at reset, on every command and on every step. -/

namespace Sys2Proof.Machine

variable {s t : State} {i : Instr}

/-! ### The parts that need no tree -/

/-- A sum grows by one with the term of one member of the list. -/
theorem sum_map_succ_of_mem {α : Type} [DecidableEq α] {f g : α → Nat} {a : α} (hsame : g a = f a + 1)
    (hother : ∀ b, b ≠ a → g b = f b) {l : List α} (hl : l.Nodup) (ha : a ∈ l) :
    (l.map g).sum = (l.map f).sum + 1 := by
  have hrest : ∀ b ∈ l.erase a, g b = f b := fun b hb => hother b (hl.mem_erase_iff.1 hb).1
  rw [← List.sum_map_erase g ha, ← List.sum_map_erase f ha, List.map_congr_left hrest, hsame]
  omega

/-- One more symbol counted makes the sum of the counts one more (10_state.md R39). -/
theorem freqSum_writeFreq_succ {a : Symbol} {v : Count} (hv : v.toNat = (readFreq s a).toNat + 1) :
    freqSum (writeFreq s a v).mem.freq = freqSum s.mem.freq + 1 := by
  have hne : v ≠ 0#32 := by rintro rfl; simp at hv
  have hnodup : allSymbols.Nodup := allSymbols_ascending.imp fun hlt heq => by simp [heq] at hlt
  refine sum_map_succ_of_mem (f := fun b => (readFreq s b).toNat) (g := fun b => (readFreq (writeFreq s a v) b).toNat)
    ?_ (fun b hb => ?_) hnodup (mem_allSymbols a)
  · rw [readFreq_writeFreq_same_of_ne a hne, hv]
  · rw [readFreq_writeFreq_other s v hb]

theorem errFlag_zero (e : ErrorCode) : errFlag 0#7 e = false := by simp [errFlag]

/-- An error leaves its own flag set and its record (60_exceptions.md R174). -/
theorem raiseError_errorsOk (e : ErrorCode) (v : Info) (s : State) : ErrorsOk (raiseError e v s) := by
  have hset : errFlag (raiseError e v s).errflags e = true := by simp [errFlag_setErrFlag]
  exact ⟨fun h => by simp only [h, errFlag_zero, Bool.false_eq_true] at hset, .inr ⟨e, v, rfl, hset⟩⟩

theorem responseOk_ok (d : RspData) : responseOk ⟨0#4, d⟩ = true := by simp [responseOk]

theorem responseOk_error (e : ErrorCode) : responseOk ⟨errorNumber e, 0#264⟩ = true := by
  have : (errorNumber e).toNat ≤ 7 := by cases e <;> decide
  simp [responseOk, this]

/-- Outside a decode transaction nothing is asked of the pointer. -/
theorem PointerOk.of_ne (h : t.mode ≠ .dec) : PointerOk t := ⟨fun hm => absurd hm h, fun hm => absurd hm h⟩

/-! ### The invariants under the updates -/

/-- Settles O45: after reset every register is 0 and every table empty. -/
theorem invariantsHoldAtReset : Obligations.InvariantsHoldAtReset where
  mem := wf_reset
  registers := .of_noTree rfl rfl rfl rfl rfl rfl
  sum := by simp [State.reset, freqSum, freqAt, tableGet]
  tree := nofun
  rootWeight := nofun
  code := nofun
  pointer := .of_ne (by decide)
  errors := ⟨fun _ => rfl, .inl rfl⟩
  response := nofun
  queue := rfl
  stack := rfl

/-- The host's actions have no part in the invariants, and the response port only the form of what waits there. -/
theorem Inv.withPorts (h : Inv s) {rsp : Option Response} (hr : ∀ r, rsp = some r → responseOk r = true)
    (host : List HostAction) : Inv { s with rsp := rsp, host := host } :=
  { h with
    registers := h.registers.congr (.inl rfl) rfl rfl rfl rfl rfl rfl
    pointer := ⟨h.pointer.many, h.pointer.one⟩
    errors := ⟨h.errors.clear, h.errors.recorded⟩
    response := hr }

theorem Inv.respond (h : Inv s) (d : RspData) : Inv (respond d s) :=
  h.withPorts (rsp := some ⟨0#4, d⟩) (by rintro r ⟨⟩; exact responseOk_ok d) s.host

theorem Inv.raiseError (h : Inv s) (e : ErrorCode) (v : Info) : Inv (raiseError e v s) :=
  { h with
    registers := raiseError_registersOk h.registers e v
    pointer := .of_ne (by simp)
    errors := raiseError_errorsOk e v s
    response := by rintro r ⟨⟩; exact responseOk_error e }

/-- A move of the pointer and of `MODE` keeps the invariants where the new values meet theirs. -/
theorem Inv.withModePtr (h : Inv s) {mode : Mode} {ptr : NodeIdx} (henc : mode = .enc → s.cv = true)
    (hdec : mode = .dec → s.tv = true) (hptr : PointerOk { s with ptr := ptr, mode := mode }) :
    Inv { s with ptr := ptr, mode := mode } :=
  { h with
    registers := ⟨h.registers.cvTv, henc, hdec, h.registers.noTree, h.registers.tree⟩
    pointer := hptr
    errors := ⟨h.errors.clear, h.errors.recorded⟩ }

/-! ### The pointer -/

theorem single_eq_true_iff : single s = true ↔ s.tv = true ∧ s.nleaf.toNat = 1 := by
  simp [single, ← BitVec.toNat_inj]

/-- In a tree of more than one leaf the root is internal (10_state.md R36). -/
theorem Inv.root_internal (h : Inv s) (htv : s.tv = true) (hs : single s = false) :
    s.root.toNat < s.nnodes.toNat ∧ ∃ w l r, readNode s s.root = some (.internal w l r) := by
  obtain ⟨hpos, -, hnn, hroot, -⟩ := h.registers.tree htv
  have hne : s.nleaf.toNat ≠ 1 := fun h1 => by simp [single_eq_true_iff.2 ⟨htv, h1⟩] at hs
  obtain ⟨w, l, r, -, -, he, -⟩ := (h.tree htv).internals s.root.toNat (by omega) (by omega)
  exact ⟨by omega, w, l, r, he⟩

theorem Inv.root_eq_zero (h : Inv s) (hs : single s = true) : s.root = 0#9 := by
  obtain ⟨htv, hone⟩ := single_eq_true_iff.1 hs
  obtain ⟨-, -, hnn, hroot, -⟩ := h.registers.tree htv
  exact BitVec.eq_of_toNat_eq (by simp; omega)

/-- A tree whose root is internal has more than one leaf. -/
theorem Inv.not_single_of_internal (h : Inv s) (htv : s.tv = true) {w : Count} {l r : NodeIdx}
    (he : readNode s s.root = some (.internal w l r)) : single s = false := by
  have hle := (h.tree htv).nleaf_le_of_internal he
  obtain ⟨hpos, -, hnn, hroot, -⟩ := h.registers.tree htv
  refine Bool.eq_false_iff.2 fun hs => ?_
  have := (single_eq_true_iff.1 hs).2
  omega

/-- The root is where a decode transaction starts and where it returns to (43_decode.md R130, R131). -/
theorem Inv.decodeAtRoot (h : Inv s) (htv : s.tv = true) : Inv { s with ptr := s.root, mode := .dec } :=
  h.withModePtr (nofun) (fun _ => htv)
    ⟨fun _ hs => h.root_internal htv hs, fun _ hs => ⟨h.root_eq_zero hs, h.root_eq_zero hs⟩⟩

/-- A move to an internal child keeps the pointer in the tree (43_decode.md R131, R134). -/
theorem Inv.decodeAtChild (h : Inv s) (hmode : s.mode = .dec) {b : Bool} {w wr wp : Count} {rl rr l r l' r' : NodeIdx}
    (hroot : readNode s s.root = some (.internal wr rl rr)) (hptr : readNode s s.ptr = some (.internal wp l r))
    (hnext : readNode s (childOf b l r) = some (.internal w l' r')) : Inv { s with ptr := childOf b l r, mode := .dec } := by
  have htv := h.registers.decTv hmode
  have hs := h.not_single_of_internal htv hroot
  have hlt := (h.pointer.many hmode hs).1
  have hchild := (h.tree htv).child_lt hlt hptr b
  exact h.withModePtr (nofun) (fun _ => htv)
    ⟨fun _ _ => ⟨lt_trans hchild hlt, w, l', r', hnext⟩, fun _ hone => absurd hone (Bool.eq_false_iff.1 hs)⟩

/-! ### The commands that write tables -/

/-- SYM keeps `TOTAL` the sum of the counts; there is no tree yet for the counts to disagree with (40_build.md R92). -/
theorem Inv.countSymbol (h : Inv s) {a : Symbol} {count total : Count} (htv : s.tv = false)
    (hcount : count.toNat = (readFreq s a).toNat + 1) (htotal : total.toNat = s.total.toNat + 1) :
    Inv { writeFreq s a count with total := total } :=
  { h with
    mem := writeFreq_wf h.mem a count
    registers := ⟨h.registers.cvTv, h.registers.encCv, h.registers.decTv, h.registers.noTree,
      fun hv => by simp [htv] at hv⟩
    sum := by
      show total.toNat = freqSum (writeFreq s a count).mem.freq
      rw [freqSum_writeFreq_succ hcount, ← h.sum, htotal]
    tree := fun hv => by simp [htv] at hv
    rootWeight := fun hv => by simp [htv] at hv
    code := fun hv => by simp [h.registers.cv_of_noTree htv] at hv
    pointer := .of_ne fun hm => by simp [h.registers.decTv hm] at htv
    errors := ⟨h.errors.clear, h.errors.recorded⟩ }

theorem Inv.installTree (h : Inv s) {b : BuiltTree} (hmode : s.mode = .idle) (htv : s.tv = false)
    (htree : buildTree s.mem.freq s.mem.node = .ok b) (hregisters : RegistersOk (installTree b s)) :
    Inv (installTree b s) := by
  have hb := buildTree_ok htree
  obtain ⟨e, he, hweight⟩ := hb.weight
  exact
    { h with
      mem := installTree_wf h.mem htree
      registers := hregisters
      tree := fun _ => hb.tree
      rootWeight := fun _ => ⟨e, he, BitVec.eq_of_toNat_eq (hweight.trans h.sum.symm)⟩
      code := fun hcv => by simp [h.registers.cv_of_noTree htv] at hcv
      pointer := .of_ne (by simp [hmode])
      errors := ⟨h.errors.clear, h.errors.recorded⟩
      queue := rfl }

theorem Inv.installCode (h : Inv s) {code : Table CodeEntry} (hmode : s.mode = .idle) (htv : s.tv = true)
    (hcode : deriveCodes s.mem.node s.root = .ok code) (hregisters : RegistersOk (installCode code s)) :
    Inv (installCode code s) := by
  obtain ⟨hpos, -, hnn, hroot, -⟩ := h.registers.tree htv
  exact
    { h with
      mem := installCode_wf h.mem hcode
      registers := hregisters
      code := fun _ => deriveCodes_codeOk (h.tree htv) hpos hnn hroot hcode
      pointer := .of_ne (by simp [hmode])
      errors := ⟨h.errors.clear, h.errors.recorded⟩
      stack := rfl }

/-! ### Commands and steps -/

theorem Effect.inv (h : Inv s) (heff : Effect s i t) : Inv t := by
  have hregisters := heff.registersOk h.registers
  cases heff with
  | clr => exact (Inv.withPorts invariantsHoldAtReset h.response s.host).respond _
  | sym a count total mode tv room hcount htotal => exact (h.countSymbol tv hcount htotal).respond _
  | build b mode tv some tree =>
    exact (h.installTree mode tv tree (hregisters.congr (.inl rfl) rfl rfl rfl rfl rfl rfl)).respond _
  | derive code mode tv cv table =>
    exact (h.installCode mode tv table (hregisters.congr (.inl rfl) rfl rfl rfl rfl rfl rfl)).respond _
  | encbeg mode cv =>
    exact (h.withModePtr (mode := .enc) (ptr := s.ptr) (fun _ => cv) (nofun)
      (.of_ne nofun)).respond _
  | encend | decend =>
    exact (h.withModePtr (mode := .idle) (ptr := s.ptr) (nofun) (nofun)
      (.of_ne nofun)).respond _
  | decbeg mode tv => exact (h.decodeAtRoot tv).respond _
  | dbitEmit b a w wr wp rl rr l r mode root ptr next =>
    exact (mode ▸ h.decodeAtRoot (h.registers.decTv mode)).respond _
  | dbitMove b w wr wp rl rr l r l' r' mode root ptr next =>
    exact (mode ▸ h.decodeAtChild mode root ptr next).respond _
  | _ => exact h.respond _

theorem exec_inv (h : Inv s) (hx : exec i s = .next t) : Inv t := by
  rcases exec_cases hx with ⟨e, v, rfl⟩ | heff
  · exact h.raiseError e v
  · exact heff.inv h

/-- Settles O46: BUILD leaves a tree of the counts, DERIVE the table of that tree, DBIT a pointer inside it, and every
other command what was there. -/
theorem stepKeepsInvariants : Obligations.StepKeepsInvariants := by
  intro s t h hs
  have hnone : ∀ r : Response, none = some r → responseOk r = true := nofun
  exact step_keeps (fun host => Inv.withPorts invariantsHoldAtReset hnone host) (fun _ host h => h.withPorts h.response host)
    (fun _ host h => h.withPorts hnone host) (fun _ e v h => h.raiseError e v) (fun _ _ _ h hx => exec_inv h hx) h hs

end Sys2Proof.Machine
end

section
/-! SUPPORT. The canonical form of the memories (20_memory.md R50, R55; 10_state.md R45) on every command and every step. -/

namespace Sys2Proof.Machine

variable {s t : State} {i : Instr}

/-- SYM, BUILD and DERIVE write tables in canonical form, CLR empties all three, and every other command leaves them. -/
theorem Effect.mem_wf (h : s.mem.wf = true) (heff : Effect s i t) : t.mem.wf = true := by
  cases heff with
  | clr => exact wf_reset
  | sym a count => exact writeFreq_wf h a count
  | build b mode tv some tree => exact installTree_wf h tree
  | derive code mode tv cv table => exact installCode_wf h table
  | _ => exact h

theorem exec_mem_wf (h : s.mem.wf = true) (hx : exec i s = .next t) : t.mem.wf = true := by
  rcases exec_cases hx with ⟨e, v, rfl⟩ | heff
  · exact h
  · exact heff.mem_wf h

/-- Settles O48: an error and the ports leave the memories, reset empties them, and every command's writes keep the
canonical form. -/
theorem stepKeepsCanonicalMemory : Obligations.StepKeepsCanonicalMemory := by
  intro s t h hs
  exact step_keeps (P := fun s => s.mem.wf = true) (fun _ => wf_reset) (fun _ _ h => h) (fun _ _ h => h)
    (fun _ _ _ h => h) (fun _ _ _ h hx => exec_mem_wf h hx) h hs

end Sys2Proof.Machine
end

section
/-! SUPPORT. BUILD answers a tree for every table of counts that is not empty and whose sum fits a count (40_build.md R93,
R101): every queued node is written, and no sum of weights passes the sum of the counts. -/

namespace Sys2Proof.Machine

variable {freq : Table Count} {node : Table NodeEntry}

/-- Every node of a forest is written. -/
theorem ForestOk.exists_entry {b : TreeBuild} (h : ForestOk freq b) {i : NodeIdx} (hi : i.toNat < b.next) :
    ∃ e, nodeAt b.node i = some e := by
  by_cases hle : (presentSymbols freq).length ≤ i.toNat
  · obtain ⟨w, left, right, -, -, he, -⟩ := h.internal i.toNat hle hi
    exact ⟨_, he⟩
  · exact ⟨_, h.leaf _ _ (List.getElem?_eq_getElem (by omega))⟩

/-- Two written nodes whose weights together fit a count can be merged (40_build.md R96). -/
theorem mergedEntry_total {lo hi : NodeIdx} {el eh : NodeEntry} (hl : nodeAt node lo = some el)
    (hh : nodeAt node hi = some eh) (hw : (entryWeight el).toNat + (entryWeight eh).toNat ≤ Config.maxCount) :
    ∃ e, mergedEntry node lo hi = .ok e := by
  obtain ⟨w, hsum⟩ := addExact_of_le hw
  exact ⟨.internal w lo hi, by simp [mergedEntry, nodeWeight, hl, hh, hsum]⟩

/-- Two queued roots weigh no more than all of them together, which is the sum of the counts. -/
theorem ForestOk.pair_weight_le {b : TreeBuild} (h : ForestOk freq b) {lo hi : NodeIdx} {pq : List NodeIdx}
    (hpq : b.pq.Perm (lo :: hi :: pq)) : weightAt b.node lo + weightAt b.node hi ≤ freqSum freq := by
  rw [← h.weight, (hpq.map (weightAt b.node)).sum_eq, List.map_cons, List.map_cons, List.sum_cons, List.sum_cons]
  omega

theorem mergeStep_total {b : TreeBuild} (h : ForestOk freq b) (hsum : freqSum freq ≤ Config.maxCount)
    (hq : 1 < b.pq.length) : ∃ b', mergeStep b = .ok b' := by
  have hwritten : ∀ i ∈ b.pq, ∃ e, nodeAt b.node i = some e := fun i hi => h.exists_entry (h.queued_lt hi)
  obtain ⟨lo, pq1, h1⟩ := takeLeast_total (List.ne_nil_of_length_pos (by omega)) hwritten
  have hlength := takeLeast_length h1
  have hperm1 := takeLeast_perm h1
  obtain ⟨hi, pq2, h2⟩ := takeLeast_total (List.ne_nil_of_length_pos (by omega : 0 < pq1.length)) fun i hi =>
    hwritten i (hperm1.symm.subset (List.mem_cons_of_mem _ hi))
  have hperm : b.pq.Perm (lo :: hi :: pq2) := hperm1.trans ((takeLeast_perm h2).cons lo)
  obtain ⟨el, hl⟩ := hwritten lo (hperm.symm.subset (by simp))
  obtain ⟨eh, hh⟩ := hwritten hi (hperm.symm.subset (by simp))
  have hweight := h.pair_weight_le hperm
  rw [weightAt_of_some hl, weightAt_of_some hh] at hweight
  obtain ⟨e, he⟩ := mergedEntry_total hl hh (hweight.trans hsum)
  exact ⟨⟨tablePut b.node b.next e, pq2 ++ [BitVec.ofNat 9 b.next], b.next + 1⟩, by simp [mergeStep, h1, h2, he]⟩

/-- A table with a count in it has a symbol present. -/
theorem presentSymbols_ne_nil (hpos : freqSum freq ≠ 0) : presentSymbols freq ≠ [] := fun hnil =>
  hpos (by simp [freqSum_eq_sum_present, hnil])

/-- BUILD never stops for counts that are not all 0 and whose sum fits a count (40_build.md R93, R101). -/
theorem buildTree_total (node : Table NodeEntry) (hpos : freqSum freq ≠ 0) (hsum : freqSum freq ≤ Config.maxCount) :
    ∃ t, buildTree freq node = .ok t := by
  obtain ⟨b, hb, hforest⟩ := mergeLoop_total (P := ForestOk freq)
    (fun b hf hq => by
      obtain ⟨b', hs⟩ := mergeStep_total hf hsum hq
      exact ⟨b', hs, mergeStep_forest hf hq hs⟩)
    (fuel := (seedLeaves freq node).next) (seedLeaves_forest freq node)
  have hseeded : (seedLeaves freq node).pq ≠ [] := by
    simp [(seedLeaves_spec freq node).2.1, presentSymbols_ne_nil hpos]
  have hlength : b.pq.length = 1 := Nat.le_antisymm (mergeLoop_ends (seedLeaves_length freq node).le hb)
    (List.length_pos_of_ne_nil (mergeLoop_nonempty hseeded hb))
  obtain ⟨root, hroot⟩ := List.length_eq_one_iff.1 hlength
  exact ⟨⟨b.node, BitVec.ofNat 9 (seedLeaves freq node).next, BitVec.ofNat 9 b.next, root⟩, by simp [buildTree, hb, hroot]⟩

end Sys2Proof.Machine
end

section
/-! SUPPORT. DERIVE answers a table for every tree that meets the tree invariants (10_state.md R38): the walk visits no node
twice (70_reset_and_hazards.md R200), and no path passes 255 digits (00_scope.md R9). -/

namespace Sys2Proof.Machine

variable {freq : Table Count} {node : Table NodeEntry} {nleaf nnodes : Nat} {root : NodeIdx}

/-- Every node of a tree is written. -/
theorem TreeOk.exists_entry (h : TreeOk freq node nleaf nnodes) {i : NodeIdx} (hi : i.toNat < nnodes) :
    ∃ e, nodeAt node i = some e := by
  by_cases hleaf : i.toNat < nleaf
  · obtain ⟨a, ha, -⟩ := h.leaves _ hleaf
    exact ⟨_, ha⟩
  · obtain ⟨w, left, right, -, -, he, -⟩ := h.internals i.toNat (by omega) hi
    exact ⟨_, he⟩

/-! ### The nodes of a tree as children -/

/-- The children of one entry: those of an internal one, none of a leaf (10_state.md R33). -/
def childrenOf (node : Table NodeEntry) (k : Nat) : List Nat :=
  match tableGet node k with
  | some (.internal _ left right) => [left.toNat, right.toNat]
  | _ => []

theorem childIndices_eq_flatMap (node : Table NodeEntry) (n : Nat) :
    childIndices node n = (List.range n).flatMap (childrenOf node) := rfl

theorem childrenOf_of_leaf {i : NodeIdx} {a : Symbol} {w : Count} (h : nodeAt node i = some (.leaf a w)) :
    childrenOf node i.toNat = [] := by
  rw [nodeAt_eq] at h
  rw [childrenOf, h]

theorem childrenOf_of_internal {i left right : NodeIdx} {w : Count}
    (h : nodeAt node i = some (.internal w left right)) : childrenOf node i.toNat = [left.toNat, right.toNat] := by
  rw [nodeAt_eq] at h
  rw [childrenOf, h]

theorem TreeOk.childIndices_lt (h : TreeOk freq node nleaf nnodes) {j : Nat} (hj : j ∈ childIndices node nnodes) :
    j < nnodes := by
  obtain ⟨k, hk, w, left, right, he, hchild⟩ := mem_childIndices.1 hj
  obtain ⟨w', left', right', -, -, he', -, hl, hr, -⟩ := h.internals k (h.nleaf_le_of_internal he) hk
  rw [he'] at he
  cases he
  omega

/-- The root and the children are all nodes of a tree, each once (10_state.md R38, item 1). -/
theorem TreeOk.root_cons_childIndices (h : TreeOk freq node nleaf nnodes) (hroot : root.toNat + 1 = nnodes) :
    (root.toNat :: childIndices node nnodes).Perm (List.range nnodes) := by
  refine List.perm_iff_count.2 fun j => ?_
  rw [List.count_cons]
  rcases Nat.lt_trichotomy j root.toNat with hlt | rfl | hgt
  · rw [h.oneParent j (by omega), List.count_eq_one_of_mem List.nodup_range (List.mem_range.2 (by omega))]
    simp [hlt.ne']
  · have hfree := h.rootFree
    rw [show nnodes - 1 = root.toNat by omega] at hfree
    rw [hfree, List.count_eq_one_of_mem List.nodup_range (List.mem_range.2 (by omega))]
    simp
  · rw [List.count_eq_zero.2 fun hj => by have := h.childIndices_lt hj; omega,
      List.count_eq_zero.2 fun hj => by have := List.mem_range.1 hj; omega]
    simp [hgt.ne]

/-! ### The nodes the walk has visited -/

theorem nextLen_total {l : PathLen} (h : l.toNat < Config.maxDigits) : ∃ m, nextLen l = some m :=
  ⟨l + 1#8, if_pos h⟩

/-- What holds at every turn of the walk of the nodes it has visited and of its stack (41_derive.md R110): the visited and
the stacked nodes are the root and the children of the visited ones, and no stacked path is longer than the indices passed
on the way down allow. -/
structure VisitOk (node : Table NodeEntry) (root : NodeIdx) (nnodes : Nat) (seen : List Nat) (stk : List StackEntry) :
    Prop where
  visited : seen.Subperm (List.range nnodes)
  opened : (root.toNat :: seen.flatMap (childrenOf node)).Perm (seen ++ stk.map fun e => e.node.toNat)
  depth : ∀ e ∈ stk, e.len.toNat + e.node.toNat ≤ root.toNat

theorem visitOk_start (node : Table NodeEntry) (root : NodeIdx) (nnodes : Nat) :
    VisitOk node root nnodes [] [⟨root, 0#8, 0#255⟩] where
  visited := List.nil_subperm
  opened := .refl _
  depth e he := by
    obtain rfl := List.mem_singleton.1 he
    simp

variable {seen : List Nat} {stk : List StackEntry} {e : StackEntry}

/-- The nodes visited or stacked are different nodes of the tree. -/
theorem VisitOk.subperm (h : VisitOk node root nnodes seen stk) (ht : TreeOk freq node nleaf nnodes)
    (hroot : root.toNat + 1 = nnodes) : (seen ++ stk.map fun e => e.node.toNat).Subperm (List.range nnodes) := by
  obtain ⟨l, hl, hsub⟩ := h.visited
  have hopened : (root.toNat :: seen.flatMap (childrenOf node)).Subperm (root.toNat :: childIndices node nnodes) :=
    ((List.Perm.flatMap_right _ hl.symm).cons _).subperm.trans ((hsub.flatMap _).cons_cons _).subperm
  exact h.opened.symm.subperm.trans (hopened.trans (ht.root_cons_childIndices hroot).subperm)

/-- The next turn visits one more node of the tree. -/
theorem VisitOk.subperm_cons (h : VisitOk node root nnodes seen (e :: stk)) (ht : TreeOk freq node nleaf nnodes)
    (hroot : root.toNat + 1 = nnodes) : (e.node.toNat :: seen).Subperm (List.range nnodes) :=
  ((List.sublist_append_left _ _).cons_cons _).subperm.trans
    ((List.perm_middle.symm.subperm).trans (h.subperm ht hroot))

/-- A tree has as many turns as nodes: while one is stacked, not all are visited (70_reset_and_hazards.md R200). -/
theorem VisitOk.length_lt (h : VisitOk node root nnodes seen (e :: stk)) (ht : TreeOk freq node nleaf nnodes)
    (hroot : root.toNat + 1 = nnodes) : seen.length < nnodes := by
  simpa using (h.subperm_cons ht hroot).length_le

/-- The turn at a leaf stacks nothing. -/
theorem VisitOk.leaf (h : VisitOk node root nnodes seen (e :: stk)) (ht : TreeOk freq node nleaf nnodes)
    (hroot : root.toNat + 1 = nnodes) {a : Symbol} {w : Count} (he : nodeAt node e.node = some (.leaf a w)) :
    VisitOk node root nnodes (e.node.toNat :: seen) stk where
  visited := h.subperm_cons ht hroot
  opened := by
    rw [List.flatMap_cons, childrenOf_of_leaf he, List.nil_append]
    exact h.opened.trans List.perm_middle
  depth x hx := h.depth x (List.mem_cons_of_mem _ hx)

/-- The turn at an internal node stacks its two children, whose indices are below its own. -/
theorem VisitOk.internal (h : VisitOk node root nnodes seen (e :: stk)) (ht : TreeOk freq node nleaf nnodes)
    (hroot : root.toNat + 1 = nnodes) {w : Count} {left right : NodeIdx} {len : PathLen} {lbits rbits : PathBits}
    (he : nodeAt node e.node = some (.internal w left right)) (hl : nextLen e.len = some len) :
    VisitOk node root nnodes (e.node.toNat :: seen) (⟨left, len, lbits⟩ :: ⟨right, len, rbits⟩ :: stk) where
  visited := h.subperm_cons ht hroot
  opened := by
    have hopened := (h.opened.trans List.perm_middle).append_left [left.toNat, right.toNat]
    rw [List.flatMap_cons, childrenOf_of_internal he]
    exact (List.perm_middle.symm.trans hopened).trans (List.perm_append_comm_assoc _ (e.node.toNat :: seen) _)
  depth x hx := by
    have hdepth := h.depth e List.mem_cons_self
    have hlen := nextLen_eq_some.1 hl
    have hleft : left.toNat < e.node.toNat := ht.child_lt (by omega) he false
    have hright : right.toNat < e.node.toNat := ht.child_lt (by omega) he true
    rcases List.mem_cons.1 hx with rfl | hx
    · show len.toNat + left.toNat ≤ root.toNat
      omega
    rcases List.mem_cons.1 hx with rfl | hx
    · show len.toNat + right.toNat ≤ root.toNat
      omega
    · exact h.depth x (List.mem_cons_of_mem _ hx)

/-- The path to an internal node can grow: it passed internal nodes only, of which a tree has one fewer than leaves
(00_scope.md R9). -/
theorem VisitOk.exists_nextLen (h : VisitOk node root nnodes seen (e :: stk)) (ht : TreeOk freq node nleaf nnodes)
    (hroot : root.toNat + 1 = nnodes) (hnn : nnodes + 1 = 2 * nleaf) {w : Count}
    {left right : NodeIdx} (he : nodeAt node e.node = some (.internal w left right)) :
    ∃ len, nextLen e.len = some len := by
  have hdepth := h.depth e List.mem_cons_self
  have hinternal := ht.nleaf_le_of_internal he
  exact nextLen_total (by simp only [Config.maxDigits]; omega)

/-! ### The walk -/

/-- With a turn left for every node not yet visited the walk of a tree answers (41_derive.md R110). -/
theorem deriveWalk_total (ht : TreeOk freq node nleaf nnodes) (hroot : root.toNat + 1 = nnodes)
    (hnn : nnodes + 1 = 2 * nleaf) {fuel : Nat} (code : Table CodeEntry)
    (h : VisitOk node root nnodes seen stk) (hfuel : nnodes ≤ fuel + seen.length) :
    ∃ code', deriveWalk node fuel stk code = .ok code' := by
  induction fuel generalizing seen stk code with
  | zero =>
    cases stk with
    | nil => exact ⟨code, by rw [deriveWalk]⟩
    | cons e stk =>
      have := h.length_lt ht hroot
      omega
  | succ fuel ih =>
    cases stk with
    | nil => exact ⟨code, by rw [deriveWalk]⟩
    | cons e stk =>
      have hfuel' : nnodes ≤ fuel + (e.node.toNat :: seen).length := by
        rw [List.length_cons]
        omega
      have hlt : e.node.toNat < nnodes := by
        have := h.depth e List.mem_cons_self
        omega
      obtain ⟨⟨a, w⟩ | ⟨w, left, right⟩, he⟩ := ht.exists_entry hlt
      · rw [deriveWalk, he]
        exact ih _ (h.leaf ht hroot he) hfuel'
      · obtain ⟨len, hl⟩ := h.exists_nextLen ht hroot hnn he
        rw [deriveWalk, he]
        simp only [hl]
        exact ih _ (h.internal ht hroot he hl) hfuel'

/-- DERIVE never stops for a tree (41_derive.md R110, R112). -/
theorem deriveCodes_total (ht : TreeOk freq node nleaf nnodes) (hroot : root.toNat + 1 = nnodes)
    (hnn : nnodes + 1 = 2 * nleaf) : ∃ code, deriveCodes node root = .ok code := by
  obtain ⟨⟨a, w⟩ | ⟨w, left, right⟩, he⟩ := ht.exists_entry (i := root) (by omega)
  · exact ⟨tablePut clearedCode a.toNat ⟨true, 1#8, 0#255⟩, by rw [deriveCodes, he]⟩
  · rw [deriveCodes, he]
    exact deriveWalk_total ht hroot hnn clearedCode (visitOk_start node root nnodes) (by simp only [Config.maxNodes]; omega)

end Sys2Proof.Machine
end

section
/-! SUPPORT. No command and no step faults or is refused from a state that meets the invariants (10_state.md R38 to R44;
20_memory.md R56). -/

namespace Sys2Proof.Machine

variable {s : State}

/-! ### Reads and sums that the invariants make exist -/

/-- Every entry of `NODE` below `NNODES` is written (20_memory.md R56). -/
theorem Inv.exists_node (h : Inv s) (htv : s.tv = true) {i : NodeIdx} (hi : i.toNat < s.nnodes.toNat) :
    ∃ e, readNode s i = some e :=
  (h.tree htv).exists_entry hi

/-- While `CV = 1` every entry of `CODE` is written (20_memory.md R56). -/
theorem Inv.exists_code (h : Inv s) (hcv : s.cv = true) (a : Symbol) : ∃ e, readCode s a = some e :=
  (h.code hcv a).imp fun _ he => he.1

/-- A count is no more than `TOTAL` (10_state.md R39). -/
theorem Inv.readFreq_le (h : Inv s) (a : Symbol) : (readFreq s a).toNat ≤ s.total.toNat := by
  rw [h.sum]
  exact List.single_le_sum (by simp) _ (List.mem_map_of_mem (mem_allSymbols a))

/-! ### The commands that could stop -/

theorem execSym_total (h : Inv s) (a : Symbol) : ∃ t, execSym a s = .next t := by
  unfold execSym
  split
  · split
    · exact ⟨_, rfl⟩
    · rename_i hroom
      have hmax : s.total.toNat + (1#32).toNat ≤ Config.maxCount := by
        have := s.total.isLt
        simp only [Config.maxCount, BitVec.toNat_ofNat] at hroom ⊢
        omega
      obtain ⟨count, hcount⟩ := addExact_of_le ((Nat.add_le_add_right (h.readFreq_le a) _).trans hmax)
      obtain ⟨total, htotal⟩ := addExact_of_le hmax
      rw [hcount, htotal]
      exact ⟨_, rfl⟩
  · exact ⟨_, rfl⟩

theorem execBuild_total (h : Inv s) : ∃ t, execBuild s = .next t := by
  unfold execBuild
  split
  · split
    · exact ⟨_, rfl⟩
    · rename_i hne
      have hpos : freqSum s.mem.freq ≠ 0 := fun h0 => hne (BitVec.eq_of_toNat_eq (h.sum.trans h0))
      have hmax : freqSum s.mem.freq ≤ Config.maxCount := by
        have := s.total.isLt
        rw [← h.sum]
        simp only [Config.maxCount]
        omega
      obtain ⟨t, ht⟩ := buildTree_total s.mem.node hpos hmax
      rw [ht]
      exact ⟨_, rfl⟩
  · exact ⟨_, rfl⟩

theorem execDerive_total (h : Inv s) : ∃ t, execDerive s = .next t := by
  unfold execDerive
  split
  · rename_i hlegal
    obtain ⟨-, htv, -⟩ := hlegal
    obtain ⟨hpos, -, hnn, hroot, -⟩ := h.registers.tree htv
    obtain ⟨code, hcode⟩ := deriveCodes_total (h.tree htv) (root := s.root) (by omega) (by omega)
    rw [hcode]
    exact ⟨_, rfl⟩
  · exact ⟨_, rfl⟩

theorem execEnc_total (h : Inv s) (a : Symbol) : ∃ t, execEnc a s = .next t := by
  unfold execEnc
  split
  · rename_i hmode
    obtain ⟨e, he⟩ := h.exists_code (h.registers.encCv hmode) a
    rw [he]
    dsimp only
    split <;> exact ⟨_, rfl⟩
  · exact ⟨_, rfl⟩

/-- A move of the decoder to a written node answers (43_decode.md R131). -/
theorem decodeMove_total {nxt : NodeIdx} {e : NodeEntry} (he : readNode s nxt = some e) :
    ∃ t, decodeMove nxt s = .next t := by
  unfold decodeMove
  rw [he]
  cases e <;> exact ⟨_, rfl⟩

theorem execDbit_total (h : Inv s) (b : Bool) : ∃ t, execDbit b s = .next t := by
  unfold execDbit
  split
  · rename_i hmode
    have htv := h.registers.decTv hmode
    obtain ⟨⟨a, w⟩ | ⟨w, left, right⟩, hroot, -⟩ := h.rootWeight htv
    · rw [hroot]
      exact ⟨_, rfl⟩
    · obtain ⟨hlt, wp, l, r, hptr⟩ := h.pointer.many hmode (h.not_single_of_internal htv hroot)
      obtain ⟨e, he⟩ := h.exists_node htv (lt_trans ((h.tree htv).child_lt hlt hptr b) hlt)
      rw [hroot, hptr]
      exact decodeMove_total he
  · exact ⟨_, rfl⟩

theorem execRdnode_total (h : Inv s) (i : NodeIdx) : ∃ t, execRdnode i s = .next t := by
  unfold execRdnode
  split
  · split
    · exact ⟨_, rfl⟩
    · rename_i htv hrange
      obtain ⟨e, he⟩ := h.exists_node htv (Nat.lt_of_not_le hrange)
      rw [he]
      exact ⟨_, rfl⟩
  · exact ⟨_, rfl⟩

theorem execRdcode_total (h : Inv s) (a : Symbol) : ∃ t, execRdcode a s = .next t := by
  unfold execRdcode
  split
  · rename_i hcv
    obtain ⟨e, he⟩ := h.exists_code hcv a
    rw [he]
    exact ⟨_, rfl⟩
  · exact ⟨_, rfl⟩

/-! ### The commands that read no table -/

theorem execEncbeg_total (s : State) : ∃ t, execEncbeg s = .next t := by
  unfold execEncbeg
  split <;> exact ⟨_, rfl⟩

theorem execEncend_total (s : State) : ∃ t, execEncend s = .next t := by
  unfold execEncend
  split <;> exact ⟨_, rfl⟩

theorem execDecbeg_total (s : State) : ∃ t, execDecbeg s = .next t := by
  unfold execDecbeg
  split <;> exact ⟨_, rfl⟩

theorem execDecend_total (s : State) : ∃ t, execDecend s = .next t := by
  unfold execDecend
  split
  · split <;> exact ⟨_, rfl⟩
  · exact ⟨_, rfl⟩

theorem execRdreg_total (r : RegNum) (s : State) : ∃ t, execRdreg r s = .next t := by
  unfold execRdreg
  split <;> exact ⟨_, rfl⟩

/-! ### Commands and steps -/

theorem exec_total (h : Inv s) (i : Instr) : ∃ t, exec i s = .next t := by
  cases i with
  | nop | clr | rdfreq | reservedF => exact ⟨_, rfl⟩
  | sym a => exact execSym_total h a
  | build => exact execBuild_total h
  | derive => exact execDerive_total h
  | encbeg => exact execEncbeg_total s
  | enc a => exact execEnc_total h a
  | encend => exact execEncend_total s
  | decbeg => exact execDecbeg_total s
  | dbit b => exact execDbit_total h b
  | decend => exact execDecend_total s
  | rdreg r => exact execRdreg_total r s
  | rdnode i => exact execRdnode_total h i
  | rdcode a => exact execRdcode_total h a

theorem runWord_total (h : Inv s) (w : CmdWord) : ∃ t, runWord w s = .next t := by
  unfold runWord
  split
  · exact exec_total h _
  · exact ⟨_, rfl⟩

/-- Settles O47: SYM's and BUILD's sums fit because `TOTAL` is the sum of the counts, the merge loop and the walk end on the
trees the invariants describe, and every entry a command reads is written; the ports and reset always answer. -/
theorem stepNeverStops : Obligations.StepNeverStops := by
  intro s h
  unfold step hostStep
  split
  · exact ⟨_, rfl⟩
  · split
    · exact runWord_total (h.withPorts h.response _) _
    · exact ⟨_, rfl⟩
  · split <;> exact ⟨_, rfl⟩
  · exact ⟨_, rfl⟩

end Sys2Proof.Machine
end

section
/-! SUPPORT. The decoder and the encoder undo each other (30_encoding.md R70 to R74, R84, R86). A word is taken as its
fields in numbers: the opcode `w[15:12]` is `w / 4096`, the reserved bits and the operand `w[11:0]` are `w % 4096`, and the
operand field `w[8:0]` is `w % 512`. -/

namespace Sys2Proof

/-! ### The fields of a word -/

theorem toNat_field (w : CmdWord) (k n : Nat) : (w.extractLsb' k n).toNat = w.toNat / 2 ^ k % 2 ^ n := by
  rw [BitVec.extractLsb'_toNat, Nat.shiftRight_eq_div_pow]

/-- A field is all zeros exactly when its number is 0. -/
theorem field_eq_zero_iff (w : CmdWord) (k n : Nat) : w.extractLsb' k n = 0#n ↔ w.toNat / 2 ^ k % 2 ^ n = 0 := by
  rw [← BitVec.toNat_inj, toNat_field, BitVec.toNat_ofNat, Nat.zero_mod]

theorem toNat_opcodeOf (w : CmdWord) : (opcodeOf w).toNat = w.toNat / 4096 := by
  have := w.isLt
  rw [opcodeOf, toNat_field]
  omega

theorem toNat_zero_append {m n : Nat} (x : BitVec n) : (0#m ++ x).toNat = x.toNat := by simp

@[simp] theorem opcodeOf_encode (i : Instr) : opcodeOf (encode i) = instrOpcode i := Laws.EncodedOpcode.holds i

theorem toNat_encode (i : Instr) : (encode i).toNat = (instrOpcode i).toNat * 4096 + (instrLowBits i).toNat :=
  Machine.toNat_append_eq _ _

theorem lowField_encode (i : Instr) : (encode i).extractLsb' 0 12 = instrLowBits i := BitVec.extractLsb'_append_eq_right

theorem lowBits_encode (i : Instr) : (encode i).toNat % 4096 = (instrLowBits i).toNat := by
  have := (instrLowBits i).isLt
  rw [toNat_encode]
  omega

/-- The opcode and the twelve bits below it make up the word (R71). -/
theorem encode_eq_of_fields {i : Instr} {w : CmdWord} (hop : opcodeOf w = instrOpcode i)
    (hlow : w.toNat % 4096 = (instrLowBits i).toNat) : encode i = w := by
  apply BitVec.eq_of_toNat_eq
  rw [toNat_encode, ← hop, toNat_opcodeOf]
  omega

/-- No command uses the bits `[11:9]` (R71). -/
theorem instrLowBits_lt {i : Instr} (h : instrWellFormed i = true) : (instrLowBits i).toNat < 512 := by
  cases i with
  | nop | clr | build | derive | encbeg | encend | decbeg | decend => decide
  | sym | enc | rdfreq | rdcode | dbit | rdreg | rdnode => rw [instrLowBits, toNat_zero_append]; omega
  | reservedF rest => cases h

/-! ### The operand formats (R72) -/

section

variable {i j : Instr} {w : CmdWord}

/-- The upper `k` of the nine operand bits are 0 and the lower `n` are the operand: the operand is the whole field. -/
theorem operand_iff {k n : Nat} (hkn : n + k = 9) (f : BitVec n → Instr) :
    w.extractLsb' n k = 0#k ∧ f (w.extractLsb' 0 n) = i ↔ ∃ x, f x = i ∧ w.toNat % 512 = x.toNat := by
  have hsplit : w.toNat % 512 = w.toNat % 2 ^ n + 2 ^ n * (w.toNat / 2 ^ n % 2 ^ k) := by
    rw [← Nat.mod_mul, ← pow_add, hkn]; rfl
  have hfield : (w.extractLsb' 0 n).toNat = w.toNat % 2 ^ n := by simp
  rw [field_eq_zero_iff]
  constructor
  · rintro ⟨hzero, hf⟩
    exact ⟨_, hf, by rw [hsplit, hzero, hfield]; rfl⟩
  · rintro ⟨x, rfl, hx⟩
    have hzero : w.toNat / 2 ^ n % 2 ^ k = 0 := by
      by_contra hne
      have := Nat.le_mul_of_pos_right (2 ^ n) (Nat.pos_of_ne_zero hne)
      omega
    rw [hzero] at hsplit
    exact ⟨hzero, congrArg f (BitVec.eq_of_toNat_eq (by omega))⟩

theorem ite_eq_ok {p : Prop} [Decidable p] {r : Illegal} :
    (if p then .ok j else .error r : Except Illegal Instr) = .ok i ↔ p ∧ j = i := by
  split <;> simp [*]

theorem decodeN_eq_ok : decodeN j w = .ok i ↔ j = i ∧ w.toNat % 512 = 0 := by
  rw [decodeN, ite_eq_ok, field_eq_zero_iff, and_comm, pow_zero, Nat.div_one]; rfl

theorem decodeS_eq_ok {f : Symbol → Instr} : decodeS f w = .ok i ↔ ∃ a, f a = i ∧ w.toNat % 512 = a.toNat := by
  rw [decodeS, ite_eq_ok, operand_iff rfl]

/-- The one bit of a field of width 1. -/
theorem toNat_getLsbD_zero (x : BitVec 1) : (x.getLsbD 0).toNat = x.toNat := by
  revert x
  decide

theorem decodeB_eq_ok {f : Bool → Instr} : decodeB f w = .ok i ↔ ∃ b, f b = i ∧ w.toNat % 512 = b.toNat := by
  have hbit : w.getLsbD 0 = (w.extractLsb' 0 1).getLsbD 0 := by simp
  rw [decodeB, ite_eq_ok, hbit, operand_iff rfl fun x : BitVec 1 => f (x.getLsbD 0)]
  constructor
  · rintro ⟨x, hf, hx⟩
    exact ⟨_, hf, hx.trans (toNat_getLsbD_zero x).symm⟩
  · rintro ⟨b, hf, hb⟩
    exact ⟨.ofBool b, by simpa using hf, by rw [hb, BitVec.toNat_ofBool]⟩

theorem decodeI_eq_ok {f : NodeIdx → Instr} : decodeI f w = .ok i ↔ ∃ n, f n = i ∧ w.toNat % 512 = n.toNat := by
  rw [← operand_iff (k := 0) rfl, decodeI, Except.ok.injEq]
  exact (and_iff_right (BitVec.eq_nil _)).symm

theorem decodeR_eq_ok {f : RegNum → Instr} : decodeR f w = .ok i ↔ ∃ r, f r = i ∧ w.toNat % 512 = r.toNat := by
  rw [decodeR, ite_eq_ok, operand_iff rfl]

end

/-! ### Commands and the reserved opcode (R74, R75) -/

theorem instrOpcode_eq_reserved_iff {i : Instr} : instrOpcode i = 0xF#4 ↔ instrWellFormed i = false := by
  cases i <;> simp [instrOpcode, instrWellFormed]

theorem decode_of_reserved {w : CmdWord} (h : opcodeOf w = 0xF#4) : decode w = .ok (.reservedF (w.extractLsb' 0 12)) :=
  if_pos h

/-- Below any other opcode the bits `[11:9]` are 0 and the operand decides (R86). -/
theorem decode_of_command {w : CmdWord} {i : Instr} (h : opcodeOf w ≠ 0xF#4) :
    decode w = .ok i ↔ w.toNat % 4096 < 512 ∧ decodeOperand w = .ok i := by
  have hres : w.extractLsb' 9 3 = 0#3 ↔ w.toNat % 4096 < 512 := by
    rw [field_eq_zero_iff]
    omega
  rw [decode, if_neg h, ← hres]
  split <;> simp_all

/-! ### Decoding an encoded instruction -/

/-- Each command by its format: the operand the decoder reads is the one the encoder wrote. -/
theorem decodeOperand_encode {i : Instr} (h : instrWellFormed i = true) : decodeOperand (encode i) = .ok i := by
  have hlow : (encode i).toNat % 512 = (instrLowBits i).toNat := by
    have := lowBits_encode i
    have := instrLowBits_lt h
    omega
  rw [decodeOperand, opcodeOf_encode]
  cases i with
  | nop | clr | build | derive | encbeg | encend | decbeg | decend => exact decodeN_eq_ok.2 ⟨rfl, hlow⟩
  | sym a | enc a | rdfreq a | rdcode a => exact decodeS_eq_ok.2 ⟨a, rfl, hlow.trans (toNat_zero_append a)⟩
  | dbit b => exact decodeB_eq_ok.2 ⟨b, rfl, hlow.trans ((toNat_zero_append _).trans (BitVec.toNat_ofBool b))⟩
  | rdreg r => exact decodeR_eq_ok.2 ⟨r, rfl, hlow.trans (toNat_zero_append r)⟩
  | rdnode n => exact decodeI_eq_ok.2 ⟨n, rfl, hlow.trans (toNat_zero_append n)⟩
  | reservedF rest => cases h

theorem decode_encode (i : Instr) : decode (encode i) = .ok i := by
  cases h : instrWellFormed i with
  | true =>
    have hlow := (lowBits_encode i).trans_lt (instrLowBits_lt h)
    exact (decode_of_command (by simp [instrOpcode_eq_reserved_iff, h])).2 ⟨hlow, decodeOperand_encode h⟩
  | false =>
    cases i with
    | reservedF rest => rw [decode_of_reserved (opcodeOf_encode _), lowField_encode]; rfl
    | _ => cases h

/-! ### Encoding what a word decodes to -/

/-- Each opcode by its format: no bit of the operand field is lost. -/
theorem decodeOperand_fields {w : CmdWord} {i : Instr} (hF : opcodeOf w ≠ 0xF#4) (h : decodeOperand w = .ok i) :
    opcodeOf w = instrOpcode i ∧ w.toNat % 512 = (instrLowBits i).toNat := by
  unfold decodeOperand at h
  split at h
  case h_1 hop | h_2 hop | h_4 hop | h_5 hop | h_6 hop | h_8 hop | h_9 hop | h_11 hop =>
    obtain ⟨rfl, hlow⟩ := decodeN_eq_ok.1 h
    exact ⟨BitVec.eq_of_toNat_eq hop, hlow⟩
  case h_3 hop | h_7 hop | h_13 hop | h_15 hop =>
    obtain ⟨a, rfl, hlow⟩ := decodeS_eq_ok.1 h
    exact ⟨BitVec.eq_of_toNat_eq hop, hlow.trans (toNat_zero_append a).symm⟩
  case h_10 hop =>
    obtain ⟨b, rfl, hlow⟩ := decodeB_eq_ok.1 h
    exact ⟨BitVec.eq_of_toNat_eq hop, hlow.trans ((toNat_zero_append _).trans (BitVec.toNat_ofBool b)).symm⟩
  case h_12 hop =>
    obtain ⟨r, rfl, hlow⟩ := decodeR_eq_ok.1 h
    exact ⟨BitVec.eq_of_toNat_eq hop, hlow.trans (toNat_zero_append r).symm⟩
  case h_14 hop =>
    obtain ⟨n, rfl, hlow⟩ := decodeI_eq_ok.1 h
    exact ⟨BitVec.eq_of_toNat_eq hop, hlow.trans (toNat_zero_append n).symm⟩
  case h_16 =>
    have := (opcodeOf w).isLt
    have hne : (opcodeOf w).toNat ≠ 15 := fun hop => hF (BitVec.eq_of_toNat_eq hop)
    simp only [imp_false] at *
    omega

theorem encode_of_decode {w : CmdWord} {i : Instr} (h : decode w = .ok i) : encode i = w := by
  by_cases hF : opcodeOf w = 0xF#4
  · rw [decode_of_reserved hF] at h
    cases h
    exact encode_eq_of_fields hF (by simp [instrLowBits])
  · obtain ⟨hres, h⟩ := (decode_of_command hF).1 h
    obtain ⟨hop, hlow⟩ := decodeOperand_fields hF h
    exact encode_eq_of_fields hop (by omega)

/-- Settles O1: by the format of each command, and for the reserved opcode by the field it keeps whole. -/
theorem decodeEncodeAgree : Obligations.DecodeEncodeAgree := decode_encode

/-- Settles O2: the opcode and the operand the decoder reads are all sixteen bits of the word. -/
theorem decodedWordIsItsEncoding : Obligations.DecodedWordIsItsEncoding := fun _ _ => encode_of_decode

/-- Settles O4: each word is the encoding of the command beside it. -/
theorem decodesTheWordsOfTheSpec : Obligations.DecodesTheWordsOfTheSpec :=
  ⟨decode_encode (.sym 0x61#8), decode_encode (.enc 0x62#8), decode_encode (.dbit true), decode_encode (.rdnode 4#9),
    decode_encode (.rdreg 6#4), decode_encode .build⟩

end Sys2Proof
end

section
/-! SUPPORT. The match and mask table of 30_encoding.md R74 against the decoder: a row covers the words whose opcode is its
own and whose bits its format requires to be 0 are 0 (R72), and these are the words of its command. -/

namespace Sys2Proof

variable {w : CmdWord} {row : OpcodeRow} {i : Instr}

/-! ### Masks -/

theorem append_eq_append_iff {m n : Nat} {a c : BitVec m} {b d : BitVec n} : a ++ b = c ++ d ↔ a = c ∧ b = d := by
  constructor
  · intro h
    have hhigh := congrArg (BitVec.extractLsb' n m) h
    have hlow := congrArg (BitVec.extractLsb' 0 n) h
    simp only [BitVec.extractLsb'_append_eq_left, BitVec.extractLsb'_append_eq_right] at hhigh hlow
    exact ⟨hhigh, hlow⟩
  · rintro ⟨rfl, rfl⟩
    rfl

theorem opcode_append_low (w : CmdWord) : opcodeOf w ++ w.extractLsb' 0 12 = w := BitVec.extractLsb'_append_extractLsb'

/-- A mask compares its upper four bits with the opcode and its lower twelve with the bits below it (R71). -/
theorem and_append_eq_iff (w : CmdWord) (c e : Opcode) (d f : BitVec 12) :
    w &&& (c ++ d) = e ++ f ↔ opcodeOf w &&& c = e ∧ w.extractLsb' 0 12 &&& d = f := by
  rw [← append_eq_append_iff, ← BitVec.and_append, opcode_append_low]

theorem opcode_and_mask (w : CmdWord) : opcodeOf w &&& 0xF#4 = opcodeOf w := BitVec.and_allOnes

/-- The width of the operand of each format (R72). -/
def operandWidth : Format → Nat
  | .n => 0
  | .s => 8
  | .b => 1
  | .i => 9
  | .r => 4

/-- The bits `[11:0]` a format requires to be 0: those above its operand (R71, R72). -/
def zeroMask (f : Format) : BitVec 12 := BitVec.allOnes 12 <<< operandWidth f

theorem zeroMask_eq (f : Format) : 0x0E00#16 ||| formatZeroBits f = 0#4 ++ zeroMask f := by cases f <;> decide

/-- The bits from `n` up are 0 exactly in the numbers below `2 ^ n`. -/
theorem and_allOnes_shiftLeft_eq_zero_iff {m : Nat} (x : BitVec m) (n : Nat) :
    x &&& BitVec.allOnes m <<< n = 0#m ↔ x.toNat < 2 ^ n := by
  have hle : x.toNat / 2 ^ n * 2 ^ n < 2 ^ m := (Nat.div_mul_le_self _ _).trans_lt x.isLt
  rw [← BitVec.shiftLeft_ushiftRight, ← BitVec.toNat_inj, BitVec.toNat_shiftLeft, BitVec.toNat_ushiftRight,
    Nat.shiftLeft_eq, Nat.shiftRight_eq_div_pow, Nat.mod_eq_of_lt hle]
  simp [Nat.div_eq_zero_iff]

/-- The bits a format requires to be 0 are 0 exactly when the operand is all there is below the opcode. -/
theorem and_zeroMask_eq_zero_iff (w : CmdWord) (f : Format) :
    w &&& (0x0E00#16 ||| formatZeroBits f) = 0#16 ↔ w.toNat % 4096 < 2 ^ operandWidth f := by
  rw [zeroMask_eq]
  refine (and_append_eq_iff w 0#4 0#4 (zeroMask f) 0#12).trans ?_
  rw [zeroMask, and_allOnes_shiftLeft_eq_zero_iff]
  simp

/-! ### The rows (R74) -/

theorem mask_eq (hrow : row ∈ opcodeRows) : row.mask = 0xF#4 ++ zeroMask row.format ∧ row.matchBits = row.opcode ++ 0#12 := by
  revert row
  decide

theorem opcode_ne_reserved (hrow : row ∈ opcodeRows) : row.opcode ≠ 0xF#4 := by
  revert row
  decide

/-- No two rows have one opcode. -/
theorem row_eq_of_opcode_eq {row' : OpcodeRow} (hrow : row ∈ opcodeRows) (hrow' : row' ∈ opcodeRows)
    (h : row.opcode = row'.opcode) : row = row' :=
  List.inj_on_of_nodup_map (f := OpcodeRow.opcode) (by decide) hrow hrow' h

/-- Every opcode but the reserved one has a row. -/
theorem exists_row_of_opcode {op : Opcode} (h : op ≠ 0xF#4) : ∃ row ∈ opcodeRows, row.opcode = op := by
  revert op
  decide

/-- What a row covers: its opcode, and 0 in every bit its format requires to be 0 (R72, R74). -/
theorem covers_iff (hrow : row ∈ opcodeRows) :
    w &&& row.mask = row.matchBits ↔ opcodeOf w = row.opcode ∧ w &&& (0x0E00#16 ||| formatZeroBits row.format) = 0#16 := by
  obtain ⟨hmask, hmatch⟩ := mask_eq hrow
  have hlow := and_append_eq_iff w 0#4 0#4 (zeroMask row.format) 0#12
  rw [BitVec.and_zero, and_iff_right rfl] at hlow
  rw [hmask, hmatch, and_append_eq_iff, opcode_and_mask, zeroMask_eq]
  exact and_congr_right' hlow.symm

/-! ### The words of a row are the words of its command -/

theorem exists_toNat_iff {k n : Nat} : (∃ x : BitVec n, k = x.toNat) ↔ k < 2 ^ n :=
  ⟨fun ⟨x, h⟩ => h ▸ x.isLt, fun h => ⟨.ofNat n k, by rw [BitVec.toNat_ofNat, Nat.mod_eq_of_lt h]⟩⟩

theorem exists_boolToNat_iff {k : Nat} : (∃ b : Bool, k = b.toNat) ↔ k < 2 ^ 1 := by
  simp only [Bool.exists_bool, Bool.toNat_false, Bool.toNat_true]
  omega

theorem decodeN_isOk_iff : (∃ j, decodeN i w = .ok j) ↔ w.toNat % 512 < 2 ^ operandWidth .n := by
  simp [decodeN_eq_ok, operandWidth]

theorem decodeS_isOk_iff {f : Symbol → Instr} : (∃ j, decodeS f w = .ok j) ↔ w.toNat % 512 < 2 ^ operandWidth .s := by
  simp [decodeS_eq_ok, exists_toNat_iff, operandWidth]

theorem decodeB_isOk_iff {f : Bool → Instr} : (∃ j, decodeB f w = .ok j) ↔ w.toNat % 512 < 2 ^ operandWidth .b := by
  simp only [decodeB_eq_ok, exists_comm (α := Instr), exists_and_right, exists_eq', true_and]
  exact exists_boolToNat_iff

theorem decodeI_isOk_iff {f : NodeIdx → Instr} : (∃ j, decodeI f w = .ok j) ↔ w.toNat % 512 < 2 ^ operandWidth .i := by
  simp [decodeI_eq_ok, exists_toNat_iff, operandWidth]

theorem decodeR_isOk_iff {f : RegNum → Instr} : (∃ j, decodeR f w = .ok j) ↔ w.toNat % 512 < 2 ^ operandWidth .r := by
  simp [decodeR_eq_ok, exists_toNat_iff, operandWidth]

/-- The decoder reads the operand in the format of the row of the opcode, row by row (R74, R86). -/
theorem decodeOperand_isOk_iff (hrow : row ∈ opcodeRows) (hop : opcodeOf w = row.opcode) :
    (∃ i, decodeOperand w = .ok i) ↔ w.toNat % 512 < 2 ^ operandWidth row.format := by
  rw [decodeOperand, hop]
  clear hop
  revert row
  simp only [opcodeRows, List.cons_append, List.nil_append, List.forall_mem_cons]
  exact ⟨decodeN_isOk_iff, decodeN_isOk_iff, decodeS_isOk_iff, decodeN_isOk_iff, decodeN_isOk_iff, decodeN_isOk_iff,
    decodeS_isOk_iff, decodeN_isOk_iff, decodeN_isOk_iff, decodeB_isOk_iff, decodeN_isOk_iff, decodeR_isOk_iff,
    decodeS_isOk_iff, decodeI_isOk_iff, decodeS_isOk_iff, nofun⟩

theorem operandWidth_le (f : Format) : 2 ^ operandWidth f ≤ 512 := by cases f <;> decide

/-- A row covers exactly the words that decode to its command. -/
theorem covers_iff_decode (hrow : row ∈ opcodeRows) :
    w &&& row.mask = row.matchBits ↔ ∃ i, decode w = .ok i ∧ instrOpcode i = row.opcode := by
  rw [covers_iff hrow, and_zeroMask_eq_zero_iff]
  have hwidth := operandWidth_le row.format
  constructor
  · rintro ⟨hop, hlow⟩
    obtain ⟨i, hi⟩ := (decodeOperand_isOk_iff hrow hop).2 (by omega)
    have hdec : decode w = .ok i := (decode_of_command (hop ▸ opcode_ne_reserved hrow)).2 ⟨by omega, hi⟩
    exact ⟨i, hdec, by rw [← hop, ← encode_of_decode hdec, opcodeOf_encode]⟩
  · rintro ⟨i, hdec, hi⟩
    have hop : opcodeOf w = row.opcode := by rw [← encode_of_decode hdec, opcodeOf_encode, hi]
    obtain ⟨hres, hoper⟩ := (decode_of_command (hop ▸ opcode_ne_reserved hrow)).1 hdec
    have hlow := (decodeOperand_isOk_iff hrow hop).1 ⟨i, hoper⟩
    exact ⟨hop, by omega⟩

theorem exists_covers_of_decode (hdec : decode w = .ok i) (hi : instrWellFormed i = true) :
    ∃ row ∈ opcodeRows, w &&& row.mask = row.matchBits ∧ row.opcode = instrOpcode i := by
  obtain ⟨row, hrow, hop⟩ := exists_row_of_opcode (op := instrOpcode i) (by simp [instrOpcode_eq_reserved_iff, hi])
  exact ⟨row, hrow, (covers_iff_decode hrow).2 ⟨i, hdec, hop.symm⟩, hop⟩

/-- Settles O3: a row covers the words that decode to its command, and its opcode tells it from every other row and from the
reserved opcode. -/
theorem commandsMatchOpcodeMap : Obligations.CommandsMatchOpcodeMap := by
  intro w
  refine ⟨fun i => exists_covers_of_decode, fun row hrow hcov => ⟨?_, fun row' hrow' hcov' => ?_, fun hF => ?_⟩⟩
  · obtain ⟨i, hdec, hop⟩ := (covers_iff_decode hrow).1 hcov
    have hne := opcode_ne_reserved hrow
    rw [← hop, ne_eq, instrOpcode_eq_reserved_iff, Bool.not_eq_false] at hne
    exact ⟨i, hdec, hne, hop⟩
  · exact row_eq_of_opcode_eq hrow' hrow (((covers_iff hrow').1 hcov').1.symm.trans ((covers_iff hrow).1 hcov).1)
  · have hop := ((and_append_eq_iff w 0xF#4 0xF#4 0#12 0#12).1 hF).1
    rw [opcode_and_mask, ((covers_iff hrow).1 hcov).1] at hop
    exact opcode_ne_reserved hrow hop

/-- No row covers the illegal words of R75: those with the reserved opcode, and those with a bit set that the format of
their row requires to be 0. -/
theorem covers_none_iff :
    (∀ row ∈ opcodeRows, w &&& row.mask ≠ row.matchBits) ↔
      opcodeOf w = 0xF#4 ∨
        ∃ row ∈ opcodeRows, row.opcode = opcodeOf w ∧ w &&& (0x0E00#16 ||| formatZeroBits row.format) ≠ 0#16 := by
  constructor
  · intro hnone
    refine or_iff_not_imp_left.2 fun hF => ?_
    obtain ⟨row, hrow, hop⟩ := exists_row_of_opcode hF
    exact ⟨row, hrow, hop, fun hzero => hnone row hrow ((covers_iff hrow).2 ⟨hop.symm, hzero⟩)⟩
  · rintro (hF | ⟨row, hrow, hop, hbits⟩) row' hrow' hcov
    · exact opcode_ne_reserved hrow' (((covers_iff hrow').1 hcov).1.symm.trans hF)
    · obtain ⟨hop', hzero⟩ := (covers_iff hrow').1 hcov
      obtain rfl := row_eq_of_opcode_eq hrow hrow' (hop.trans hop')
      exact hbits hzero

end Sys2Proof
end

section
/-! SUPPORT. Words at the ports (30_encoding.md R75, R78, R88; 60_exceptions.md R185): what a step does with each action of the
host, and that a command takes no part of the host's later actions. -/

namespace Sys2Proof.Machine

variable {s t : State} {i : Instr} {w : CmdWord} {rest : List HostAction}

/-! ### Steps by the host's next action (R88, R185) -/

theorem step_idle (h : s.host = []) : step s = .next s := by
  rw [step, hostStep, h]

theorem step_send (h : s.host = .send w :: rest) (hr : s.rsp = none) : step s = runWord w { s with host := rest } := by
  rw [step, hostStep, h]
  simp [cmdReady, hr]

theorem step_send_wait {r : Response} (h : s.host = .send w :: rest) (hr : s.rsp = some r) : step s = .next s := by
  rw [step, hostStep, h]
  simp [cmdReady, hr]

theorem step_take {r : Response} (h : s.host = .take :: rest) (hr : s.rsp = some r) :
    step s = .next { s with rsp := none, host := rest } := by
  rw [step, hostStep, h]
  simp [rspValid, hr, takeResponse]

theorem step_take_wait (h : s.host = .take :: rest) (hr : s.rsp = none) : step s = .next s := by
  rw [step, hostStep, h]
  simp [rspValid, hr]

/-- Settles O8: by the host's next action and whether a response waits. -/
theorem portsWaitAndKeepState : Obligations.PortsWaitAndKeepState := fun _ _ =>
  ⟨step_idle, fun _ _ => step_send_wait, step_take_wait, fun _ => step_take⟩

theorem runWord_of_decode (h : decode w = .ok i) (s : State) : runWord w s = exec i s := by
  rw [runWord, h]

/-- Settles O7: the port is free, so the word is taken and decoded. -/
theorem stepRunsTheDecodedCommand : Obligations.StepRunsTheDecodedCommand := by
  intro s w rest i hhost hrsp hdec
  rw [step_send hhost hrsp, runWord_of_decode hdec]

/-! ### Illegal words (R75) -/

theorem exec_reservedF (rest : BitVec 12) (s : State) : exec (.reservedF rest) s = .next (erred s 5 15) :=
  congrArg _ (raiseError_eq_erred s .illegal 15#9)

/-- Settles O6: the error path in the spec's numbers. -/
theorem reservedOpcodeRaises : Obligations.ReservedOpcodeRaises := exec_reservedF

/-- Whether the decoder refuses the word or reads it as the reserved opcode, it raises `E_ILLEGAL` with its opcode. -/
theorem runWord_illegal (h : ∀ i, decode w = .ok i → instrWellFormed i = false) (s : State) :
    runWord w s = .next (erred s 5 (w.toNat / 4096)) := by
  rw [← toNat_opcodeOf]
  cases hdec : decode w with
  | ok i =>
    have hop : opcodeOf w = 0xF#4 := by
      rw [← encode_of_decode hdec, opcodeOf_encode, instrOpcode_eq_reserved_iff, h i hdec]
    have hF := decode_of_reserved hop
    rw [runWord_of_decode hF, exec_reservedF, hop]
    rfl
  | error r =>
    have hinfo : ((opcodeOf w).setWidth 9).toNat = (opcodeOf w).toNat := BitVec.toNat_setWidth_of_le (by decide)
    rw [runWord, hdec, ← hinfo]
    exact congrArg _ (raiseError_eq_erred s .illegal _)

theorem opcodeOf_eq_iff {op : Opcode} : opcodeOf w = op ↔ w.toNat / 4096 = op.toNat := by
  rw [← BitVec.toNat_inj, toNat_opcodeOf]

/-- Settles O5: the rows partition the opcodes below 0xF, and a word that no row covers decodes to no command. -/
theorem illegalWordRaises : Obligations.IllegalWordRaises := by
  intro w
  constructor
  · rw [covers_none_iff]
    refine or_congr opcodeOf_eq_iff (exists_congr fun row => and_congr_right' (and_congr_left' ?_))
    rw [eq_comm, opcodeOf_eq_iff, eq_comm]
  · intro hnone s rest hhost hrsp
    rw [step_send hhost hrsp]
    refine runWord_illegal (fun i hdec => Bool.eq_false_iff.2 fun hi => ?_) _
    obtain ⟨row, hrow, hcov, -⟩ := exists_covers_of_decode hdec hi
    exact hnone row hrow hcov

/-! ### Every command answers (R78) -/

theorem Effect.host_eq (h : Effect s i t) : t.host = s.host := by
  cases h <;> rfl

theorem exec_host (h : exec i s = .next t) : t.host = s.host := by
  rcases exec_cases h with ⟨e, v, rfl⟩ | heff
  · rfl
  · exact heff.host_eq

/-- Settles O39: an error answers its code and no data, a success answers OK, and neither reaches the host's actions. -/
theorem everyCommandResponds : Obligations.EveryCommandResponds := by
  intro i s t h
  refine ⟨exec_host h, ?_⟩
  rcases exec_cases h with ⟨e, v, rfl⟩ | heff
  · exact ⟨_, rfl, by cases e <;> decide, fun _ => rfl⟩
  · obtain ⟨d, hd⟩ := heff.rsp_ok
    exact ⟨_, hd, by simp, fun hne => absurd rfl hne⟩

/-! ### One exchange (R88, R164) -/

/-- A result with its next state changed. -/
def mapNext (f : State → State) : Result → Result
  | .next t => .next (f t)
  | .fault r => .fault r
  | .refused r => .refused r

/-- No command reads the host's later actions. -/
theorem exec_withHost (i : Instr) (s : State) (host : List HostAction) :
    exec i { s with host := host } = mapNext (fun t => { t with host := host }) (exec i s) := by
  cases i with
  | nop | clr | rdfreq | reservedF => rfl
  | encbeg | encend | decbeg =>
    simp only [exec, execEncbeg, execEncend, execDecbeg]
    split <;> rfl
  | rdreg r =>
    have hvalue : registerValue { s with host := host } r = registerValue s r := rfl
    simp only [exec, execRdreg, hvalue]
    split <;> rfl
  | derive | decend | rdcode =>
    simp only [exec, execDerive, execDecend, execRdcode, readCode]
    split
    · split <;> rfl
    · rfl
  | sym | build | enc | rdnode =>
    simp only [exec, execSym, execBuild, execEnc, execRdnode, readFreq, readCode, readNode]
    split
    · split
      · rfl
      · split <;> rfl
    · rfl
  | dbit b =>
    simp only [exec, execDbit, decodeMove, readNode]
    split
    · split
      · rfl
      · rfl
      · split
        · rfl
        · rfl
        · split <;> rfl
    · rfl

theorem runWord_withHost (w : CmdWord) (s : State) (host : List HostAction) :
    runWord w { s with host := host } = mapNext (fun t => { t with host := host }) (runWord w s) := by
  unfold runWord
  split
  · exact exec_withHost _ s host
  · rfl

theorem runWord_host (h : runWord w s = .next t) : t.host = s.host := by
  rcases runWord_cases h with ⟨i, -, hexec⟩ | ⟨-, rfl⟩
  · exact exec_host hexec
  · rfl

theorem transact_eq_some {r : Response} :
    transact w s = some (t, r) ↔ ∃ u, runWord w s = .next u ∧ u.rsp = some r ∧ takeResponse u = t := by
  unfold transact
  cases runWord w s with
  | next u => cases hr : u.rsp <;> simp [hr, and_comm]
  | fault | refused => simp

/-- Settles O9: the command leaves the pending take in place, and the take finds the command's response on the port. -/
theorem sendThenTakeIsOneExchange : Obligations.SendThenTakeIsOneExchange := by
  intro s t w rest r hhost hrsp hexchange
  obtain ⟨v, hrun, hv, rfl⟩ := transact_eq_some.1 hexchange
  have hsend : runWord w { s with host := .take :: rest } = .next { v with host := .take :: rest } :=
    (runWord_withHost w { s with host := rest } _).trans (congrArg _ hrun)
  have hkept : v.host = rest := runWord_host hrun
  refine ⟨_, (step_send hhost hrsp).trans hsend, hv, ?_⟩
  rw [step_take (s := { v with host := .take :: rest }) rfl hv, ← hkept]
  rfl

end Sys2Proof.Machine
end

section
/-! SUPPORT. The commands of 40_build.md by their cases: CLR in every state (R91), SYM and BUILD where they are legal and where
they raise (R92, R93), the tree BUILD leaves (R93, R97) and its seeded leaves (R95). -/

namespace Sys2Proof.Machine

variable {s : State} {a : Symbol}

/-! ### Errors in the spec's numbers (60_exceptions.md R172, R174) -/

theorem abort_eq_erred (e : ErrorCode) {v : Info} {n : Nat} (hinfo : v.toNat = n) (s : State) :
    abort e v s = .next (erred s (errorNumber e).toNat n) := by
  rw [abort, raiseError_eq_erred, hinfo]

theorem abortSeq_eq_erred (i : Instr) (s : State) : abortSeq i s = .next (erred s 4 (instrOpcode i).toNat) :=
  abort_eq_erred .seq (BitVec.toNat_setWidth_of_le (by decide)) s

/-! ### CLR (R91) -/

/-- Settles O16: CLR clears the core and answers OK, and no `FREQ` entry is listed any more. -/
theorem clrResult : Obligations.ClrResult :=
  ⟨decode_encode .clr, fun s => ⟨respond 0#264 (clearCore s), rfl, rfl, rfl, rfl, rfl, rfl, rfl, rfl, rfl, rfl, rfl, rfl, rfl,
    fun _ => rfl, rfl, rfl⟩⟩

/-! ### SYM (R92) -/

/-- Where SYM and BUILD are not legal (45_pipelines.md R155). -/
theorem not_idle_without_tree (h : s.mode ≠ .idle ∨ s.tv = true) : ¬(s.mode = .idle ∧ s.tv = false) := by
  rintro ⟨hmode, htv⟩
  exact h.elim (· hmode) (by simp [htv])

theorem exec_sym_out_of_sequence (h : s.mode ≠ .idle ∨ s.tv = true) (a : Symbol) :
    exec (.sym a) s = .next (erred s 4 2) := by
  rw [exec, execSym, if_neg (not_idle_without_tree h)]
  exact abortSeq_eq_erred _ s

theorem exec_sym_full (hmode : s.mode = .idle) (htv : s.tv = false) (hfull : s.total.toNat = Config.maxCount) (a : Symbol) :
    exec (.sym a) s = .next (erred s 6 a.toNat) := by
  rw [exec, execSym, if_pos ⟨hmode, htv⟩, if_pos hfull]
  exact abort_eq_erred .overflow (BitVec.toNat_setWidth_of_le (by decide)) s

theorem exec_sym_count {count total : Count} (hmode : s.mode = .idle) (htv : s.tv = false)
    (hcount : count.toNat = (readFreq s a).toNat + 1) (htotal : total.toNat = s.total.toNat + 1) :
    exec (.sym a) s = .next (respond 0#264 { writeFreq s a count with total := total }) := by
  have hroom : s.total.toNat ≠ Config.maxCount := by
    have := total.isLt
    simp only [Config.maxCount]
    omega
  have hcount' : addExact (readFreq s a) 1#32 = some count := addExact_eq_some.2 hcount
  have htotal' : addExact s.total 1#32 = some total := addExact_eq_some.2 htotal
  rw [exec, execSym, if_pos ⟨hmode, htv⟩, if_neg hroom, hcount', htotal']
  rfl

/-- The word of SYM as 30_encoding.md R84 writes it: match ORed with the operand. -/
theorem encode_sym (a : Symbol) : encode (.sym a) = 0x2000#16 ||| a.setWidth 16 := by
  have hoperand : a.setWidth 16 = 0#4 ++ instrLowBits (.sym a) :=
    BitVec.eq_of_toNat_eq ((BitVec.toNat_setWidth_of_le (by decide)).trans
      ((toNat_zero_append (0#4 ++ a)).trans (toNat_zero_append a)).symm)
  calc encode (.sym a) = (0x2#4 ||| 0#4) ++ (0#12 ||| instrLowBits (.sym a)) := by rw [BitVec.or_zero, BitVec.zero_or]; rfl
    _ = (0x2#4 ++ 0#12) ||| (0#4 ++ instrLowBits (.sym a)) := BitVec.or_append.symm
    _ = 0x2000#16 ||| a.setWidth 16 := by rw [hoperand]; rfl

/-- Settles O17: a count no more than `TOTAL < W_MAX` has room for one more, and so has `TOTAL`. -/
theorem symCountsOne : Obligations.SymCountsOne := by
  refine ⟨fun a => encode_sym a ▸ decode_encode (.sym a), fun a s => ⟨fun hmode htv hroom hle => ?_,
    fun hmode htv hfull => exec_sym_full hmode htv hfull a, fun h => exec_sym_out_of_sequence h a⟩⟩
  obtain ⟨count, hcount⟩ : ∃ v : Count, v.toNat = (readFreq s a).toNat + 1 := ⟨readFreq s a + 1#32, by bv_omega⟩
  obtain ⟨total, htotal⟩ : ∃ v : Count, v.toNat = s.total.toNat + 1 := ⟨s.total + 1#32, by bv_omega⟩
  have hne : count ≠ 0#32 := by rintro rfl; simp at hcount
  refine ⟨_, exec_sym_count hmode htv hcount htotal, ?_, fun b hb => readFreq_writeFreq_other s count hb, htotal, rfl⟩
  exact (congrArg _ (readFreq_writeFreq_same_of_ne a hne)).trans hcount

/-! ### BUILD (R93) -/

theorem exec_build_empty (hmode : s.mode = .idle) (htv : s.tv = false) (hempty : s.total = 0#32) :
    exec .build s = .next (erred s 1 0) := by
  rw [exec, execBuild, if_pos ⟨hmode, htv⟩, if_pos hempty]
  exact abort_eq_erred .empty rfl s

theorem exec_build_out_of_sequence (h : s.mode ≠ .idle ∨ s.tv = true) : exec .build s = .next (erred s 4 3) := by
  rw [exec, execBuild, if_neg (not_idle_without_tree h)]
  exact abortSeq_eq_erred .build s

/-- Settles O19: by the two conditions under which BUILD raises. -/
theorem buildErrors : Obligations.BuildErrors := fun _ => ⟨exec_build_empty, exec_build_out_of_sequence⟩

/-- Where BUILD is legal and `TOTAL` is the sum of the counts and not 0, it installs a tree of the counts and answers its root. -/
theorem exec_build_tree (hmode : s.mode = .idle) (htv : s.tv = false) (hsum : s.total.toNat = freqSum s.mem.freq)
    (hne : s.total ≠ 0#32) :
    ∃ b, BuiltOk s.mem.freq b ∧ exec .build s = .next (answered (installTree b s) b.root.toNat) := by
  have hpos : freqSum s.mem.freq ≠ 0 := fun h0 => hne (BitVec.eq_of_toNat_eq (hsum.trans h0))
  have hmax : freqSum s.mem.freq ≤ Config.maxCount := hsum ▸ Nat.le_of_lt_succ s.total.isLt
  obtain ⟨b, hb⟩ := buildTree_total s.mem.node hpos hmax
  refine ⟨b, buildTree_ok hb, ?_⟩
  rw [exec, execBuild, if_pos ⟨hmode, htv⟩, if_neg hne, hb]
  exact congrArg _ (respond_eq_answered _ (toNat_payload b.root (by decide)))

/-- Settles O18: the tree of the counts exists because they add up to `TOTAL`, which fits a count, and it meets `BuiltOk`. -/
theorem buildMakesTheTree : Obligations.BuildMakesTheTree := by
  intro s hmode htv hsum hne
  obtain ⟨b, hb, hexec⟩ := exec_build_tree hmode htv hsum hne
  obtain ⟨e, he, hweight⟩ := hb.weight
  exact ⟨_, hexec, rfl, hb.nleaf, hb.nnodes, hb.root, hb.tree, e, he, BitVec.eq_of_toNat_eq (hweight.trans hsum.symm)⟩

/-! ### BUILD of one distinct symbol (R97) -/

theorem presentSymbols_eq_singleton {freq : Table Count} (ha : freqAt freq a ≠ 0#32)
    (hother : ∀ b, b ≠ a → freqAt freq b = 0#32) : presentSymbols freq = [a] := by
  have hnodup : (presentSymbols freq).Nodup := presentSymbols_ascending.imp fun hlt heq => by simp [heq] at hlt
  refine List.perm_singleton.1 ((List.perm_ext_iff_of_nodup hnodup (List.nodup_singleton a)).2 fun b => ?_)
  rw [mem_presentSymbols, List.mem_singleton]
  exact ⟨fun hb => by_contra fun hba => hb (hother b hba), fun hba => hba ▸ ha⟩

/-- Settles O24: the one count is the sum, so BUILD makes a tree, and a tree of one leaf has it at index 0. -/
theorem oneSymbolBuildsOneLeaf : Obligations.OneSymbolBuildsOneLeaf := by
  intro a s hmode htv hcount hne hother
  have hpos : freqAt s.mem.freq a ≠ 0#32 := fun h0 => hne (hcount.symm.trans h0)
  have hpresent : presentSymbols s.mem.freq = [a] := presentSymbols_eq_singleton hpos hother
  have hsum : s.total.toNat = freqSum s.mem.freq := by
    rw [freqSum_eq_sum_present, hpresent, ← hcount]
    exact (List.sum_singleton).symm
  obtain ⟨b, hb, hexec⟩ := exec_build_tree hmode htv hsum hne
  have hnleaf : b.nleaf = 1#9 := BitVec.eq_of_toNat_eq (by rw [hb.nleaf, hpresent]; rfl)
  have hnnodes : b.nnodes = 1#9 := BitVec.eq_of_toNat_eq (by rw [hb.nnodes, hnleaf]; rfl)
  have hroot : b.root = 0#9 := BitVec.eq_of_toNat_eq (by rw [hb.root, hnnodes]; rfl)
  have hleaf : nodeAt b.node 0#9 = some (.leaf a s.total) := by
    obtain ⟨i, hi, hat⟩ := hb.tree.present a hpos
    obtain rfl : i = 0 := by simpa [hnleaf] using hi
    rw [← hcount]
    exact hat
  refine ⟨_, hexec, hleaf, hroot, hnleaf, hnnodes, ?_, ?_⟩
  · simp [single, answered, hnleaf]
  · simp [answered, hroot]

/-! ### Seeding (R95) -/

/-- Settles O21: what seeding leaves, with the order of the symbols present. -/
theorem leavesSeededInSymbolOrder : Obligations.LeavesSeededInSymbolOrder := by
  rintro freq node present rfl
  exact ⟨presentSymbols_ascending, fun _ => mem_presentSymbols, seedLeaves_spec freq node⟩

end Sys2Proof.Machine
end

section
/-! SUPPORT. The comparator of 40_build.md R94 as an order on written nodes, the node `takeLeast` takes, and one merge (R96). -/

namespace Sys2Proof.Machine

variable {node : Table NodeEntry} {a b c : NodeIdx}

/-! ### The comparator (R94) -/

theorem beforeKeys_iff {wa wb : Count} : beforeKeys wa a wb b = true ↔
    wa.toNat < wb.toNat ∨ (wa.toNat = wb.toNat ∧ a.toNat < b.toNat) := by
  simp [beforeKeys]

/-- `before` answers exactly where both nodes are written. -/
theorem before_eq_ok_iff {v : Bool} : before node a b = .ok v ↔
    ∃ ea eb, nodeAt node a = some ea ∧ nodeAt node b = some eb ∧ beforeKeys (entryWeight ea) a (entryWeight eb) b = v := by
  cases ha : nodeAt node a <;> cases hb : nodeAt node b <;> simp [before, nodeWeight, ha, hb]

theorem before_self {e : NodeEntry} (ha : nodeAt node a = some e) : before node a a = .ok false := by
  rw [before_ok ha ha, Except.ok.injEq, ← Bool.not_eq_true, beforeKeys_iff]
  omega

theorem before_asymm (h : before node a b = .ok true) : before node b a = .ok false := by
  obtain ⟨ea, eb, ha, hb, hkeys⟩ := before_eq_ok_iff.1 h
  rw [beforeKeys_iff] at hkeys
  rw [before_ok hb ha, Except.ok.injEq, ← Bool.not_eq_true, beforeKeys_iff]
  omega

/-- Equal weights leave the decision to the indices, which differ. -/
theorem before_of_not_before (hne : a ≠ b) (h : before node b a = .ok false) : before node a b = .ok true := by
  obtain ⟨eb, ea, hb, ha, hkeys⟩ := before_eq_ok_iff.1 h
  have hidx : a.toNat ≠ b.toNat := fun heq => hne (BitVec.eq_of_toNat_eq heq)
  rw [← Bool.not_eq_true, beforeKeys_iff] at hkeys
  rw [before_ok ha hb, Except.ok.injEq, beforeKeys_iff]
  omega

theorem before_trans (hab : before node a b = .ok true) (hbc : before node b c = .ok true) :
    before node a c = .ok true := by
  obtain ⟨ea, eb, ha, hb, hkab⟩ := before_eq_ok_iff.1 hab
  obtain ⟨eb', ec, hb', hc, hkbc⟩ := before_eq_ok_iff.1 hbc
  obtain rfl : eb = eb' := Option.some.inj (hb.symm.trans hb')
  rw [beforeKeys_iff] at hkab hkbc
  rw [before_ok ha hc, Except.ok.injEq, beforeKeys_iff]
  omega

/-- Settles O20: a lexicographic order on weight and index, and two nodes of one index are one. -/
theorem comparatorIsStrictTotalOrder : Obligations.ComparatorIsStrictTotalOrder := by
  intro node a b c ea eb ec ha hb hc
  refine ⟨?_, before_self ha, fun hne => ⟨before_asymm, before_of_not_before hne⟩, before_trans⟩
  rw [before_ok ha hb, Except.ok.injEq, beforeKeys_iff]

/-! ### The least of the queue -/

/-- The node `leastOf` answers is before every other one it was given. -/
theorem leastOf_before {pq : List NodeIdx} {m j : NodeIdx} (h : leastOf node a pq = .ok m) (hj : j ∈ a :: pq)
    (hne : j ≠ m) : before node m j = .ok true := by
  induction pq generalizing a j with
  | nil =>
    obtain rfl : j = a := by simpa using hj
    exact absurd (by simpa [leastOf] using h) hne
  | cons b rest ih =>
    have hloser : ∀ {c d : NodeIdx}, leastOf node c rest = .ok m → before node c d = .ok true →
        before node m d = .ok true := fun {c d} hc hcd => by
      by_cases hcm : c = m
      · exact hcm ▸ hcd
      · exact before_trans (ih hc List.mem_cons_self hcm) hcd
    rw [leastOf] at h
    split at h
    · rename_i hba
      rcases List.mem_cons.1 hj with rfl | hj
      · exact hloser h hba
      · exact ih h hj hne
    · rename_i hba
      rcases List.mem_cons.1 hj with rfl | hj
      · exact ih h List.mem_cons_self hne
      · rcases List.mem_cons.1 hj with rfl | hj
        · by_cases haj : a = j
          · exact ih h (haj ▸ List.mem_cons_self) hne
          · exact hloser h (before_of_not_before haj hba)
        · exact ih h (List.mem_cons_of_mem a hj) hne
    · cases h

theorem takeLeast_before {pq q : List NodeIdx} {m j : NodeIdx} (h : takeLeast node pq = .ok (m, q)) (hj : j ∈ pq)
    (hne : j ≠ m) : before node m j = .ok true := by
  cases pq with
  | nil => cases hj
  | cons a rest =>
    rw [takeLeast] at h
    split at h
    · rename_i m' hm
      cases h
      exact leastOf_before hm hj hne
    · cases h

/-! ### One merge (R96) -/

/-- Settles O22: `lo` is the least of the queue and `hi` the least of the rest, which holds every other queued node. -/
theorem mergeJoinsTheTwoLeast : Obligations.MergeJoinsTheTwoLeast := by
  intro b b' hnodup hs
  obtain ⟨lo, hi, pq1, pq2, el, eh, w, h1, h2, hl, hh, hw, rfl⟩ := mergeStep_cases hs
  obtain ⟨hlo, rfl⟩ := takeLeast_ok h1
  obtain ⟨hhi, rfl⟩ := takeLeast_ok h2
  obtain ⟨hne, hhi'⟩ := hnodup.mem_erase_iff.1 hhi
  exact ⟨lo, hi, el, eh, w, hlo, hhi', hne.symm, hl, hh, takeLeast_before h1 hhi' hne,
    fun j hj hjlo hjhi => ⟨takeLeast_before h1 hj hjlo,
      takeLeast_before h2 (hnodup.mem_erase_iff.2 ⟨hjlo, hj⟩) hjhi⟩,
    hw, tableGet_put_same .., fun j hj => tableGet_put_other _ _ hj, rfl, rfl⟩

end Sys2Proof.Machine
end

section
/-! SUPPORT. The builder reads no entry of `NODE` that it has not written (40_build.md R98): two builds of the same counts keep
equal queues and equal entries below the next index, whatever `NODE` held before. -/

namespace Sys2Proof.Machine

variable {freq : Table Count} {node node' : Table NodeEntry}

/-! ### Equal reads, equal answers -/

theorem nodeWeight_congr {i : NodeIdx} (h : nodeAt node' i = nodeAt node i) : nodeWeight node' i = nodeWeight node i := by
  rw [nodeWeight, nodeWeight, h]

theorem leastOf_congr {pq : List NodeIdx} {a : NodeIdx} (h : ∀ i ∈ a :: pq, nodeAt node' i = nodeAt node i) :
    leastOf node' a pq = leastOf node a pq := by
  induction pq generalizing a with
  | nil => rfl
  | cons b rest ih =>
    simp only [List.forall_mem_cons] at h ih
    obtain ⟨ha, hb, hrest⟩ := h
    rw [leastOf, leastOf, before, before, nodeWeight_congr ha, nodeWeight_congr hb, ih ⟨ha, hrest⟩, ih ⟨hb, hrest⟩]

theorem takeLeast_congr {pq : List NodeIdx} (h : ∀ i ∈ pq, nodeAt node' i = nodeAt node i) :
    takeLeast node' pq = takeLeast node pq := by
  cases pq with
  | nil => rfl
  | cons a rest => rw [takeLeast, takeLeast, leastOf_congr h]

/-- The conditions `mergeStep_cases` names are enough for the merge. -/
theorem mergeStep_of_least {b : TreeBuild} {lo hi : NodeIdx} {pq1 pq2 : List NodeIdx} {el eh : NodeEntry} {w : Count}
    (h1 : takeLeast b.node b.pq = .ok (lo, pq1)) (h2 : takeLeast b.node pq1 = .ok (hi, pq2))
    (hl : nodeAt b.node lo = some el) (hh : nodeAt b.node hi = some eh)
    (hw : w.toNat = (entryWeight el).toNat + (entryWeight eh).toNat) :
    mergeStep b = .ok ⟨tablePut b.node b.next (.internal w lo hi), pq2 ++ [BitVec.ofNat 9 b.next], b.next + 1⟩ := by
  have he : mergedEntry b.node lo hi = .ok (.internal w lo hi) := by
    simp [mergedEntry, nodeWeight, hl, hh, addExact_eq_some.2 hw]
  simp [mergeStep, h1, h2, he]

/-! ### Two builds in step -/

/-- Two builds at one point: equal queues, one next index, and equal entries at the indices used so far. -/
structure SameBuild (b b' : TreeBuild) : Prop where
  pq : b'.pq = b.pq
  next : b'.next = b.next
  node : ∀ i < b.next, tableGet b'.node i = tableGet b.node i

/-- Both builds write one more entry and queue it. -/
theorem SameBuild.push {b b' : TreeBuild} (h : SameBuild b b') (e : NodeEntry) (q : List NodeIdx) :
    SameBuild ⟨tablePut b.node b.next e, q ++ [BitVec.ofNat 9 b.next], b.next + 1⟩
      ⟨tablePut b'.node b'.next e, q ++ [BitVec.ofNat 9 b'.next], b'.next + 1⟩ where
  pq := by rw [h.next]
  next := congrArg (· + 1) h.next
  node i hi := by
    rw [tableGet_put, tableGet_put, h.next]
    split
    · rfl
    · exact h.node i (Nat.lt_of_le_of_ne (Nat.le_of_lt_succ hi) ‹_›)

theorem seedLeaves_sameBuild (freq : Table Count) (node node' : Table NodeEntry) :
    SameBuild (seedLeaves freq node) (seedLeaves freq node') := by
  obtain ⟨hnext, hpq, hleaf, -⟩ := seedLeaves_spec freq node
  obtain ⟨hnext', hpq', hleaf', -⟩ := seedLeaves_spec freq node'
  refine ⟨hpq'.trans hpq.symm, hnext'.trans hnext.symm, fun i hi => ?_⟩
  have hi := List.getElem?_eq_getElem (hnext ▸ hi)
  exact (hleaf' i _ hi).trans (hleaf i _ hi).symm

/-- A merge reads queued nodes only, so both builds make the same one. -/
theorem mergeStep_sameBuild {b b' c : TreeBuild} (hf : ForestOk freq b) (h : SameBuild b b') (hs : mergeStep b = .ok c) :
    ∃ c', mergeStep b' = .ok c' ∧ SameBuild c c' := by
  have hread : ∀ i ∈ b.pq, nodeAt b'.node i = nodeAt b.node i := fun i hi => h.node i.toNat (hf.queued_lt hi)
  obtain ⟨lo, hi, pq1, pq2, el, eh, w, h1, h2, hl, hh, hw, rfl⟩ := mergeStep_cases hs
  obtain ⟨hlo, hpq1⟩ := takeLeast_ok h1
  have hsub : ∀ i ∈ pq1, i ∈ b.pq := fun i hi => List.mem_of_mem_erase (hpq1 ▸ hi)
  have hhi := hsub hi (takeLeast_ok h2).1
  have h1' : takeLeast b'.node b'.pq = .ok (lo, pq1) := by rw [h.pq, takeLeast_congr hread, h1]
  have h2' : takeLeast b'.node pq1 = .ok (hi, pq2) := by rw [takeLeast_congr fun i hi => hread i (hsub i hi), h2]
  exact ⟨_, mergeStep_of_least h1' h2' ((hread lo hlo).trans hl) ((hread hi hhi).trans hh) hw, h.push _ _⟩

theorem mergeLoop_sameBuild {fuel : Nat} {b b' c : TreeBuild} (hf : ForestOk freq b) (h : SameBuild b b')
    (hm : mergeLoop fuel b = .ok c) : ∃ c', mergeLoop fuel b' = .ok c' ∧ SameBuild c c' := by
  induction fuel generalizing b b' with
  | zero =>
    obtain rfl : b = c := by simpa [mergeLoop] using hm
    exact ⟨b', rfl, h⟩
  | succ fuel ih =>
    rw [mergeLoop] at hm
    rw [mergeLoop, h.pq]
    split at hm
    · rename_i hq
      split at hm
      · rename_i b1 hs
        obtain ⟨b1', hs', h1⟩ := mergeStep_sameBuild hf h hs
        rw [if_pos hq, hs']
        exact ih (mergeStep_forest hf hq hs) h1 hm
      · cases hm
    · rename_i hq
      cases hm
      exact ⟨b', if_neg hq, h⟩

/-! ### The whole builder -/

/-- The builder reads the counts through `freqAt` only. -/
theorem buildTree_freq_congr {freq freq' : Table Count} (h : ∀ a, freqAt freq a = freqAt freq' a) (node : Table NodeEntry) :
    buildTree freq' node = buildTree freq node := by
  have hseed : seedSymbol freq' = seedSymbol freq := by
    funext b a
    rw [seedSymbol, seedSymbol, h a]
  rw [buildTree, buildTree, seedLeaves, seedLeaves, hseed]

/-- Settles O23: both builds run in step from the seeded queue to the root. -/
theorem treeIsAFunctionOfCounts : Obligations.TreeIsAFunctionOfCounts := by
  intro freq freq' node node' t hfreq ht
  obtain ⟨c, root, hm, hroot, rfl⟩ := buildTree_cases ht
  have hseed := seedLeaves_sameBuild freq node node'
  obtain ⟨c', hm', h⟩ := mergeLoop_sameBuild (seedLeaves_forest freq node) hseed hm
  have hbuilt : buildTree freq node' =
      .ok ⟨c'.node, BitVec.ofNat 9 (seedLeaves freq node').next, BitVec.ofNat 9 c'.next, root⟩ := by
    simp [buildTree, hseed.next, hm', h.pq, hroot]
  refine ⟨_, (buildTree_freq_congr hfreq node').trans hbuilt, by rw [hseed.next], by rw [h.next], rfl,
    fun i hi => h.node i ?_⟩
  exact lt_of_lt_of_le hi (by rw [BitVec.toNat_ofNat]; exact Nat.mod_le _ _)

end Sys2Proof.Machine
end

section
/-! SUPPORT. DERIVE by its cases (41_derive.md R110): out of sequence, on a tree, and on a tree that is a single leaf (R112). -/

namespace Sys2Proof.Machine

variable {s : State}

/-! ### DERIVE where it is legal and where it is not (R110, 45_pipelines.md R155) -/

theorem exec_derive_out_of_sequence (h : s.mode ≠ .idle ∨ s.tv = false ∨ s.cv = true) :
    exec .derive s = .next (erred s 4 4) := by
  have hillegal : ¬(s.mode = .idle ∧ s.tv = true ∧ s.cv = false) := by
    rintro ⟨hmode, htv, hcv⟩
    rcases h with h | h | h
    · exact h hmode
    · simp [htv] at h
    · simp [hcv] at h
  rw [exec, execDerive, if_neg hillegal]
  exact abortSeq_eq_erred .derive s

/-- Settles O26: outside its one state DERIVE takes the error path with its own opcode. -/
theorem deriveOutOfSequence : Obligations.DeriveOutOfSequence :=
  ⟨decode_encode .derive, fun _ => exec_derive_out_of_sequence⟩

theorem exec_derive_codes {code : Table CodeEntry} (hmode : s.mode = .idle) (htv : s.tv = true) (hcv : s.cv = false)
    (hcode : deriveCodes s.mem.node s.root = .ok code) : exec .derive s = .next (respond 0#264 (installCode code s)) := by
  rw [exec, execDerive, if_pos ⟨hmode, htv, hcv⟩, hcode]
  rfl

/-! ### DERIVE on a tree (R110) -/

/-- Settles O25: the walk of a tree ends with a table, and the table it ends with is that of the tree. -/
theorem deriveFillsTheCodeTable : Obligations.DeriveFillsTheCodeTable := by
  intro s hmode htv hcv hpos _ hnodes hroot htree
  obtain ⟨code, hcode⟩ := deriveCodes_total htree (root := s.root) (by omega) (by omega)
  exact ⟨_, exec_derive_codes hmode htv hcv hcode, rfl, deriveCodes_codeOk htree hpos hnodes hroot hcode⟩

/-! ### DERIVE on a single leaf (R112) -/

theorem deriveCodes_of_leaf {node : Table NodeEntry} {root : NodeIdx} {a : Symbol} {w : Count}
    (h : nodeAt node root = some (.leaf a w)) :
    deriveCodes node root = .ok (tablePut clearedCode a.toNat ⟨true, 1#8, 0#255⟩) := by
  rw [deriveCodes, h]

/-- Settles O27: DERIVE puts the one codeword into the cleared table, where every other entry holds none. -/
theorem singleLeafCodeword : Obligations.SingleLeafCodeword := by
  intro s a w hmode htv hcv hleaf
  refine ⟨_, exec_derive_codes hmode htv hcv (deriveCodes_of_leaf hleaf), ?_, by decide, fun b hb => ?_, rfl⟩
  · rw [readCode_respond, readCode_installCode, codeAt_put, if_pos rfl]
  · rw [readCode_respond, readCode_installCode, codeAt_put, if_neg hb, codeAt_clearedCode]
    rfl

end Sys2Proof.Machine
end

section
/-! SUPPORT. The word of a command with an operand as match ORed with the operand (30_encoding.md R84), and the commands of
42_encode.md by their cases: ENCBEG (R120), ENC (R121) and ENCEND (R122) where they are legal and where they raise. -/

namespace Sys2Proof.Machine

variable {s : State}

/-! ### Words with an operand (R72, R84) -/

/-- R84, for every format whose operand is the number of bits `[11:0]` (R72). -/
theorem encode_eq_match_or_operand {n : Nat} {i : Instr} {x : BitVec n} {op : Opcode} (hop : instrOpcode i = op)
    (hn : n ≤ 16) (h : (instrLowBits i).toNat = x.toNat) : encode i = (op ++ 0#12) ||| x.setWidth 16 := by
  have hoperand : x.setWidth 16 = 0#4 ++ instrLowBits i :=
    BitVec.eq_of_toNat_eq ((BitVec.toNat_setWidth_of_le hn).trans ((toNat_zero_append _).trans h).symm)
  rw [hoperand, BitVec.or_append, ← hop, BitVec.or_zero, BitVec.zero_or]
  rfl

theorem encode_enc (a : Symbol) : encode (.enc a) = 0x6000#16 ||| a.setWidth 16 :=
  encode_eq_match_or_operand (op := 0x6#4) rfl (by decide) (toNat_zero_append a)

/-! ### ENCBEG (R120) -/

theorem exec_encbeg_idle (hmode : s.mode = .idle) (hcv : s.cv = true) :
    exec .encbeg s = .next (answered { s with mode := .enc } 0) := by
  rw [exec, execEncbeg, if_pos ⟨hmode, hcv⟩]
  rfl

theorem exec_encbeg_out_of_sequence (h : s.mode ≠ .idle ∨ s.cv = false) : exec .encbeg s = .next (erred s 4 5) := by
  have hillegal : ¬(s.mode = .idle ∧ s.cv = true) := by
    rintro ⟨hmode, hcv⟩
    exact h.elim (· hmode) (by simp [hcv])
  rw [exec, execEncbeg, if_neg hillegal]
  exact abortSeq_eq_erred .encbeg s

/-- Settles O28: legal exactly with a code table and no open transaction, and its word is its encoding. -/
theorem encbegResult : Obligations.EncbegResult :=
  ⟨decode_encode .encbeg, fun _ => ⟨exec_encbeg_idle, exec_encbeg_out_of_sequence⟩⟩

/-! ### ENC (R121) -/

variable {a : Symbol} {e : CodeEntry}

theorem exec_enc_valid (hmode : s.mode = .enc) (he : readCode s a = some e) (hvalid : e.valid = true) :
    exec (.enc a) s = .next (answered s (codeNumber e)) := by
  have hexec : exec (.enc a) s = succeed (codeWord e) s := by simp [exec, execEnc, hmode, he, hvalid]
  rw [hexec, succeed_next]
  exact (respond_eq_answered s (toNat_codeWord e)).symm

theorem exec_enc_unknown (hmode : s.mode = .enc) (he : readCode s a = some e) (hvalid : e.valid = false) :
    exec (.enc a) s = .next (erred s 2 a.toNat) := by
  have hexec : exec (.enc a) s = abort .unknown (a.setWidth 9) s := by simp [exec, execEnc, hmode, he, hvalid]
  rw [hexec]
  exact abort_eq_erred .unknown (BitVec.toNat_setWidth_of_le (by decide)) s

theorem exec_enc_out_of_sequence (hmode : s.mode ≠ .enc) (a : Symbol) : exec (.enc a) s = .next (erred s 4 6) := by
  rw [exec, execEnc, if_neg hmode]
  exact abortSeq_eq_erred (.enc a) s

/-- Settles O29: by the mode and, in an encode transaction, by whether the entry of the symbol holds a codeword. -/
theorem encResult : Obligations.EncResult :=
  ⟨fun a => encode_enc a ▸ decode_encode (.enc a), fun a _ =>
    ⟨fun _ => exec_enc_valid, fun _ => exec_enc_unknown, fun hmode => exec_enc_out_of_sequence hmode a⟩⟩

/-! ### ENCEND (R122) -/

theorem exec_encend_open (hmode : s.mode = .enc) : exec .encend s = .next (answered { s with mode := .idle } 0) := by
  rw [exec, execEncend, if_pos hmode]
  rfl

theorem exec_encend_out_of_sequence (hmode : s.mode ≠ .enc) : exec .encend s = .next (erred s 4 7) := by
  rw [exec, execEncend, if_neg hmode]
  exact abortSeq_eq_erred .encend s

/-- Settles O30: legal exactly in an encode transaction, and its word is its encoding. -/
theorem encendResult : Obligations.EncendResult :=
  ⟨decode_encode .encend, fun _ => ⟨exec_encend_open, exec_encend_out_of_sequence⟩⟩

end Sys2Proof.Machine
end

section
/-! SUPPORT. The commands of 43_decode.md by their cases: DECBEG (R130), DBIT (R131, R133) and DECEND (R132) where they are
legal and where they raise. -/

namespace Sys2Proof.Machine

variable {s : State}

/-! ### DECBEG (R130) -/

theorem exec_decbeg_idle (hmode : s.mode = .idle) (htv : s.tv = true) :
    exec .decbeg s = .next (answered { s with ptr := s.root, mode := .dec } 0) := by
  rw [exec, execDecbeg, if_pos ⟨hmode, htv⟩]
  rfl

theorem exec_decbeg_out_of_sequence (h : s.mode ≠ .idle ∨ s.tv = false) : exec .decbeg s = .next (erred s 4 8) := by
  have hillegal : ¬(s.mode = .idle ∧ s.tv = true) := by
    rintro ⟨hmode, htv⟩
    exact h.elim (· hmode) (by simp [htv])
  rw [exec, execDecbeg, if_neg hillegal]
  exact abortSeq_eq_erred .decbeg s

/-- Settles O31: legal exactly with a tree and no open transaction, and its word is its encoding. -/
theorem decbegResult : Obligations.DecbegResult :=
  ⟨decode_encode .decbeg, fun _ => ⟨exec_decbeg_idle, exec_decbeg_out_of_sequence⟩⟩

/-! ### DECEND (R132) -/

theorem exec_decend_at_root (hmode : s.mode = .dec) (hptr : s.ptr = s.root) :
    exec .decend s = .next (answered { s with mode := .idle } 0) := by
  rw [exec, execDecend, if_pos hmode, if_neg (not_not_intro hptr)]
  rfl

theorem exec_decend_truncated (hmode : s.mode = .dec) (hptr : s.ptr ≠ s.root) :
    exec .decend s = .next (erred s 3 s.ptr.toNat) := by
  rw [exec, execDecend, if_pos hmode, if_pos hptr]
  exact abort_eq_erred .trunc rfl s

theorem exec_decend_out_of_sequence (hmode : s.mode ≠ .dec) : exec .decend s = .next (erred s 4 10) := by
  rw [exec, execDecend, if_neg hmode]
  exact abortSeq_eq_erred .decend s

/-- Settles O33: by the mode and, in a decode transaction, by whether the pointer is at the root. -/
theorem decendResult : Obligations.DecendResult :=
  ⟨decode_encode .decend, fun _ => ⟨exec_decend_at_root, exec_decend_truncated, exec_decend_out_of_sequence⟩⟩

/-! ### DBIT (R131, R133) -/

variable {a : Symbol} {w wr : Count} {l r lr rr : NodeIdx} {b : Bool}

theorem succeed_emit (a : Symbol) (s : State) : succeed (payload (emitWord a)) s = .next (answered s (2 * a.toNat + 1)) := by
  rw [succeed, respond_eq_answered s ((toNat_payload _ (by decide)).trans (toNat_emitWord a))]

theorem exec_dbit_single (hmode : s.mode = .dec) (hroot : readNode s s.root = some (.leaf a w)) (b : Bool) :
    exec (.dbit b) s = .next (answered s (2 * a.toNat + 1)) := by
  rw [exec, execDbit, if_pos hmode, hroot]
  exact succeed_emit a s

/-- In a tree of more than one leaf DBIT is a move to the child of the pointer's node that the digit names. -/
theorem exec_dbit_eq_decodeMove (hmode : s.mode = .dec) (hroot : readNode s s.root = some (.internal wr lr rr))
    (hptr : readNode s s.ptr = some (.internal w l r)) (b : Bool) : exec (.dbit b) s = decodeMove (childOf b l r) s := by
  rw [exec, execDbit, if_pos hmode, hroot, hptr]

theorem decodeMove_leaf {i : NodeIdx} (hnext : readNode s i = some (.leaf a w)) :
    decodeMove i s = .next (answered { s with ptr := s.root } (2 * a.toNat + 1)) := by
  rw [decodeMove, hnext]
  exact succeed_emit a _

theorem decodeMove_internal {i : NodeIdx} (hnext : readNode s i = some (.internal w l r)) :
    decodeMove i s = .next (answered { s with ptr := i } 0) := by
  rw [decodeMove, hnext]
  rfl

theorem exec_dbit_out_of_sequence (hmode : s.mode ≠ .dec) (b : Bool) : exec (.dbit b) s = .next (erred s 4 9) := by
  rw [exec, execDbit, if_neg hmode]
  exact abortSeq_eq_erred (.dbit b) s

theorem encode_dbit (b : Bool) : encode (.dbit b) = 0x9000#16 ||| BitVec.ofNat 16 b.toNat := by cases b <;> rfl

theorem childOf_eq_ite (b : Bool) (l r : NodeIdx) : childOf b l r = if b = false then l else r := by cases b <;> rfl

/-- Settles O32: by the mode, by whether the tree is a single leaf, and by the kind of the child the pointer moves to. -/
theorem dbitResult : Obligations.DbitResult := by
  refine ⟨fun b => encode_dbit b ▸ decode_encode (.dbit b), fun b s => ⟨fun a w hmode hroot => exec_dbit_single hmode hroot b,
    fun wr lr rr w l r hmode hroot hptr => ?_, fun hmode => exec_dbit_out_of_sequence hmode b⟩⟩
  rw [← childOf_eq_ite, exec_dbit_eq_decodeMove hmode hroot hptr]
  exact ⟨fun _ _ => decodeMove_leaf, fun _ _ _ => decodeMove_internal⟩

end Sys2Proof.Machine
end

section
/-! SUPPORT. Where bits take the decoder's pointer, as a function of the tree alone (43_decode.md R131), and when that is the
root: after whole codewords and nowhere else (R134). -/

namespace Sys2Proof.Machine

variable {freq : Table Count} {node : Table NodeEntry} {nleaf nnodes : Nat} {root p i : NodeIdx}

/-! ### The pointer after bits -/

/-- Where one bit takes the pointer: to a child that is internal, else back to the root. -/
def ptrAfterBit (node : Table NodeEntry) (root p : NodeIdx) (b : Bool) : NodeIdx :=
  match nodeAt node p with
  | some (.internal _ left right) =>
    match nodeAt node (childOf b left right) with
    | some (.internal _ _ _) => childOf b left right
    | _ => root
  | _ => root

/-- Where a sequence of bits takes the pointer. -/
def ptrAfterBits (node : Table NodeEntry) (root : NodeIdx) : NodeIdx → List Bool → NodeIdx :=
  List.foldl (ptrAfterBit node root)

@[simp] theorem ptrAfterBits_nil (p : NodeIdx) : ptrAfterBits node root p [] = p := rfl

@[simp] theorem ptrAfterBits_cons (p : NodeIdx) (b : Bool) (bits : List Bool) :
    ptrAfterBits node root p (b :: bits) = ptrAfterBits node root (ptrAfterBit node root p b) bits := rfl

@[simp] theorem ptrAfterBits_append (p : NodeIdx) (xs ys : List Bool) :
    ptrAfterBits node root p (xs ++ ys) = ptrAfterBits node root (ptrAfterBits node root p xs) ys := List.foldl_append

section

variable {w w' : Count} {l r l' r' : NodeIdx} {a : Symbol} {b : Bool}

theorem ptrAfterBit_of_leaf (hp : nodeAt node p = some (.leaf a w)) (b : Bool) : ptrAfterBit node root p b = root := by
  rw [ptrAfterBit, hp]

theorem ptrAfterBit_to_leaf (hp : nodeAt node p = some (.internal w l r))
    (hnext : nodeAt node (childOf b l r) = some (.leaf a w')) : ptrAfterBit node root p b = root := by
  rw [ptrAfterBit, hp]
  simp only [hnext]

theorem ptrAfterBit_to_internal (hp : nodeAt node p = some (.internal w l r))
    (hnext : nodeAt node (childOf b l r) = some (.internal w' l' r')) : ptrAfterBit node root p b = childOf b l r := by
  rw [ptrAfterBit, hp]
  simp only [hnext]

end

/-! ### Paths -/

/-- A path that ends in a digit takes it at an internal node. -/
theorem followPath_snoc {word : List Bool} {b : Bool} : followPath node p (word ++ [b]) = some i ↔
    ∃ j w l r, followPath node p word = some j ∧ nodeAt node j = some (.internal w l r) ∧ childOf b l r = i := by
  rw [followPath_append]
  cases followPath node p word with
  | none => simp
  | some j => rcases hj : nodeAt node j with _ | ⟨a, w⟩ | ⟨w, l, r⟩ <;> simp [followPath, hj]

/-- The pointer follows a path as long as it meets no leaf. -/
theorem ptrAfterBits_of_path {word : List Bool} {w : Count} {l r : NodeIdx} (hpath : followPath node p word = some i)
    (hi : nodeAt node i = some (.internal w l r)) : ptrAfterBits node root p word = i := by
  induction word using List.reverseRecOn generalizing i w l r with
  | nil => exact Option.some.inj hpath
  | append_singleton word b ih =>
    obtain ⟨j, wj, lj, rj, hword, hj, rfl⟩ := followPath_snoc.1 hpath
    rw [ptrAfterBits_append, ih hword hj]
    exact ptrAfterBit_to_internal hj hi

/-- Paths lead down. -/
theorem TreeOk.followPath_le (h : TreeOk freq node nleaf nnodes) {word : List Bool} (hp : p.toNat < nnodes)
    (hpath : followPath node p word = some i) : i.toNat + word.length ≤ p.toNat := by
  induction word using List.reverseRecOn generalizing i with
  | nil => exact Option.some.inj hpath ▸ le_rfl
  | append_singleton word b ih =>
    obtain ⟨j, w, l, r, hword, hj, rfl⟩ := followPath_snoc.1 hpath
    have hle := ih hword
    have hlt := h.child_lt (by omega) hj b
    simp only [List.length_append, List.length_singleton]
    omega

/-! ### Whole codewords -/

theorem isCodewordSequence_nil : IsCodewordSequence node root [] := ⟨[], nofun, rfl⟩

theorem IsCodewordSequence.append_codeword {whole word : List Bool} (h : IsCodewordSequence node root whole)
    (hword : IsCodeword node root word) : IsCodewordSequence node root (whole ++ word) := by
  obtain ⟨words, hwords, rfl⟩ := h
  exact ⟨words ++ [word], by simpa [or_imp, forall_and] using ⟨hwords, hword⟩, by simp⟩

/-- The last digit of a codeword reaches its leaf and returns the pointer to the root (43_decode.md R131). -/
theorem IsCodeword.ptrAfterBits_eq {word : List Bool} (h : IsCodeword node root word) :
    ptrAfterBits node root root word = root := by
  obtain ⟨i, a, w, hpath, hi⟩ := h
  rcases word.eq_nil_or_concat' with rfl | ⟨digits, b, rfl⟩
  · rfl
  · obtain ⟨j, wj, l, r, hdigits, hj, rfl⟩ := followPath_snoc.1 hpath
    rw [ptrAfterBits_append, ptrAfterBits_of_path hdigits hj]
    exact ptrAfterBit_to_leaf hj hi

theorem IsCodewordSequence.ptrAfterBits_eq {bits : List Bool} (h : IsCodewordSequence node root bits) :
    ptrAfterBits node root root bits = root := by
  obtain ⟨words, hwords, rfl⟩ := h
  induction words with
  | nil => rfl
  | cons word words ih =>
    obtain ⟨hword, hrest⟩ := List.forall_mem_cons.1 hwords
    rw [List.flatten_cons, ptrAfterBits_append, hword.ptrAfterBits_eq, ih hrest]

/-- Bits are whole codewords and then a path from the root to the pointer, which is internal (43_decode.md R134). -/
theorem TreeOk.exists_whole_and_path (h : TreeOk freq node nleaf nnodes) (hlt : root.toNat < nnodes)
    (hroot : ∃ w l r, nodeAt node root = some (.internal w l r)) (bits : List Bool) :
    ∃ whole path, IsCodewordSequence node root whole ∧ bits = whole ++ path ∧
      followPath node root path = some (ptrAfterBits node root root bits) ∧
      ∃ w l r, nodeAt node (ptrAfterBits node root root bits) = some (.internal w l r) := by
  induction bits using List.reverseRecOn with
  | nil => exact ⟨[], [], isCodewordSequence_nil, rfl, rfl, hroot⟩
  | append_singleton bits b ih =>
    obtain ⟨whole, path, hwhole, hbits, hpath, w, l, r, hp⟩ := ih
    have hstep : ptrAfterBits node root root (bits ++ [b]) = ptrAfterBit node root (ptrAfterBits node root root bits) b := by
      simp
    have hchild : followPath node root (path ++ [b]) = some (childOf b l r) := followPath_snoc.2 ⟨_, w, l, r, hpath, hp, rfl⟩
    obtain ⟨⟨a, w'⟩ | ⟨w', l', r'⟩, hnext⟩ := h.exists_entry (h.followPath_lt hlt hchild)
    · rw [hstep, ptrAfterBit_to_leaf hp hnext]
      exact ⟨whole ++ (path ++ [b]), [], hwhole.append_codeword ⟨_, a, w', hchild, hnext⟩, by simp [hbits], rfl, hroot⟩
    · rw [hstep, ptrAfterBit_to_internal hp hnext]
      exact ⟨whole, path ++ [b], hwhole, by simp [hbits], hchild, w', l', r', hnext⟩

/-- The pointer is at the root exactly after whole codewords (43_decode.md R134): no path but the empty one leads from the
root to the root. -/
theorem TreeOk.ptrAfterBits_eq_root_iff (h : TreeOk freq node nleaf nnodes) (hlt : root.toNat < nnodes)
    (hroot : ∃ w l r, nodeAt node root = some (.internal w l r)) {bits : List Bool} :
    ptrAfterBits node root root bits = root ↔ IsCodewordSequence node root bits := by
  refine ⟨fun hback => ?_, IsCodewordSequence.ptrAfterBits_eq⟩
  obtain ⟨whole, path, hwhole, rfl, hpath, -⟩ := h.exists_whole_and_path hlt hroot bits
  have hle := h.followPath_le hlt (hback ▸ hpath)
  obtain rfl : path = [] := List.eq_nil_of_length_eq_zero (by omega)
  rwa [List.append_nil]

end Sys2Proof.Machine
end

section
/-! SUPPORT. A decode transaction in a state that meets the invariants: every bit is accepted (43_decode.md R136) and moves
the pointer as the tree says, one bit at a time and over a whole run (R134; 45_pipelines.md R164). -/

namespace Sys2Proof.Machine

variable {s t u : State} {i : Instr} {w : CmdWord} {ws : List CmdWord} {r : Response} {log : List Exchange}

/-! ### Runs of one command and more (30_encoding.md R88) -/

theorem transact_encode (hexec : exec i s = .next t) (hr : t.rsp = some r) :
    transact (encode i) s = some (takeResponse t, r) :=
  transact_eq_some.2 ⟨t, (runWord_of_decode (decode_encode i) s).trans hexec, hr, rfl⟩

theorem runWords_cons (hw : transact w s = some (t, r)) (hws : runWords ws t = some (u, log)) :
    runWords (w :: ws) s = some (u, (w, r) :: log) := by
  simp only [runWords, hw, hws]

/-- A taken response leaves the invariants: nothing waits on the port. -/
theorem Inv.responseTaken (h : Inv s) : Inv (takeResponse s) := h.withPorts (rsp := none) nofun s.host

/-! ### One bit (R131, R133, R136) -/

/-- In a decode transaction every bit answers OK and moves the pointer as the tree says. -/
theorem Inv.exec_dbit (h : Inv s) (hmode : s.mode = .dec) (b : Bool) :
    ∃ v, exec (.dbit b) s = .next (answered { s with ptr := ptrAfterBit s.mem.node s.root s.ptr b } v) := by
  have htv := h.registers.decTv hmode
  cases hs : single s with
  | true =>
    obtain ⟨hptr, hroot⟩ := h.pointer.one hmode hs
    obtain ⟨⟨a, w⟩ | ⟨w, l, r⟩, he, -⟩ := h.rootWeight htv
    · have hstay : ptrAfterBit s.mem.node s.root s.ptr b = s.ptr := by
        rw [hptr, ← hroot]
        exact ptrAfterBit_of_leaf he b
      rw [hstay]
      exact ⟨_, exec_dbit_single hmode he b⟩
    · simp [h.not_single_of_internal htv he] at hs
  | false =>
    obtain ⟨-, wr, lr, rr, hroot⟩ := h.root_internal htv hs
    obtain ⟨hlt, w, l, r, hptr⟩ := h.pointer.many hmode hs
    rw [exec_dbit_eq_decodeMove hmode hroot hptr]
    obtain ⟨⟨a, w'⟩ | ⟨w', l', r'⟩, hnext⟩ := h.exists_node htv (lt_trans ((h.tree htv).child_lt hlt hptr b) hlt)
    · rw [ptrAfterBit_to_leaf hptr hnext]
      exact ⟨_, decodeMove_leaf hnext⟩
    · rw [ptrAfterBit_to_internal hptr hnext]
      exact ⟨_, decodeMove_internal hnext⟩

/-- Settles O44: a bit moves the pointer and answers OK, and neither touches `MODE`. -/
theorem everyBitHasAMove : Obligations.EveryBitHasAMove := by
  intro s b h hmode
  obtain ⟨v, hexec⟩ := h.exec_dbit hmode b
  exact ⟨_, _, hexec, rfl, hmode⟩

/-! ### A run of bits (R134) -/

/-- A run of bits in a decode transaction answers OK throughout and moves the pointer alone. -/
theorem Inv.runWords_dbits (h : Inv s) (hmode : s.mode = .dec) (hrsp : s.rsp = none) (bits : List Bool) :
    ∃ log, runWords (bits.map fun b => encode (.dbit b)) s =
      some ({ s with ptr := ptrAfterBits s.mem.node s.root s.ptr bits, rsp := none }, log) ∧ allOk log = true := by
  induction bits generalizing s with
  | nil => exact ⟨[], by rw [← hrsp]; rfl, rfl⟩
  | cons b bits ih =>
    obtain ⟨v, hexec⟩ := h.exec_dbit hmode b
    obtain ⟨log, hrun, hok⟩ := ih (exec_inv h hexec).responseTaken hmode rfl
    exact ⟨_, runWords_cons (transact_encode hexec rfl) hrun, by simpa [allOk] using hok⟩

/-- Settles O57: DECBEG puts the pointer at the root, and from there the bits take it where the tree says. -/
theorem pointerAtRootBetweenCodewords : Obligations.PointerAtRootBetweenCodewords := by
  intro s bits h hmode htv hs
  have hbegin := exec_decbeg_idle hmode htv
  obtain ⟨log, hrun, hok⟩ := (exec_inv h hbegin).responseTaken.runWords_dbits rfl rfl bits
  obtain ⟨hlt, hroot⟩ := h.root_internal htv hs
  obtain ⟨-, -, -, -, -, hinternal⟩ := (h.tree htv).exists_whole_and_path hlt hroot bits
  exact ⟨_, _, runWords_cons (transact_encode hbegin rfl) hrun, by simpa [allOk] using hok, rfl, hinternal,
    (h.tree htv).ptrAfterBits_eq_root_iff hlt hroot⟩

end Sys2Proof.Machine
end

section
/-! SUPPORT. NOP and the readback commands of 44_readback.md by their cases: what each answers and where it raises (R140 to
R144), and that an answer is all they leave (R145). -/

namespace Sys2Proof.Machine

variable {s t : State}

theorem succeed_eq_answered (s : State) {d : RspData} {v : Nat} (h : d.toNat = v) : succeed d s = .next (answered s v) :=
  congrArg _ (respond_eq_answered s h)

/-! ### NOP (R140) -/

/-- Settles O15: the response is all NOP writes, and its word is its encoding. -/
theorem nopResult : Obligations.NopResult :=
  ⟨decode_encode .nop, fun s => succeed_eq_answered s BitVec.toNat_zero⟩

/-! ### RDREG (R141) -/

theorem encode_rdreg (r : RegNum) : encode (.rdreg r) = 0xB000#16 ||| r.setWidth 16 :=
  encode_eq_match_or_operand (op := 0xB#4) rfl (by decide) (toNat_zero_append r)

/-- The register map of 10_state.md R37 in numbers; past its eight entries no register is named. -/
theorem registerValue_toNat (r : RegNum) (s : State) :
    (registerValue s r).map BitVec.toNat =
      [statusNumber s, s.total.toNat, s.nleaf.toNat, s.nnodes.toNat, s.root.toNat, s.ptr.toNat, s.errinfo.toNat,
        0x2008][r.toNat]? := by
  unfold registerValue
  split
  case h_9 =>
    have hreserved : 8 ≤ r.toNat := by grind
    simp [hreserved]
  all_goals
    rename_i hr
    simp [hr, -BitVec.toNat_setWidth, BitVec.toNat_setWidth_of_le, toNat_statusWord, Config.configWord]

theorem exec_rdreg_named {r : RegNum} {v : BitVec 32} (hv : registerValue s r = some v) :
    exec (.rdreg r) s = .next (answered s v.toNat) := by
  rw [exec, execRdreg, hv]
  exact succeed_eq_answered s (toNat_payload v (by decide))

theorem exec_rdreg_reserved {r : RegNum} (hv : registerValue s r = none) :
    exec (.rdreg r) s = .next (erred s 7 r.toNat) := by
  rw [exec, execRdreg, hv]
  exact abort_eq_erred .range (BitVec.toNat_setWidth_of_le (by decide)) s

/-- Settles O34: by whether the number names a register, whose value the response carries. -/
theorem rdregResult : Obligations.RdregResult := by
  refine ⟨fun r => encode_rdreg r ▸ decode_encode (.rdreg r), fun r s => ?_⟩
  rw [← registerValue_toNat]
  cases hv : registerValue s r with
  | some v => exact exec_rdreg_named hv
  | none => exact exec_rdreg_reserved hv

/-! ### RDFREQ (R142) -/

theorem encode_rdfreq (a : Symbol) : encode (.rdfreq a) = 0xC000#16 ||| a.setWidth 16 :=
  encode_eq_match_or_operand (op := 0xC#4) rfl (by decide) (toNat_zero_append a)

/-- Settles O35: RDFREQ has one case, and a count fits the response. -/
theorem rdfreqResult : Obligations.RdfreqResult :=
  ⟨fun a => encode_rdfreq a ▸ decode_encode (.rdfreq a), fun a s =>
    succeed_eq_answered s (toNat_payload (readFreq s a) (by decide))⟩

/-! ### RDNODE (R143) -/

theorem encode_rdnode (i : NodeIdx) : encode (.rdnode i) = 0xD000#16 ||| i.setWidth 16 :=
  encode_eq_match_or_operand (op := 0xD#4) rfl (by decide) (toNat_zero_append i)

theorem exec_rdnode_entry {i : NodeIdx} {e : NodeEntry} (htv : s.tv = true) (hi : i.toNat < s.nnodes.toNat)
    (he : readNode s i = some e) : exec (.rdnode i) s = .next (answered s (nodeNumber e)) := by
  rw [exec, execRdnode, if_pos htv, if_neg (Nat.not_le.2 hi), he]
  exact succeed_eq_answered s ((toNat_payload _ (by decide)).trans (toNat_nodeWord e))

theorem exec_rdnode_past_tree {i : NodeIdx} (htv : s.tv = true) (hi : s.nnodes.toNat ≤ i.toNat) :
    exec (.rdnode i) s = .next (erred s 7 i.toNat) := by
  rw [exec, execRdnode, if_pos htv, if_pos hi]
  exact abort_eq_erred .range rfl s

theorem exec_rdnode_without_tree (htv : s.tv = false) (i : NodeIdx) : exec (.rdnode i) s = .next (erred s 4 13) := by
  rw [exec, execRdnode, if_neg (by simp [htv])]
  exact abortSeq_eq_erred (.rdnode i) s

/-- Settles O36: by whether there is a tree and, with one, by whether the index is below its number of nodes. -/
theorem rdnodeResult : Obligations.RdnodeResult :=
  ⟨fun i => encode_rdnode i ▸ decode_encode (.rdnode i), fun i _ =>
    ⟨fun _ => exec_rdnode_entry, exec_rdnode_past_tree, fun htv => exec_rdnode_without_tree htv i⟩⟩

/-! ### RDCODE (R144) -/

theorem encode_rdcode (a : Symbol) : encode (.rdcode a) = 0xE000#16 ||| a.setWidth 16 :=
  encode_eq_match_or_operand (op := 0xE#4) rfl (by decide) (toNat_zero_append a)

theorem exec_rdcode_entry {a : Symbol} {e : CodeEntry} (hcv : s.cv = true) (he : readCode s a = some e) :
    exec (.rdcode a) s = .next (answered s (codeNumber e)) := by
  rw [exec, execRdcode, if_pos hcv, he]
  exact succeed_eq_answered s (toNat_codeWord e)

theorem exec_rdcode_without_table (hcv : s.cv = false) (a : Symbol) : exec (.rdcode a) s = .next (erred s 4 14) := by
  rw [exec, execRdcode, if_neg (by simp [hcv])]
  exact abortSeq_eq_erred (.rdcode a) s

/-- Settles O37: by whether there is a code table. -/
theorem rdcodeResult : Obligations.RdcodeResult :=
  ⟨fun a => encode_rdcode a ▸ decode_encode (.rdcode a), fun a _ =>
    ⟨fun _ => exec_rdcode_entry, fun hcv => exec_rdcode_without_table hcv a⟩⟩

/-! ### What readback leaves unchanged (R145) -/

theorem Effect.eq_respond_of_readback {i : Instr} (h : Effect s i t)
    (hi : i = .nop ∨ (∃ n, i = .rdreg n) ∨ (∃ a, i = .rdfreq a) ∨ (∃ n, i = .rdnode n) ∨ (∃ a, i = .rdcode a)) :
    ∃ d, t = respond d s := by
  rcases hi with rfl | ⟨n, rfl⟩ | ⟨a, rfl⟩ | ⟨n, rfl⟩ | ⟨a, rfl⟩ <;> cases h <;> exact ⟨_, rfl⟩

/-- Settles O38: an error leaves what every error leaves, and the effect of a readback command is its response. -/
theorem readbackChangesNothing : Obligations.ReadbackChangesNothing := by
  intro i s t r hi h hr
  rcases exec_cases h with ⟨e, v, rfl⟩ | heff
  · obtain rfl : ⟨errorNumber e, 0#264⟩ = r := by simpa using hr
    exact ⟨fun hok => absurd hok (errorNumber_ne_zero e), fun _ => ⟨_, _, raiseError_eq_erred s e v⟩⟩
  · obtain ⟨d, rfl⟩ := heff.eq_respond_of_readback hi
    obtain rfl : ⟨0#4, d⟩ = r := by simpa using hr
    exact ⟨fun _ => rfl, fun hne => absurd rfl hne⟩

end Sys2Proof.Machine
end

section
/-! SUPPORT. Runs of BUILDTREE and DERIVECODES from any state (45_pipelines.md R150, R151): the state COLLECT with the counts
of an input, then the tree of those counts and its code table. -/

namespace Sys2Proof.Machine

variable {s t u : State} {i : Instr} {ws ws' : List CmdWord} {log log' : List Exchange} {symbols : List Symbol}

/-! ### Runs one after another (R164) -/

/-- All a run that begins with a word can be. -/
theorem runWords_cons_cases {w : CmdWord} (h : runWords (w :: ws) s = some (u, log)) :
    ∃ t r log', transact w s = some (t, r) ∧ runWords ws t = some (u, log') ∧ log = (w, r) :: log' := by
  rw [runWords] at h
  split at h
  · cases h
  · split at h
    · cases h
    · cases h
      exact ⟨_, _, _, ‹_›, ‹_›, rfl⟩

theorem runWords_append (h : runWords ws s = some (t, log)) (h' : runWords ws' t = some (u, log')) :
    runWords (ws ++ ws') s = some (u, log ++ log') := by
  induction ws generalizing s log with
  | nil =>
    obtain ⟨rfl, rfl⟩ : s = t ∧ [] = log := by simpa [runWords] using h
    exact h'
  | cons w ws ih =>
    obtain ⟨t1, r, log1, hw, hws, rfl⟩ := runWords_cons_cases h
    exact runWords_cons hw (ih hws)

theorem runWords_encode {r : Response} (hexec : exec i s = .next t) (hr : t.rsp = some r) :
    runWords [encode i] s = some (takeResponse t, [(encode i, r)]) :=
  runWords_cons (transact_encode hexec hr) rfl

theorem allOk_cons {x : Exchange} : allOk (x :: log) = true ↔ x.2.err = 0#4 ∧ allOk log = true := by
  simp [allOk]

theorem allOk_append (h : allOk log = true) (h' : allOk log' = true) : allOk (log ++ log') = true := by
  simp only [allOk, List.all_append, Bool.and_eq_true] at h h' ⊢
  exact ⟨h, h'⟩

/-! ### Counting an input (R150, 40_build.md R91, R92) -/

/-- The state COLLECT in which exactly the symbols of an input have been counted, with no response waiting. -/
structure Counted (symbols : List Symbol) (s : State) : Prop where
  inv : Inv s
  mode : s.mode = .idle
  tv : s.tv = false
  rsp : s.rsp = none
  total : s.total.toNat = symbols.length
  freq : ∀ a, (readFreq s a).toNat = symbols.count a

theorem Counted.cv (h : Counted symbols s) : s.cv = false := h.inv.registers.cv_of_noTree h.tv

/-- A symbol is present exactly if the input holds it (10_state.md R34). -/
theorem Counted.present_iff (h : Counted symbols s) {a : Symbol} : freqAt s.mem.freq a ≠ 0#32 ↔ a ∈ symbols := by
  rw [← List.count_pos_iff, ← h.freq a, Nat.pos_iff_ne_zero, ne_eq, ne_eq, ← BitVec.toNat_inj]
  rfl

/-- After CLR nothing has been counted, whatever the state was. -/
theorem counted_clearCore (s : State) : Counted [] (takeResponse (clearCore s)) where
  inv := Inv.withPorts invariantsHoldAtReset (rsp := none) nofun s.host
  mode := rfl
  tv := rfl
  rsp := rfl
  total := rfl
  freq _ := rfl

/-- SYM counts one more symbol while there is room. -/
theorem Counted.exec_sym (h : Counted symbols s) (hroom : symbols.length < Config.maxCount) (a : Symbol) :
    ∃ t, exec (.sym a) s = .next t ∧ (∃ d, t.rsp = some ⟨0#4, d⟩) ∧ Counted (symbols ++ [a]) (takeResponse t) := by
  obtain ⟨t, hexec, hsame, hother, htotal, ht⟩ :=
    (symCountsOne.2 a s).1 h.mode h.tv (h.total.trans_lt hroom) (h.inv.readFreq_le a)
  have hrsp : t.rsp = some ⟨0#4, 0#264⟩ := by rw [ht]
  refine ⟨t, hexec, ⟨_, hrsp⟩, (exec_inv h.inv hexec).responseTaken, ?_, ?_, rfl, ?_, fun b => ?_⟩
  · rw [ht]
    exact h.mode
  · rw [ht]
    exact h.tv
  · simpa [h.total] using htotal
  · rw [List.count_append, ← h.freq b]
    by_cases hb : b = a
    · subst hb
      simpa [readFreq] using hsame
    · simpa [readFreq, List.count_singleton, Ne.symm hb] using congrArg BitVec.toNat (hother b hb)

theorem Counted.runWords_syms (h : Counted symbols s) (more : List Symbol)
    (hroom : (symbols ++ more).length ≤ Config.maxCount) :
    ∃ t log, runWords (more.map fun a => encode (.sym a)) s = some (t, log) ∧ allOk log = true ∧
      Counted (symbols ++ more) t := by
  induction more generalizing symbols s with
  | nil => exact ⟨s, [], rfl, rfl, by rwa [List.append_nil]⟩
  | cons a more ih =>
    rw [List.append_cons] at hroom ⊢
    obtain ⟨t, hexec, ⟨d, hr⟩, ht⟩ := h.exec_sym (by simp at hroom; omega) a
    obtain ⟨u, log, hrun, hok, hu⟩ := ih ht hroom
    exact ⟨u, _, runWords_cons (transact_encode hexec hr) hrun, allOk_cons.2 ⟨rfl, hok⟩, hu⟩

/-- CLR and the SYM commands of an input that fits `TOTAL` count exactly that input. -/
theorem runWords_count (symbols : List Symbol) (s : State) (hlen : symbols.length ≤ Config.maxCount) :
    ∃ c log, runWords (encode .clr :: symbols.map fun a => encode (.sym a)) s = some (c, log) ∧ allOk log = true ∧
      Counted symbols c := by
  obtain ⟨c, log, hrun, hok, hc⟩ := (counted_clearCore s).runWords_syms symbols hlen
  exact ⟨c, _, runWords_cons (transact_encode (exec_clr_next.2 rfl) rfl) hrun, allOk_cons.2 ⟨rfl, hok⟩, hc⟩

/-! ### The tree and the code table of an input (R150, R151) -/

theorem exec_build_of_tree {b : BuiltTree} (hmode : s.mode = .idle) (htv : s.tv = false) (hne : s.total ≠ 0#32)
    (hb : buildTree s.mem.freq s.mem.node = .ok b) :
    exec .build s = .next (respond (payload b.root) (installTree b s)) := by
  rw [exec, execBuild, if_pos ⟨hmode, htv⟩, if_neg hne, hb]
  rfl

/-- The state TREE in which BUILD has made the tree `b` of the input counted in `c`, and its invariants. -/
structure TreeOf (symbols : List Symbol) (c : State) (b : BuiltTree) : Prop where
  counted : Counted symbols c
  tree : buildTree c.mem.freq c.mem.node = .ok b
  inv : Inv (takeResponse (installTree b c))

/-- The state READY in which DERIVE has filled the code table of that tree, and its invariants. -/
structure ReadyOf (symbols : List Symbol) (c : State) (b : BuiltTree) (code : Table CodeEntry) : Prop where
  treeOf : TreeOf symbols c b
  codes : deriveCodes b.node b.root = .ok code
  inv : Inv (takeResponse (installCode code (installTree b c)))

/-- A counted input that is not empty has a tree. -/
theorem Counted.exists_tree (h : Counted symbols s) (hne : symbols ≠ []) :
    ∃ b, TreeOf symbols s b ∧ exec .build s = .next (respond (payload b.root) (installTree b s)) := by
  have hpos : freqSum s.mem.freq ≠ 0 := by
    rw [← h.inv.sum, h.total]
    simpa using hne
  have htotal : s.total ≠ 0#32 := fun h0 => hpos (h.inv.sum.symm.trans (by simp [h0]))
  have hmax : freqSum s.mem.freq ≤ Config.maxCount := h.inv.sum ▸ Nat.le_of_lt_succ s.total.isLt
  obtain ⟨b, hb⟩ := buildTree_total s.mem.node hpos hmax
  have hexec := exec_build_of_tree h.mode h.tv htotal hb
  exact ⟨b, ⟨h, hb, (exec_inv h.inv hexec).responseTaken⟩, hexec⟩

/-- A tree has a code table. -/
theorem TreeOf.exists_codes {c : State} {b : BuiltTree} (h : TreeOf symbols c b) :
    ∃ code, ReadyOf symbols c b code ∧
      exec .derive (takeResponse (installTree b c)) =
        .next (respond 0#264 (installCode code (takeResponse (installTree b c)))) := by
  have hb := buildTree_ok h.tree
  obtain ⟨hpos, hnn, hroot⟩ : _ ∧ _ ∧ _ := ⟨hb.pos, hb.nnodes, hb.root⟩
  obtain ⟨code, hcode⟩ := deriveCodes_total hb.tree (root := b.root) (by omega) (by omega)
  have hexec := exec_derive_codes (s := takeResponse (installTree b c)) h.counted.mode rfl h.counted.cv hcode
  exact ⟨code, ⟨h, hcode, (exec_inv h.inv hexec).responseTaken⟩, hexec⟩

/-- BUILDTREE of an input that is not empty and fits `TOTAL` counts it and builds its tree (R150). -/
theorem runWords_buildTree (s : State) (hne : symbols ≠ []) (hlen : symbols.length ≤ Config.maxCount) :
    ∃ c b log, TreeOf symbols c b ∧ allOk log = true ∧
      runWords (buildTreeWords symbols) s = some (takeResponse (installTree b c), log) := by
  obtain ⟨c, log, hrun, hok, hc⟩ := runWords_count symbols s hlen
  obtain ⟨b, hb, hexec⟩ := hc.exists_tree hne
  have hbuild := runWords_encode hexec rfl
  exact ⟨c, b, _, hb, allOk_append hok rfl, runWords_append hrun hbuild⟩

/-- DERIVECODES after it fills the code table of that tree (R151). -/
theorem runWords_deriveCodes (s : State) (hne : symbols ≠ []) (hlen : symbols.length ≤ Config.maxCount) :
    ∃ c b code log, ReadyOf symbols c b code ∧ allOk log = true ∧
      runWords (buildTreeWords symbols ++ deriveCodesWords) s =
        some (takeResponse (installCode code (installTree b c)), log) := by
  obtain ⟨c, b, log, hb, hok, hrun⟩ := runWords_buildTree s hne hlen
  obtain ⟨code, hcode, hexec⟩ := hb.exists_codes
  have hderive := runWords_encode hexec rfl
  exact ⟨c, b, code, _, hcode, allOk_append hok rfl, runWords_append hrun hderive⟩

/-- Settles O52: `TOTAL` counts the input, and the invariants make it the weight of the root. -/
theorem rootWeightIsInputLength : Obligations.RootWeightIsInputLength := by
  refine ⟨fun symbols s hne hlen => ?_, fun s h => h.rootWeight⟩
  obtain ⟨c, b, log, h, hok, hrun⟩ := runWords_buildTree s hne hlen
  obtain ⟨e, he, hweight⟩ := h.inv.rootWeight rfl
  exact ⟨_, log, e, hrun, hok, rfl, he, (congrArg BitVec.toNat hweight).trans h.counted.total⟩

end Sys2Proof.Machine
end

section
/-! SUPPORT. DERIVE reads only the tree (41_derive.md R110), so two states with one tree get one code table, and the
permutations of an input get one tree (40_build.md R98; 45_pipelines.md R160). -/

namespace Sys2Proof.Machine

variable {freq : Table Count} {node node' : Table NodeEntry} {nleaf nnodes : Nat} {root : NodeIdx}

/-- The walk from nodes of a tree reads entries of that tree only. -/
theorem deriveWalk_congr (ht : TreeOk freq node nleaf nnodes)
    (hsame : ∀ i, i < nnodes → tableGet node' i = tableGet node i) {fuel : Nat} {stk : List StackEntry}
    {code : Table CodeEntry} (hstk : ∀ e ∈ stk, e.node.toNat < nnodes) :
    deriveWalk node' fuel stk code = deriveWalk node fuel stk code := by
  induction fuel generalizing stk code with
  | zero => cases stk <;> rw [deriveWalk, deriveWalk]
  | succ fuel ih =>
    cases stk with
    | nil => rw [deriveWalk, deriveWalk]
    | cons e stk =>
      obtain ⟨he, hrest⟩ := List.forall_mem_cons.1 hstk
      have hread : nodeAt node' e.node = nodeAt node e.node := hsame _ he
      obtain ⟨⟨a, w⟩ | ⟨w, left, right⟩, hentry⟩ := ht.exists_entry he
      · rw [deriveWalk, deriveWalk, hread, hentry]
        exact ih hrest
      · rw [deriveWalk, deriveWalk, hread, hentry]
        have hchild := fun d => (ht.child_lt he hentry d).trans he
        cases nextLen e.len with
        | none => rfl
        | some len =>
          exact ih (List.forall_mem_cons.2 ⟨hchild false, List.forall_mem_cons.2 ⟨hchild true, hrest⟩⟩)

theorem deriveCodes_congr (ht : TreeOk freq node nleaf nnodes) (hroot : root.toNat < nnodes)
    (hsame : ∀ i, i < nnodes → tableGet node' i = tableGet node i) : deriveCodes node' root = deriveCodes node root := by
  have hread : nodeAt node' root = nodeAt node root := hsame _ hroot
  rw [deriveCodes, deriveCodes, hread, deriveWalk_congr ht hsame (by simpa using hroot)]

/-- Two inputs with equal counts leave equal counts, trees and code tables. -/
theorem ReadyOf.sameTreeAndTable {symbols symbols' : List Symbol} {c c' : State} {b b' : BuiltTree}
    {code code' : Table CodeEntry} (h : ReadyOf symbols c b code) (h' : ReadyOf symbols' c' b' code')
    (hfreq : ∀ a, freqAt c.mem.freq a = freqAt c'.mem.freq a) :
    SameTreeAndTable (takeResponse (installCode code (installTree b c)))
      (takeResponse (installCode code' (installTree b' c'))) := by
  obtain ⟨t, ht, hnleaf, hnnodes, hroot, hnode⟩ := treeIsAFunctionOfCounts _ _ _ c'.mem.node b hfreq h.treeOf.tree
  obtain rfl : b' = t := Except.ok.inj (h'.treeOf.tree.symm.trans ht)
  have hb := buildTree_ok h.treeOf.tree
  obtain ⟨hbpos, hbnodes, hbroot⟩ : _ ∧ _ ∧ _ := ⟨hb.pos, hb.nnodes, hb.root⟩
  have hcodes := deriveCodes_congr hb.tree (root := b.root) (by omega) hnode
  rw [h.codes, ← hroot, h'.codes] at hcodes
  obtain rfl : code' = code := Except.ok.inj hcodes
  exact ⟨hnleaf, hnnodes, hroot, fun i hi => hnode _ hi, fun _ => rfl⟩

/-- Settles O54: a permutation has the same counts, and the tree and the code table are functions of the counts. -/
theorem permutedInputsGiveOneTree : Obligations.PermutedInputsGiveOneTree := by
  intro symbols symbols' s s' hperm hne hlen
  obtain ⟨c, b, code, log, h, -, hrun⟩ := runWords_deriveCodes s hne hlen
  obtain ⟨c', b', code', log', h', -, hrun'⟩ :=
    runWords_deriveCodes s' (fun hnil => hne (hperm.trans (.of_eq hnil)).eq_nil) (hperm.length_eq ▸ hlen)
  have hfreq : ∀ a, freqAt c.mem.freq a = freqAt c'.mem.freq a := fun a =>
    BitVec.eq_of_toNat_eq ((h.treeOf.counted.freq a).trans ((hperm.count_eq a).trans (h'.treeOf.counted.freq a).symm))
  exact ⟨_, log, _, log', hrun, hrun', rfl, rfl, fun a => (hfreq a).symm, h.sameTreeAndTable h' hfreq⟩

end Sys2Proof.Machine
end

section
/-! SUPPORT. The codewords of a code table as paths of its tree (10_state.md R40; 41_derive.md R111, R112), and that none
begins another (45_pipelines.md R157). -/

namespace Sys2Proof.Machine

variable {freq : Table Count} {node : Table NodeEntry} {root : NodeIdx} {code : Table CodeEntry} {nleaf nnodes : Nat}
variable {a b : Symbol} {word word' : List Bool}

/-! ### Codewords as paths (41_derive.md R111) -/

/-- The digits lead from the root to a leaf of the symbol. -/
def IsCodewordOf (node : Table NodeEntry) (root : NodeIdx) (a : Symbol) (word : List Bool) : Prop :=
  ∃ i w, followPath node root word = some i ∧ nodeAt node i = some (.leaf a w)

/-- A codeword ends at its leaf, so only itself begins with it. -/
theorem IsCodewordOf.eq_of_prefix (h : IsCodewordOf node root a word) (h' : IsCodewordOf node root b word')
    (hpre : word <+: word') : a = b := by
  obtain ⟨i, w, hpath, hi⟩ := h
  obtain ⟨j, w', hpath', hj⟩ := h'
  obtain ⟨rest, rfl⟩ := hpre
  rw [followPath_append, hpath, Option.bind_some] at hpath'
  obtain ⟨-, rfl⟩ := followPath_of_leaf hi hpath'
  rw [hi] at hj
  cases hj
  rfl

/-- Where the root is internal a codeword has a digit. -/
theorem IsCodewordOf.ne_nil (h : IsCodewordOf node root a word) {w : Count} {l r : NodeIdx}
    (hroot : nodeAt node root = some (.internal w l r)) : word ≠ [] := by
  rintro rfl
  obtain ⟨i, w', hpath, hi⟩ := h
  obtain rfl : root = i := Option.some.inj hpath
  simp [hroot] at hi

/-! ### Codewords of the table (10_state.md R35, R40) -/

/-- A symbol present has a valid entry, whose digits are its codeword. -/
theorem CodeOk.exists_valid (h : CodeOk freq node root code) (ha : freqAt freq a ≠ 0#32) :
    ∃ e, codeAt code a = some e ∧ e.valid = true ∧ CodeEntryOk freq node root a e ∧ tableCode code a = codeDigits e := by
  obtain ⟨e, he, hok⟩ := h a
  have hvalid := hok.validIff.2 ha
  exact ⟨e, he, hvalid, hok, by simp [tableCode, he, hvalid]⟩

theorem CodeOk.isCodewordOf (h : CodeOk freq node root code) (ha : freqAt freq a ≠ 0#32)
    (hroot : ∃ w l r, nodeAt node root = some (.internal w l r)) : IsCodewordOf node root a (tableCode code a) := by
  obtain ⟨e, -, hvalid, hok, hdigits⟩ := h.exists_valid ha
  exact hdigits ▸ hok.path hvalid hroot

theorem CodeOk.tableCode_of_leaf (h : CodeOk freq node root code) (ha : freqAt freq a ≠ 0#32)
    (hroot : ∃ b w, nodeAt node root = some (.leaf b w)) : tableCode code a = [false] := by
  obtain ⟨e, -, hvalid, hok, hdigits⟩ := h.exists_valid ha
  exact hdigits.trans (hok.singleLeaf hvalid hroot)

/-- A tree whose root is a leaf has no other symbol. -/
theorem TreeOk.eq_of_root_leaf (ht : TreeOk freq node nleaf nnodes) (hnn : nnodes + 1 = 2 * nleaf)
    (hroot : root.toNat + 1 = nnodes) {w : Count} (hleaf : nodeAt node root = some (.leaf b w))
    (ha : freqAt freq a ≠ 0#32) : a = b := by
  have hlt := (ht.present_of_leaf (by omega) hleaf).1
  obtain ⟨i, hi, he⟩ := ht.present a ha
  obtain rfl : i = root.toNat := by omega
  rw [nodeAt_eq, he] at hleaf
  cases hleaf
  rfl

/-- The codewords of a tree's table are non-empty and none begins another. -/
theorem CodeOk.isPrefixCode (h : CodeOk freq node root code) (ht : TreeOk freq node nleaf nnodes)
    (hnn : nnodes + 1 = 2 * nleaf) (hroot : root.toNat + 1 = nnodes) : IsPrefixCode freq (tableCode code) := by
  obtain ⟨⟨c, w⟩ | ⟨w, l, r⟩, he⟩ := ht.exists_entry (i := root) (by omega)
  · refine ⟨fun a ha => by simp [h.tableCode_of_leaf ha ⟨c, w, he⟩], fun a b ha hb hne => absurd ?_ hne⟩
    exact (ht.eq_of_root_leaf hnn hroot he ha).trans (ht.eq_of_root_leaf hnn hroot he hb).symm
  · have hword := fun {a} ha => h.isCodewordOf (a := a) ha ⟨w, l, r, he⟩
    exact ⟨fun a ha => (hword ha).ne_nil he, fun a b ha hb hne hpre => hne ((hword ha).eq_of_prefix (hword hb) hpre)⟩

/-- Settles O51: each codeword is the path to its own leaf, from which no path leads on. -/
theorem codewordsArePrefixFree : Obligations.CodewordsArePrefixFree := by
  intro s h hcv
  have htv := h.registers.cvTv hcv
  obtain ⟨hpos, -, hnn, hroot, -⟩ := h.registers.tree htv
  exact (h.code hcv).isPrefixCode (h.tree htv) (by omega) (by omega)

end Sys2Proof.Machine
end

section
/-! SUPPORT. Transactions and their results (45_pipelines.md R152 to R154): what the responses to a run of ENC or DBIT
commands add up to, and how the commands that open and close the transaction end it. -/

namespace Sys2Proof.Machine

variable {s t u : State} {ws : List CmdWord} {log : List Exchange} {symbols : List Symbol} {bits : List Bool}

/-! ### The result of a run inside a transaction (R154) -/

/-- The symbols a run of DBIT commands emits (30_encoding.md R82). -/
def emitted (log : List Exchange) : List Symbol := log.flatMap fun x => (responseSymbol x.2).toList

/-- The digits a run of ENC commands answers (42_encode.md R123). -/
def encoded (log : List Exchange) : List Bool := log.flatMap fun x => responseDigits x.2

theorem emitted_append (log log' : List Exchange) : emitted (log ++ log') = emitted log ++ emitted log' :=
  List.flatMap_append

/-- A log holds the words of the run, in order. -/
theorem runWords_words (h : runWords ws s = some (t, log)) : log.map Prod.fst = ws := by
  induction ws generalizing s log with
  | nil =>
    obtain ⟨-, rfl⟩ : s = t ∧ [] = log := by simpa [runWords] using h
    rfl
  | cons w ws ih =>
    obtain ⟨t1, r, log1, -, hws, rfl⟩ := runWords_cons_cases h
    rw [List.map_cons, ih hws]

/-- Bits that answer OK put the symbols they emit before the rest of the result. -/
theorem decodeRest_bits (hwords : log.map Prod.fst = bits.map fun b => encode (.dbit b)) (hok : allOk log = true)
    (rest : List Exchange) : decodeRest (log ++ rest) = (decodeRest rest).map (emitted log ++ ·) := by
  induction bits generalizing log with
  | nil =>
    obtain rfl : log = [] := by simpa using hwords
    simp [emitted]
  | cons b bits ih =>
    obtain ⟨⟨w, r⟩, log, rfl, rfl, hlog⟩ := List.map_eq_cons_iff.1 hwords
    obtain ⟨hr, hok⟩ : r.err = 0#4 ∧ _ := allOk_cons.1 hok
    simp only [List.cons_append, decodeRest, decode_encode, ih hlog hok]
    simp [hr, emitted, Function.comp_def]

/-- Symbols that answer OK put their digits before the rest of the result. -/
theorem encodeRest_symbols (hwords : log.map Prod.fst = symbols.map fun a => encode (.enc a)) (hok : allOk log = true)
    (rest : List Exchange) : encodeRest (log ++ rest) = (encodeRest rest).map (encoded log ++ ·) := by
  induction symbols generalizing log with
  | nil =>
    obtain rfl : log = [] := by simpa using hwords
    simp [encoded]
  | cons a symbols ih =>
    obtain ⟨⟨w, r⟩, log, rfl, rfl, hlog⟩ := List.map_eq_cons_iff.1 hwords
    obtain ⟨hr, hok⟩ : r.err = 0#4 ∧ _ := allOk_cons.1 hok
    simp only [List.cons_append, encodeRest, decode_encode, ih hlog hok]
    simp [hr, encoded, Function.comp_def]

/-! ### Encode transactions (R152) -/

/-- The state ENCBEG opens an encode transaction in, its response taken. -/
def encodingState (s : State) : State := { s with mode := .enc, rsp := none }

/-- Symbols that answer OK make a transaction that completes with their digits. -/
theorem runWords_encode_symbols (hmode : s.mode = .idle) (hcv : s.cv = true)
    (hrun : runWords (symbols.map fun a => encode (.enc a)) (encodingState s) = some (t, log)) (hok : allOk log = true)
    (ht : t.mode = .enc) :
    ∃ log', runWords (encodeWords symbols) s = some ({ t with mode := .idle, rsp := none }, log') ∧
      encodeResult log' = some (encoded log) := by
  have hend := runWords_encode (exec_encend_open ht) rfl
  refine ⟨_, runWords_cons (transact_encode (exec_encbeg_idle hmode hcv) rfl) (runWords_append hrun hend), ?_⟩
  simp [encodeResult, decode_encode, encodeRest_symbols (runWords_words hrun) hok, encodeRest]

/-! ### Decode transactions (R153) -/

/-- The state DECBEG opens a decode transaction in, its response taken. -/
def decodingState (s : State) : State := { s with ptr := s.root, mode := .dec, rsp := none }

/-- Bits that end with the pointer at the root make a transaction that completes with the symbols they emit. -/
theorem runWords_decode_whole (hmode : s.mode = .idle) (htv : s.tv = true)
    (hrun : runWords (bits.map fun b => encode (.dbit b)) (decodingState s) = some (t, log)) (hok : allOk log = true)
    (ht : t.mode = .dec) (hptr : t.ptr = t.root) :
    ∃ u log', runWords (decodeWords bits) s = some (u, log') ∧ decodeResult log' = some (emitted log) := by
  have hend := runWords_encode (exec_decend_at_root ht hptr) rfl
  refine ⟨_, _, runWords_cons (transact_encode (exec_decbeg_idle hmode htv) rfl) (runWords_append hrun hend), ?_⟩
  simp [decodeResult, decode_encode, decodeRest_bits (runWords_words hrun) hok, decodeRest]

/-- Bits that end with the pointer elsewhere make a transaction whose DECEND raises and that has no result. -/
theorem runWords_decode_cut (hmode : s.mode = .idle) (htv : s.tv = true)
    (hrun : runWords (bits.map fun b => encode (.dbit b)) (decodingState s) = some (t, log)) (hok : allOk log = true)
    (ht : t.mode = .dec) (hptr : t.ptr ≠ t.root) :
    ∃ u log', runWords (decodeWords bits) s = some (u, log') ∧
      log'.getLast? = some (encode .decend, ⟨3#4, 0#264⟩) ∧ decodeResult log' = none := by
  have hend := runWords_encode (exec_decend_truncated ht hptr) rfl
  refine ⟨_, _, runWords_cons (transact_encode (exec_decbeg_idle hmode htv) rfl) (runWords_append hrun hend), ?_, ?_⟩
  · rw [← List.cons_append, List.getLast?_append]
    rfl
  · simp [decodeResult, decode_encode, decodeRest_bits (runWords_words hrun) hok, decodeRest]

/-! ### Empty and truncated transactions (R163, R166) -/

/-- CLR and then BUILD: nothing is counted. -/
theorem runWords_buildTree_nil (s : State) : ∃ t log, runWords (buildTreeWords []) s = some (t, log) ∧
    log.getLast? = some (encode .build, ⟨1#4, 0#264⟩) := by
  have hbuild := runWords_encode (exec_build_empty (s := takeResponse (clearCore s)) rfl rfl rfl) rfl
  exact ⟨_, _, runWords_cons (transact_encode (exec_clr_next.2 rfl) rfl) hbuild, rfl⟩

/-- Settles O58: a transaction closes where it opened, and BUILD finds `TOTAL` 0. -/
theorem emptyTransactionsComplete : Obligations.EmptyTransactionsComplete := by
  refine ⟨fun s hmode hcv => ?_, fun s hmode htv => ?_, runWords_buildTree_nil⟩
  · exact ⟨_, runWords_encode_symbols (symbols := []) hmode hcv rfl rfl rfl⟩
  · exact runWords_decode_whole (bits := []) hmode htv rfl rfl rfl rfl

/-- Settles O56: whole codewords bring the pointer back to the root, and the cut one takes it to a node below the root. -/
theorem truncationIsDetected : Obligations.TruncationIsDetected := by
  intro s whole cut h hmode htv hwhole hcut
  obtain ⟨hpos, -, hnn, hroot, -⟩ := h.registers.tree htv
  obtain ⟨hne, i, w, l, r, hpath, hi⟩ := hcut
  have hptr : ptrAfterBits s.mem.node s.root s.root (whole ++ cut) = i := by
    rw [ptrAfterBits_append, hwhole.ptrAfterBits_eq, ptrAfterBits_of_path hpath hi]
  have hbelow : i ≠ s.root := by
    have hlt : s.root.toNat < s.nnodes.toNat := by omega
    have hle := (h.tree htv).followPath_le hlt hpath
    have hlength := List.length_pos_of_ne_nil hne
    rintro rfl
    omega
  have hdec : Inv (decodingState s) := (h.decodeAtRoot htv).responseTaken
  obtain ⟨log, hrun, hok⟩ := hdec.runWords_dbits rfl rfl (whole ++ cut)
  exact runWords_decode_cut hmode htv hrun hok rfl (hptr ▸ hbelow)

end Sys2Proof.Machine
end

section
/-! SUPPORT. What ENC answers, DBIT emits (45_pipelines.md R156): the digits of a codeword take the pointer from the root to
the leaf of its symbol and back. -/

namespace Sys2Proof.Machine

variable {s : State} {a : Symbol} {symbols : List Symbol}

/-! ### Responses (30_encoding.md R81, R82; 42_encode.md R123) -/

/-- The bits of a code word: `valid`, then the bits of `len`, then those of the path (30_encoding.md R81). -/
theorem getLsbD_codeWord (e : CodeEntry) (k : Nat) :
    (codeWord e).getLsbD (1 + k) = if k < 8 then e.len.getLsbD k else e.bits.getLsbD (k - 8) := by
  rw [codeWord, BitVec.getLsbD_append, if_neg (by omega), BitVec.getLsbD_append, Nat.add_sub_cancel_left]

theorem responseDigits_codeWord (e : CodeEntry) : responseDigits ⟨0#4, BitVec.ofNat 264 (codeNumber e)⟩ = codeDigits e := by
  have hword : BitVec.ofNat 264 (codeNumber e) = codeWord e := by
    rw [← toNat_codeWord, BitVec.ofNat_toNat, BitVec.setWidth_eq]
  have hlen : (codeWord e).extractLsb' 1 8 = e.len := BitVec.eq_of_getLsbD_eq fun k hk => by
    rw [BitVec.getLsbD_extractLsb', getLsbD_codeWord, if_pos hk, decide_eq_true hk, Bool.true_and]
  have hdigit : ∀ k, (codeWord e).getLsbD (9 + k) = e.bits.getLsbD k := fun k => by
    rw [show 9 + k = 1 + (8 + k) by omega, getLsbD_codeWord, if_neg (by omega), Nat.add_sub_cancel_left]
  simp only [responseDigits, codeDigits, hword, hlen, hdigit]

theorem responseSymbol_emit (a : Symbol) : responseSymbol ⟨0#4, BitVec.ofNat 264 (2 * a.toNat + 1)⟩ = some a := by
  have ha := a.isLt
  have hbit : (BitVec.ofNat 264 (2 * a.toNat + 1)).getLsbD 0 = true := by rw [BitVec.getLsbD_ofNat]; simp
  have hsymbol : (BitVec.ofNat 264 (2 * a.toNat + 1)).extractLsb' 1 8 = a := BitVec.eq_of_toNat_eq (by
    rw [BitVec.extractLsb'_toNat, BitVec.toNat_ofNat, Nat.shiftRight_eq_div_pow]
    omega)
  rw [responseSymbol, if_pos hbit, hsymbol]

theorem responseSymbol_zero : responseSymbol ⟨0#4, BitVec.ofNat 264 0⟩ = none :=
  if_neg (by simp)

/-! ### Encoding (R152) -/

/-- In an encode transaction the symbols present answer their codewords and change nothing. -/
theorem Inv.runWords_encs (h : Inv s) (hmode : s.mode = .enc) (hrsp : s.rsp = none)
    (hpresent : ∀ a ∈ symbols, freqAt s.mem.freq a ≠ 0#32) :
    ∃ log, runWords (symbols.map fun a => encode (.enc a)) s = some (s, log) ∧ allOk log = true ∧
      encoded log = symbols.flatMap (tableCode s.mem.code) := by
  induction symbols with
  | nil => exact ⟨[], rfl, rfl, rfl⟩
  | cons a symbols ih =>
    obtain ⟨ha, hrest⟩ := List.forall_mem_cons.1 hpresent
    obtain ⟨log, hrun, hok, hlog⟩ := ih hrest
    obtain ⟨e, he, hvalid, -, hdigits⟩ := (h.code (h.registers.encCv hmode)).exists_valid ha
    have hback : takeResponse (answered s (codeNumber e)) = s := by rw [takeResponse, answered, ← hrsp]
    have hfirst := transact_encode (exec_enc_valid hmode he hvalid) rfl
    rw [hback] at hfirst
    refine ⟨_, runWords_cons hfirst hrun, allOk_cons.2 ⟨rfl, hok⟩, ?_⟩
    rw [List.flatMap_cons, ← hlog, hdigits, ← responseDigits_codeWord]
    rfl

/-! ### Decoding (R153) -/

/-- A path that begins with a digit takes it at an internal node. -/
theorem followPath_cons {node : Table NodeEntry} {p i : NodeIdx} {d : Bool} {ds : List Bool} :
    followPath node p (d :: ds) = some i ↔
      ∃ w l r, nodeAt node p = some (.internal w l r) ∧ followPath node (childOf d l r) ds = some i := by
  rcases hp : nodeAt node p with _ | ⟨a, w⟩ | ⟨w, l, r⟩ <;> simp [followPath, hp]

/-- The digits of a path from the pointer to a leaf emit the symbol of the leaf, at the last of them, and return the pointer
to the root (43_decode.md R131). -/
theorem runWords_path {word : List Bool} {p i : NodeIdx} {w wr : Count} {lr rr : NodeIdx} (hmode : s.mode = .dec)
    (hroot : readNode s s.root = some (.internal wr lr rr)) (hne : word ≠ [])
    (hpath : followPath s.mem.node p word = some i) (hi : readNode s i = some (.leaf a w)) :
    ∃ log, runWords (word.map fun b => encode (.dbit b)) { s with ptr := p, rsp := none } =
      some ({ s with ptr := s.root, rsp := none }, log) ∧ allOk log = true ∧ emitted log = [a] := by
  induction word generalizing p with
  | nil => exact absurd rfl hne
  | cons d ds ih =>
    obtain ⟨wp, l, r, hp, hrest⟩ := followPath_cons.1 hpath
    have hexec := exec_dbit_eq_decodeMove (s := { s with ptr := p, rsp := none }) hmode hroot hp d
    cases ds with
    | nil =>
      obtain rfl : childOf d l r = i := Option.some.inj hrest
      have hrun := runWords_encode (hexec.trans (decodeMove_leaf hi)) rfl
      exact ⟨_, hrun, rfl, by simp [emitted, responseSymbol_emit]⟩
    | cons d' ds =>
      obtain ⟨wn, ln, rn, hnext, -⟩ := followPath_cons.1 hrest
      obtain ⟨log, hrun, hok, hlog⟩ := ih (by simp) hrest
      have hfirst := transact_encode (hexec.trans (decodeMove_internal hnext)) rfl
      exact ⟨_, runWords_cons hfirst hrun, allOk_cons.2 ⟨rfl, hok⟩, by simpa [emitted, responseSymbol_zero] using hlog⟩

/-- The digits of the codeword of a symbol present emit it and leave the pointer at the root (R156, R133). -/
theorem Inv.runWords_codeword (h : Inv s) (hcv : s.cv = true) (ha : freqAt s.mem.freq a ≠ 0#32) :
    ∃ log, runWords ((tableCode s.mem.code a).map fun b => encode (.dbit b)) (decodingState s) =
      some (decodingState s, log) ∧ allOk log = true ∧ emitted log = [a] := by
  have htv := h.registers.cvTv hcv
  obtain ⟨hpos, -, hnn, hroot, -⟩ := h.registers.tree htv
  obtain ⟨⟨b, w⟩ | ⟨w, l, r⟩, he⟩ := h.exists_node htv (i := s.root) (by omega)
  · obtain rfl : a = b := (h.tree htv).eq_of_root_leaf (by omega) (by omega) he ha
    have hrun := runWords_encode (exec_dbit_single (s := decodingState s) rfl he false) rfl
    rw [(h.code hcv).tableCode_of_leaf ha ⟨a, w, he⟩]
    exact ⟨_, hrun, rfl, by simp [emitted, responseSymbol_emit]⟩
  · have hword := (h.code hcv).isCodewordOf ha ⟨w, l, r, he⟩
    obtain ⟨i, wi, hpath, hi⟩ := id hword
    exact runWords_path (s := decodingState s) rfl he (hword.ne_nil he) hpath hi

/-- The digits of the codewords of symbols present emit those symbols. -/
theorem Inv.runWords_codewords (h : Inv s) (hcv : s.cv = true) (hpresent : ∀ a ∈ symbols, freqAt s.mem.freq a ≠ 0#32) :
    ∃ log, runWords ((symbols.flatMap (tableCode s.mem.code)).map fun b => encode (.dbit b)) (decodingState s) =
      some (decodingState s, log) ∧ allOk log = true ∧ emitted log = symbols := by
  induction symbols with
  | nil => exact ⟨[], rfl, rfl, rfl⟩
  | cons a symbols ih =>
    obtain ⟨ha, hrest⟩ := List.forall_mem_cons.1 hpresent
    obtain ⟨log, hrun, hok, hlog⟩ := h.runWords_codeword hcv ha
    obtain ⟨log', hrun', hok', hlog'⟩ := ih hrest
    rw [List.flatMap_cons, List.map_append]
    exact ⟨_, runWords_append hrun hrun', allOk_append hok hok', by rw [emitted_append, hlog, hlog']; rfl⟩

/-! ### Round trip (R156) -/

/-- With a code table, ENCODE of symbols present completes, and DECODE of the digits it answers gives them back. -/
theorem Inv.encode_then_decode (h : Inv s) (hcv : s.cv = true) (hmode : s.mode = .idle)
    (hpresent : ∀ a ∈ symbols, freqAt s.mem.freq a ≠ 0#32) :
    ∃ bits u log v log', runWords (encodeWords symbols) s = some (u, log) ∧ encodeResult log = some bits ∧
      runWords (decodeWords bits) u = some (v, log') ∧ decodeResult log' = some symbols := by
  have henc : Inv (encodingState s) := (exec_inv h (exec_encbeg_idle hmode hcv)).responseTaken
  obtain ⟨log, hrun, hok, hlog⟩ := henc.runWords_encs rfl rfl hpresent
  obtain ⟨elog, henc_run, henc_result⟩ := runWords_encode_symbols hmode hcv hrun hok rfl
  have hclosed := (exec_inv henc (exec_encend_open rfl)).responseTaken
  obtain ⟨log', hrun', hok', hlog'⟩ := hclosed.runWords_codewords hcv hpresent
  obtain ⟨v, dlog, hdec_run, hdec_result⟩ := runWords_decode_whole
    (s := { encodingState s with mode := .idle, rsp := none }) rfl (h.registers.cvTv hcv) hrun' hok' rfl rfl
  exact ⟨_, _, _, v, dlog, henc_run, henc_result, hlog ▸ hdec_run, hlog' ▸ hdec_result⟩

/-- Settles O50: after BUILDTREE and DERIVECODES exactly the symbols of the input are present. -/
theorem roundTrip : Obligations.RoundTrip := by
  intro symbols s hne hlen
  obtain ⟨c, b, code, log, h, hok, hrun⟩ := runWords_deriveCodes s hne hlen
  obtain ⟨bits, u, log', v, log'', hencode, hbits, hdecode, hsymbols⟩ :=
    h.inv.encode_then_decode rfl h.treeOf.counted.mode fun a => h.treeOf.counted.present_iff.2
  exact ⟨_, log, bits, u, log', v, log'', hrun, hok, hencode, hbits, hdecode, hsymbols⟩

end Sys2Proof.Machine
end

section
/-! SUPPORT. Two symbols of equal count (45_pipelines.md R162): BUILD's one merge puts the leaf of the smaller symbol on the
left (40_build.md R94 to R96), so its codeword is "0". -/

namespace Sys2Proof.Machine

variable {freq : Table Count} {node : Table NodeEntry} {root : NodeIdx} {a b c : Symbol}

/-! ### The tree of two symbols -/

theorem presentSymbols_nodup (freq : Table Count) : (presentSymbols freq).Nodup :=
  presentSymbols_ascending.imp fun hlt heq => by simp [heq] at hlt

theorem presentSymbols_eq_pair (hab : a.toNat < b.toNat) (hpresent : ∀ x, freqAt freq x ≠ 0#32 ↔ x = a ∨ x = b) :
    presentSymbols freq = [a, b] := by
  have hpair : [a, b].Pairwise fun x y => x.toNat < y.toNat := by simpa using hab
  have hne : a ≠ b := fun heq => by simp [heq] at hab
  have hperm : (presentSymbols freq).Perm [a, b] :=
    (List.perm_ext_iff_of_nodup (presentSymbols_nodup freq) (by simpa using hne)).2 fun x => by
      rw [mem_presentSymbols, hpresent]
      simp
  exact hperm.eq_of_pairwise (fun x y _ _ hxy hyx => absurd hxy (Nat.lt_asymm hyx)) presentSymbols_ascending hpair

/-- Of two queued nodes of equal weight the one of the smaller index becomes the left child (R94, R96). -/
theorem mergeStep_pair {b b' : TreeBuild} {i j : NodeIdx} {ei ej : NodeEntry} (hq : b.pq = [i, j])
    (hij : i.toNat < j.toNat) (hi : nodeAt b.node i = some ei) (hj : nodeAt b.node j = some ej)
    (hweight : entryWeight ei = entryWeight ej) (hs : mergeStep b = .ok b') :
    ∃ w, tableGet b'.node b.next = some (.internal w i j) := by
  have hne : i ≠ j := fun h => by simp [h] at hij
  obtain ⟨lo, hi', el, eh, w, hlo, hhi, hlohi, -, -, hbefore, -, -, hmerged, -⟩ :=
    mergeJoinsTheTwoLeast b b' (by simpa [hq] using hne) hs
  have hfirst : before b.node j i = .ok false := before_asymm (by
    rw [before_ok hi hj, Except.ok.injEq, beforeKeys_iff]
    exact .inr ⟨by rw [hweight], hij⟩)
  rw [hq, List.mem_pair] at hlo hhi
  rcases hlo with rfl | rfl
  · obtain rfl : hi' = j := hhi.resolve_left (Ne.symm hlohi)
    exact ⟨w, hmerged⟩
  · obtain rfl : hi' = i := hhi.resolve_right (Ne.symm hlohi)
    simp [hfirst] at hbefore

/-- A queue of two takes one merge. -/
theorem mergeLoop_pair {fuel : Nat} {b b' : TreeBuild} (hq : b.pq.length = 2) (h : mergeLoop (fuel + 2) b = .ok b') :
    mergeStep b = .ok b' := by
  rw [mergeLoop, if_pos (by omega)] at h
  split at h
  · rename_i b1 hs
    have hlength := (mergeStep_counts hs).1
    rw [mergeLoop, if_neg (by omega)] at h
    rw [hs, h]
  · cases h

/-- The tree of two symbols of equal count: one internal node, the leaf of the smaller symbol on its left. -/
theorem buildTree_pair {t : BuiltTree} (h : buildTree freq node = .ok t) (hpresent : presentSymbols freq = [a, b])
    (heq : freqAt freq a = freqAt freq b) :
    nodeAt t.node 0#9 = some (.leaf a (freqAt freq a)) ∧ nodeAt t.node 1#9 = some (.leaf b (freqAt freq b)) ∧
      ∃ w, nodeAt t.node t.root = some (.internal w 0#9 1#9) := by
  have hb := buildTree_ok h
  have hroot : t.root.toNat = 2 := by rw [hb.root, hb.nnodes, hb.nleaf, hpresent]; rfl
  obtain ⟨c, root, hm, -, rfl⟩ := buildTree_cases h
  obtain ⟨hnext, hpq, hleaf, -⟩ := seedLeaves_spec freq node
  have hf := mergeLoop_forest (seedLeaves_forest freq node) hm
  rw [hpresent] at hnext hpq hleaf
  rw [hnext] at hm
  obtain ⟨w, hmerged⟩ := mergeStep_pair (i := 0#9) (j := 1#9) hpq (by decide) (hleaf 0 a rfl) (hleaf 1 b rfl) heq
    (mergeLoop_pair (by rw [hpq]; rfl) hm)
  refine ⟨hf.leaf 0 a (by rw [hpresent]; rfl), hf.leaf 1 b (by rw [hpresent]; rfl), w, ?_⟩
  rw [nodeAt_eq, hroot]
  exact hnext ▸ hmerged

/-! ### Its codewords -/

theorem IsCodewordOf.eq_singleton {word : List Bool} {w wl wr : Count} {l r : NodeIdx}
    (h : IsCodewordOf node root c word) (hroot : nodeAt node root = some (.internal w l r))
    (hl : nodeAt node l = some (.leaf a wl)) (hr : nodeAt node r = some (.leaf b wr)) :
    word = [false] ∧ c = a ∨ word = [true] ∧ c = b := by
  have hne := h.ne_nil hroot
  obtain ⟨i, w', hpath, hi⟩ := h
  obtain ⟨d, ds, rfl⟩ := List.exists_cons_of_ne_nil hne
  rw [followPath_cons_of_internal hroot] at hpath
  cases d
  · obtain ⟨rfl, rfl⟩ := followPath_of_leaf hl hpath
    rw [hl] at hi
    cases hi
    exact .inl ⟨rfl, rfl⟩
  · obtain ⟨rfl, rfl⟩ := followPath_of_leaf hr hpath
    rw [hr] at hi
    cases hi
    exact .inr ⟨rfl, rfl⟩

/-- The codewords of two symbols of equal count. -/
theorem CodeOk.tableCode_pair {code : Table CodeEntry} {t : BuiltTree} (h : CodeOk freq t.node t.root code)
    (ht : buildTree freq node = .ok t) (hpresent : presentSymbols freq = [a, b]) (hne : a ≠ b)
    (heq : freqAt freq a = freqAt freq b) : tableCode code a = [false] ∧ tableCode code b = [true] := by
  obtain ⟨hl, hr, w, hroot⟩ := buildTree_pair ht hpresent heq
  have hword : ∀ x ∈ presentSymbols freq, IsCodewordOf t.node t.root x (tableCode code x) := fun x hx =>
    h.isCodewordOf (mem_presentSymbols.1 hx) ⟨w, _, _, hroot⟩
  constructor
  · rcases (hword a (by simp [hpresent])).eq_singleton hroot hl hr with ⟨hword, -⟩ | ⟨-, hab⟩
    · exact hword
    · exact absurd hab hne
  · rcases (hword b (by simp [hpresent])).eq_singleton hroot hl hr with ⟨-, hba⟩ | ⟨hword, -⟩
    · exact absurd hba.symm hne
    · exact hword

/-- Settles O55: the input makes exactly its two symbols present, with equal counts. -/
theorem twoEqualSymbols : Obligations.TwoEqualSymbols := by
  intro a b symbols s hab hmem hcount hne hlen
  obtain ⟨c, t, code, log, h, hok, hrun⟩ := runWords_deriveCodes s hne hlen
  have hc := h.treeOf.counted
  have hboth : a ∈ symbols ∧ b ∈ symbols := by
    obtain ⟨x, hx⟩ := List.exists_mem_of_ne_nil symbols hne
    rcases hmem x hx with rfl | rfl
    · exact ⟨hx, List.count_pos_iff.1 (hcount ▸ List.count_pos_iff.2 hx)⟩
    · exact ⟨List.count_pos_iff.1 (hcount ▸ List.count_pos_iff.2 hx), hx⟩
  have hpresent : presentSymbols c.mem.freq = [a, b] := presentSymbols_eq_pair hab fun x => by
    rw [hc.present_iff]
    exact ⟨hmem x, by rintro (rfl | rfl); exacts [hboth.1, hboth.2]⟩
  have heq : freqAt c.mem.freq a = freqAt c.mem.freq b :=
    BitVec.eq_of_toNat_eq ((hc.freq a).trans (hcount.trans (hc.freq b).symm))
  have hcodes : CodeOk c.mem.freq t.node t.root code := h.inv.code rfl
  exact ⟨_, log, hrun, hok, hcodes.tableCode_pair h.treeOf.tree hpresent (fun h => by simp [h] at hab) heq⟩

end Sys2Proof.Machine
end

section
/-! SUPPORT. The state graph of the commands (45_pipelines.md R155): the condition under which each command is legal, what
happens where it is not (60_exceptions.md R176), and the triple each leaves. -/

namespace Sys2Proof.Machine

variable {s t : State} {i : Instr}

/-! ### Legality (R155) -/

/-- The condition on `MODE`, `TV` and `CV` under which a command is legal. -/
def LegalIn (mode : Mode) (tv cv : Bool) : Instr → Prop
  | .nop | .clr | .rdreg _ | .rdfreq _ | .reservedF _ => True
  | .sym _ | .build => mode = .idle ∧ tv = false
  | .derive => mode = .idle ∧ tv = true ∧ cv = false
  | .encbeg => mode = .idle ∧ cv = true
  | .enc _ | .encend => mode = .enc
  | .decbeg => mode = .idle ∧ tv = true
  | .dbit _ | .decend => mode = .dec
  | .rdnode _ => tv = true
  | .rdcode _ => cv = true

/-- The lists of R155 hold the commands whose condition is met: state by state, command by command. -/
theorem mem_legalOpcodes_iff {mode : Mode} {tv cv : Bool} {legal : List Opcode} (hi : instrWellFormed i = true)
    (h : legalOpcodes mode tv cv = some legal) : instrOpcode i ∈ legal ↔ LegalIn mode tv cv i := by
  unfold legalOpcodes at h
  split at h <;> cases h
  all_goals
    cases i with
    | reservedF => cases hi
    | _ => simp [LegalIn, instrOpcode]

/-- A command not legal in the state raises `E_SEQ` before any other check (60_exceptions.md R176). -/
theorem exec_of_not_legal (h : ¬LegalIn s.mode s.tv s.cv i) : exec i s = .next (erred s 4 (instrOpcode i).toNat) := by
  rw [← abortSeq_eq_erred]
  cases i with
  | nop | clr | rdreg | rdfreq | reservedF => exact absurd trivial h
  | sym | build | derive | encbeg | enc | encend | decbeg | dbit | decend | rdnode | rdcode => exact if_neg h

/-- A result whose response, if any, is not `E_SEQ`. -/
def NoSeqError (result : Result) : Prop := ∀ t r, result = .next t → t.rsp = some r → r.err ≠ 4#4

theorem noSeqError_succeed (d : RspData) (s : State) : NoSeqError (succeed d s) := by
  rintro t r ⟨⟩ ⟨⟩
  exact (by decide : (0#4) ≠ 4#4)

theorem noSeqError_abort {e : ErrorCode} (he : e ≠ .seq) (v : Info) (s : State) : NoSeqError (abort e v s) := by
  rintro t r ⟨⟩ ⟨⟩
  exact fun h => he (errorNumber_injective h)

theorem noSeqError_fault (f : Fault) : NoSeqError (.fault f) := nofun

theorem noSeqError_decodeMove (nxt : NodeIdx) (s : State) : NoSeqError (decodeMove nxt s) := by
  unfold decodeMove
  split
  · exact noSeqError_fault _
  · exact noSeqError_succeed _ _
  · exact noSeqError_succeed _ _

/-- A legal command does not raise `E_SEQ`. -/
theorem exec_noSeqError (h : LegalIn s.mode s.tv s.cv i) : NoSeqError (exec i s) := by
  cases i <;> simp only [LegalIn] at h
  case nop | clr | rdfreq => exact noSeqError_succeed _ _
  case reservedF => exact noSeqError_abort (by decide) _ _
  case sym | build =>
    simp only [exec, execSym, execBuild, if_pos h]
    split
    · exact noSeqError_abort (by decide) _ _
    · split
      · exact noSeqError_succeed _ _
      · exact noSeqError_fault _
  case derive | rdcode =>
    simp only [exec, execDerive, execRdcode, if_pos h]
    split
    · exact noSeqError_succeed _ _
    · exact noSeqError_fault _
  case encbeg | encend | decbeg =>
    simp only [exec, execEncbeg, execEncend, execDecbeg, if_pos h]
    exact noSeqError_succeed _ _
  case enc =>
    simp only [exec, execEnc, if_pos h]
    split
    · exact noSeqError_fault _
    · split
      · exact noSeqError_abort (by decide) _ _
      · exact noSeqError_succeed _ _
  case dbit =>
    simp only [exec, execDbit, if_pos h]
    split
    · exact noSeqError_fault _
    · exact noSeqError_succeed _ _
    · split
      · exact noSeqError_fault _
      · exact noSeqError_fault _
      · exact noSeqError_decodeMove _ s
  case decend =>
    simp only [exec, execDecend, if_pos h]
    split
    · exact noSeqError_abort (by decide) _ _
    · exact noSeqError_succeed _ _
  case rdreg =>
    simp only [exec, execRdreg]
    split
    · exact noSeqError_succeed _ _
    · exact noSeqError_abort (by decide) _ _
  case rdnode =>
    simp only [exec, execRdnode, if_pos h]
    split
    · exact noSeqError_abort (by decide) _ _
    · split
      · exact noSeqError_succeed _ _
      · exact noSeqError_fault _

/-! ### The state a command leaves (R155) -/

theorem Effect.triple_eq (h : Effect s i t) : (t.mode, t.tv, t.cv) = tripleAfter i (s.mode, s.tv, s.cv) := by
  cases h <;> rfl

/-- The register invariants leave the six triples of R155. -/
theorem RegistersOk.legalOpcodes_ne_none (h : RegistersOk s) : legalOpcodes s.mode s.tv s.cv ≠ none := by
  obtain ⟨hcvTv, hencCv, hdecTv, -, -⟩ := h
  cases hm : s.mode <;> cases htv : s.tv <;> cases hcv : s.cv <;> simp_all [legalOpcodes]

/-- Settles O14: a command checks its condition first, and past it raises other errors only; what it leaves is by its
effect or by the error path. -/
theorem stateGraphOfCommands : Obligations.StateGraphOfCommands := by
  refine ⟨fun i s legal hi hlegal => ?_, fun s h => h.legalOpcodes_ne_none⟩
  rw [mem_legalOpcodes_iff hi hlegal]
  refine ⟨exec_of_not_legal, fun t r hexec hr => ⟨fun h => exec_noSeqError h t r hexec hr, ?_⟩⟩
  rcases exec_cases hexec with ⟨e, v, rfl⟩ | heff
  · obtain rfl : ⟨errorNumber e, 0#264⟩ = r := by simpa using hr
    exact ⟨fun hok => absurd hok (errorNumber_ne_zero e), fun _ => rfl⟩
  · obtain ⟨d, hd⟩ := heff.rsp_ok
    obtain rfl : ⟨0#4, d⟩ = r := by simpa [hd] using hr
    exact ⟨fun _ => heff.triple_eq, fun hne => absurd rfl hne⟩

end Sys2Proof.Machine
end

section
/-! SUPPORT. Weights and codeword lengths (45_pipelines.md R159): where no codeword begins another the Kraft sum is at most
1, and among any lengths whose Kraft sum is, the two least weights may be given one length, no shorter than any other, at
no cost. -/

namespace Sys2Proof.Machine

/-! ### Kraft sums -/

/-- `Σ 2^(-l)` over the lengths. -/
noncomputable def kraftSum (lengths : Multiset ℕ) : ℝ := (lengths.map fun l => (1 / 2 : ℝ) ^ l).sum

@[simp] theorem kraftSum_cons (l : ℕ) (lengths : Multiset ℕ) :
    kraftSum (l ::ₘ lengths) = (1 / 2) ^ l + kraftSum lengths := by
  simp [kraftSum]

theorem kraftSum_nonneg (lengths : Multiset ℕ) : 0 ≤ kraftSum lengths :=
  Multiset.sum_nonneg fun x hx => by
    obtain ⟨l, -, rfl⟩ := Multiset.mem_map.1 hx
    positivity

/-- A Kraft sum is a whole number of terms of its longest length. -/
theorem exists_kraftSum_mul {lengths : Multiset ℕ} {q : ℕ} (hle : ∀ l ∈ lengths, l ≤ q) :
    ∃ n : ℕ, kraftSum lengths * 2 ^ q = n := by
  induction lengths using Multiset.induction_on with
  | empty => exact ⟨0, by simp [kraftSum]⟩
  | cons l lengths ih =>
    obtain ⟨n, hn⟩ := ih fun l' hl' => hle l' (Multiset.mem_cons_of_mem hl')
    obtain ⟨k, rfl⟩ := Nat.exists_eq_add_of_le (hle l (Multiset.mem_cons_self _ _))
    refine ⟨2 ^ k + n, ?_⟩
    rw [kraftSum_cons, add_mul, hn, pow_add, ← mul_assoc, ← mul_pow]
    norm_num

/-- A Kraft sum below 1 has room for one more codeword of its longest length. -/
theorem kraftSum_add_le {lengths : Multiset ℕ} {q : ℕ} (hle : ∀ l ∈ lengths, l ≤ q) (hlt : kraftSum lengths < 1) :
    kraftSum lengths + (1 / 2) ^ q ≤ 1 := by
  obtain ⟨n, hn⟩ := exists_kraftSum_mul hle
  have hpos : (0 : ℝ) < 2 ^ q := by positivity
  have hnlt : n + 1 ≤ 2 ^ q := by
    have : (n : ℝ) < 2 ^ q := hn ▸ (mul_lt_iff_lt_one_left hpos).2 hlt
    exact_mod_cast this
  have hone : (1 / 2 : ℝ) ^ q * 2 ^ q = 1 := by rw [← mul_pow]; norm_num
  refine le_of_mul_le_mul_right ?_ hpos
  rw [add_mul, hn, hone, one_mul]
  exact_mod_cast hnlt

/-! ### Codes in which no codeword begins another (R157) -/

/-- Words none of which begins another can be told apart in a sequence. -/
theorem uniquelyDecodable_of_prefixFree {words : Set (List Bool)} (hne : [] ∉ words)
    (hfree : ∀ v ∈ words, ∀ w ∈ words, v <+: w → v = w) : InformationTheory.UniquelyDecodable words := by
  intro l₁
  induction l₁ with
  | nil =>
    intro l₂ _ h₂ heq
    cases l₂ with
    | nil => rfl
    | cons w l₂ =>
      obtain ⟨rfl, -⟩ := List.append_eq_nil_iff.1 heq.symm
      exact absurd (h₂ [] List.mem_cons_self) hne
  | cons v l₁ ih =>
    intro l₂ h₁ h₂ heq
    obtain ⟨hv, h₁⟩ := List.forall_mem_cons.1 h₁
    cases l₂ with
    | nil =>
      obtain ⟨rfl, -⟩ := List.append_eq_nil_iff.1 heq
      exact absurd hv hne
    | cons w l₂ =>
      obtain ⟨hw, hl₂⟩ := List.forall_mem_cons.1 h₂
      rw [List.flatten_cons, List.flatten_cons] at heq
      have hvw : v = w := by
        have hv_pre := List.prefix_append v l₁.flatten
        have hw_pre := List.prefix_append w l₂.flatten
        rcases List.prefix_or_prefix_of_prefix hv_pre (heq ▸ hw_pre) with h | h
        · exact hfree v hv w hw h
        · exact (hfree w hw v hv h).symm
      subst hvw
      rw [ih l₂ h₁ hl₂ (List.append_cancel_left heq)]

/-- The lengths a code gives the symbols present. -/
def presentLengths (freq : Table Count) (code : Symbol → List Bool) : Multiset ℕ :=
  (presentSymbols freq).map fun a => (code a).length

/-- The Kraft inequality for a code on the symbols present. -/
theorem IsPrefixCode.kraftSum_le {freq : Table Count} {code : Symbol → List Bool} (h : IsPrefixCode freq code) :
    kraftSum (presentLengths freq code) ≤ 1 := by
  obtain ⟨hne, hfree⟩ := h
  have heq : ∀ a ∈ presentSymbols freq, ∀ b ∈ presentSymbols freq, code a <+: code b → a = b := fun a ha b hb hpre =>
    by_contra fun hab => hfree a b (mem_presentSymbols.1 ha) (mem_presentSymbols.1 hb) hab hpre
  have hdecodable : InformationTheory.UniquelyDecodable
      (((presentSymbols freq).toFinset.image code : Finset (List Bool)) : Set (List Bool)) := by
    refine uniquelyDecodable_of_prefixFree ?_ ?_
    · simpa [mem_presentSymbols] using hne
    · simp only [Finset.coe_image, List.coe_toFinset, Set.mem_image, Set.mem_ofPred_eq]
      rintro _ ⟨a, ha, rfl⟩ _ ⟨b, hb, rfl⟩ hpre
      rw [heq a ha b hb hpre]
  have hinj : Set.InjOn code (presentSymbols freq).toFinset := fun a ha b hb hab =>
    heq a (by simpa using ha) b (by simpa using hb) (by rw [hab])
  have hkraft := InformationTheory.kraft_mcmillan_inequality hdecodable
  rw [Finset.sum_image hinj, List.sum_toFinset _ (presentSymbols_nodup freq)] at hkraft
  simpa [kraftSum, presentLengths, Function.comp_def] using hkraft

/-! ### The exchange argument -/

/-- The sum of weight times length. -/
def weightedSum (pairs : Multiset (ℕ × ℕ)) : ℕ := (pairs.map fun x => x.1 * x.2).sum

@[simp] theorem weightedSum_cons (x : ℕ × ℕ) (pairs : Multiset (ℕ × ℕ)) :
    weightedSum (x ::ₘ pairs) = x.1 * x.2 + weightedSum pairs := by
  simp [weightedSum]

/-- The least weight may be given the greatest length at no cost: the lengths change places only. -/
theorem exists_least_longest (x p : ℕ) {pairs : Multiset (ℕ × ℕ)} (hx : ∀ y ∈ pairs, x ≤ y.1) :
    ∃ p' pairs', pairs'.map Prod.fst = pairs.map Prod.fst ∧ p' ::ₘ pairs'.map Prod.snd = p ::ₘ pairs.map Prod.snd ∧
      x * p' + weightedSum pairs' ≤ x * p + weightedSum pairs ∧ ∀ y ∈ pairs', y.2 ≤ p' := by
  induction pairs using Multiset.induction_on with
  | empty => exact ⟨p, 0, rfl, rfl, le_rfl, by simp⟩
  | cons z pairs ih =>
    obtain ⟨hz, hrest⟩ := Multiset.forall_mem_cons.1 hx
    obtain ⟨p', pairs', hfst, hsnd, hcost, hmax⟩ := ih hrest
    by_cases hle : z.2 ≤ p'
    · refine ⟨p', z ::ₘ pairs', by simp [hfst], ?_, by simp; omega, Multiset.forall_mem_cons.2 ⟨hle, hmax⟩⟩
      rw [Multiset.map_cons, Multiset.map_cons, Multiset.cons_swap, hsnd, Multiset.cons_swap]
    · have hswap := mul_add_mul_le_mul_add_mul hz (Nat.le_of_not_le hle)
      refine ⟨z.2, (z.1, p') ::ₘ pairs', by simp [hfst], ?_, by simp; omega,
        Multiset.forall_mem_cons.2 ⟨Nat.le_of_not_le hle, fun y hy => (hmax y hy).trans (Nat.le_of_not_le hle)⟩⟩
      rw [Multiset.map_cons, Multiset.map_cons, hsnd, Multiset.cons_swap]

theorem exists_cons_of_map_eq_cons {α β : Type} {f : α → β} {m : Multiset α} {b : β} {t : Multiset β}
    (h : m.map f = b ::ₘ t) : ∃ a m', m = a ::ₘ m' ∧ f a = b ∧ m'.map f = t := by
  classical
  obtain ⟨a, ha, hb, ht⟩ := (Multiset.map_eq_cons f m t b).2 h
  exact ⟨a, m.erase a, (Multiset.cons_erase ha).symm, hb, ht⟩

/-- The two least weights may be given one length, as that of two siblings below a node of length `n`, at no cost. -/
theorem exists_sibling_lengths {x y p q : ℕ} {pairs : Multiset (ℕ × ℕ)} (hxy : x ≤ y) (hy : ∀ z ∈ pairs, y ≤ z.1)
    (hkraft : kraftSum (p ::ₘ q ::ₘ pairs.map Prod.snd) ≤ 1) :
    ∃ n pairs', pairs'.map Prod.fst = pairs.map Prod.fst ∧ kraftSum (n ::ₘ pairs'.map Prod.snd) ≤ 1 ∧
      (x + y) * (n + 1) + weightedSum pairs' ≤ x * p + (y * q + weightedSum pairs) := by
  obtain ⟨p1, pairs1, hfst1, hsnd1, hcost1, hmax1⟩ := exists_least_longest x p (pairs := (y, q) ::ₘ pairs)
    (Multiset.forall_mem_cons.2 ⟨hxy, fun z hz => hxy.trans (hy z hz)⟩)
  obtain ⟨⟨y', q1⟩, pairs2, rfl, hy', hfst2⟩ :=
    exists_cons_of_map_eq_cons (hfst1.trans (Multiset.map_cons ..))
  obtain rfl : y = y' := hy'.symm
  have hy2 : ∀ z ∈ pairs2, y ≤ z.1 := fun z hz => by
    obtain ⟨z', hz', heq⟩ := Multiset.mem_map.1 (hfst2 ▸ Multiset.mem_map_of_mem Prod.fst hz)
    exact heq ▸ hy z' hz'
  obtain ⟨q2, pairs3, hfst3, hsnd3, hcost3, hmax3⟩ := exists_least_longest y q1 hy2
  rw [Multiset.map_cons, Multiset.map_cons, ← hsnd3] at hsnd1
  rw [← hsnd1, kraftSum_cons] at hkraft
  obtain ⟨hq1, hmax2⟩ := Multiset.forall_mem_cons.1 hmax1
  have hq2 : q2 ≤ p1 := by
    rcases Multiset.mem_cons.1 (hsnd3 ▸ Multiset.mem_cons_self q2 _) with rfl | hmem
    · exact hq1
    · obtain ⟨z, hz, rfl⟩ := Multiset.mem_map.1 hmem
      exact hmax2 z hz
  have hlongest : ∀ l ∈ q2 ::ₘ pairs3.map Prod.snd, l ≤ q2 := by simpa using fun l w => hmax3 (w, l)
  have hterm : (0 : ℝ) < (1 / 2) ^ p1 := by positivity
  have hroom := kraftSum_add_le hlongest (by linarith)
  rw [kraftSum_cons] at hroom
  have hrest := kraftSum_nonneg (pairs3.map Prod.snd)
  cases q2 with
  | zero =>
    rw [pow_zero] at hroom
    linarith
  | succ n =>
    refine ⟨n, pairs3, hfst3.trans hfst2, ?_, ?_⟩
    · rw [kraftSum_cons]
      rw [pow_succ] at hroom
      linarith
    · have hle := Nat.mul_le_mul_left x hq2
      simp only [weightedSum_cons] at hcost1
      rw [add_mul]
      omega

end Sys2Proof.Machine
end

section
/-! SUPPORT. Optimality (45_pipelines.md R159): every merge joins two least roots (40_build.md R96), so no lengths with a Kraft
sum of at most 1 weigh less than the depths of the tree. -/

namespace Sys2Proof.Machine

variable {freq : Table Count} {node : Table NodeEntry} {nleaf nnodes : Nat} {root i j : NodeIdx} {depth : NodeIdx → Nat}

/-! ### Depths (41_derive.md R111) -/

/-- A node has one parent, and is one of its children only (10_state.md R38, items 1 and 3). -/
theorem TreeOk.parent_unique (h : TreeOk freq node nleaf nnodes) (hroot : root.toNat + 1 = nnodes) {w w' : Count}
    {l r l' r' : NodeIdx} {d d' : Bool} (hi : i.toNat < nnodes) (hj : j.toNat < nnodes)
    (he : nodeAt node i = some (.internal w l r)) (he' : nodeAt node j = some (.internal w' l' r'))
    (hchild : childOf d l r = childOf d' l' r') : i = j ∧ d = d' := by
  have hnodup : (childIndices node nnodes).Nodup :=
    (List.nodup_cons.1 ((h.root_cons_childIndices hroot).nodup_iff.2 List.nodup_range)).2
  obtain ⟨-, hdisjoint⟩ := List.nodup_flatMap.1 (childIndices_eq_flatMap node nnodes ▸ hnodup)
  have hmem : ∀ {k lk rk : NodeIdx} {wk : Count} (dk : Bool), nodeAt node k = some (.internal wk lk rk) →
      (childOf dk lk rk).toNat ∈ childrenOf node k.toNat := fun dk hk => by
    rw [childrenOf_of_internal hk]
    cases dk <;> simp [childOf]
  have hsymm : Std.Symm (Function.onFun List.Disjoint (childrenOf node)) := ⟨fun _ _ h => h.symm⟩
  have hij : i = j := BitVec.eq_of_toNat_eq (by_contra fun hne => by
    have hapart := hdisjoint.forall (List.mem_range.2 hi) (List.mem_range.2 hj) hne
    exact hapart (hmem d he) (hchild ▸ hmem d' he'))
  subst hij
  obtain ⟨_, left, right, -, -, hentry, hne, -⟩ := h.internals _ (h.nleaf_le_of_internal he) hi
  rw [← nodeAt_eq, he] at hentry
  rw [he] at he'
  cases he'
  cases hentry
  cases d <;> cases d' <;> simp_all [childOf]

/-- A node of a tree has one path from the root. -/
theorem TreeOk.path_unique (h : TreeOk freq node nleaf nnodes) (hroot : root.toNat + 1 = nnodes) {word word' : List Bool}
    (hpath : followPath node root word = some i) (hpath' : followPath node root word' = some i) : word = word' := by
  have hlt : root.toNat < nnodes := by omega
  induction word using List.reverseRecOn generalizing word' i with
  | nil =>
    obtain rfl : root = i := Option.some.inj hpath
    have := h.followPath_le hlt hpath'
    exact (List.eq_nil_of_length_eq_zero (by omega)).symm
  | append_singleton word b ih =>
    rcases word'.eq_nil_or_concat' with rfl | ⟨word', b', rfl⟩
    · obtain rfl : root = i := Option.some.inj hpath'
      have := h.followPath_le hlt hpath
      simp at this
    · obtain ⟨j, w, l, r, hword, hj, hchild⟩ := followPath_snoc.1 hpath
      obtain ⟨j', w', l', r', hword', hj', hchild'⟩ := followPath_snoc.1 hpath'
      obtain ⟨rfl, rfl⟩ := h.parent_unique hroot (h.followPath_lt hlt hword) (h.followPath_lt hlt hword') hj hj'
        (hchild.trans hchild'.symm)
      rw [ih hword hword']

/-- The depth of every node: the length of its path from the root. -/
def IsDepth (node : Table NodeEntry) (root : NodeIdx) (depth : NodeIdx → Nat) : Prop :=
  ∀ word i, followPath node root word = some i → depth i = word.length

theorem TreeOk.exists_depth (h : TreeOk freq node nleaf nnodes) (hroot : root.toNat + 1 = nnodes) :
    ∃ depth, IsDepth node root depth := by
  have hlength : ∀ i, ∃ n, ∀ word, followPath node root word = some i → n = word.length := fun i => by
    by_cases hi : ∃ word, followPath node root word = some i
    · obtain ⟨word, hword⟩ := hi
      exact ⟨word.length, fun word' hword' => by rw [h.path_unique hroot hword hword']⟩
    · exact ⟨0, fun word hword => absurd ⟨word, hword⟩ hi⟩
  choose depth hdepth using hlength
  exact ⟨depth, fun word i => hdepth i word⟩

theorem IsDepth.root_eq (h : IsDepth node root depth) : depth root = 0 := h [] root rfl

/-- A child is one deeper than its parent. -/
theorem IsDepth.child_eq (h : IsDepth node root depth) (ht : TreeOk freq node nleaf nnodes)
    (hroot : root.toNat + 1 = nnodes) {w : Count} {l r : NodeIdx} (hi : i.toNat < nnodes)
    (he : nodeAt node i = some (.internal w l r)) (d : Bool) : depth (childOf d l r) = depth i + 1 := by
  obtain ⟨word, hword⟩ := ht.exists_path (root := root) (by omega) i hi
  rw [h word i hword, h (word ++ [d]) _ (followPath_snoc.2 ⟨i, w, l, r, hword, he, rfl⟩), List.length_append,
    List.length_singleton]

/-- Two leaves of one symbol are one leaf (10_state.md R38, item 5). -/
theorem TreeOk.leaf_unique (h : TreeOk freq node nleaf nnodes) {a : Symbol} {w w' : Count} (hi : i.toNat < nnodes)
    (hj : j.toNat < nnodes) (he : nodeAt node i = some (.leaf a w)) (he' : nodeAt node j = some (.leaf a w')) : i = j := by
  have hil := (h.present_of_leaf hi he).1
  have hjl := (h.present_of_leaf hj he').1
  rcases Nat.lt_trichotomy i.toNat j.toNat with hlt | heq | hgt
  · exact absurd (h.ascending _ _ _ _ _ _ hlt hjl he he') (Nat.lt_irrefl _)
  · exact BitVec.eq_of_toNat_eq heq
  · exact absurd (h.ascending _ _ _ _ _ _ hgt hil he' he) (Nat.lt_irrefl _)

/-- A leaf stands as deep as the codeword of its symbol is long. -/
theorem IsDepth.leaf_eq (h : IsDepth node root depth) (ht : TreeOk freq node nleaf nnodes) {table : Table CodeEntry}
    (hcode : CodeOk freq node root table) (hroot : ∃ w l r, nodeAt node root = some (.internal w l r))
    (hlt : root.toNat < nnodes) {a : Symbol} {w : Count} (hi : i.toNat < nnodes) (he : nodeAt node i = some (.leaf a w)) :
    depth i = (tableCode table a).length := by
  obtain ⟨j, w', hpath, hj⟩ := hcode.isCodewordOf (ht.present_of_leaf hi he).2 hroot
  obtain rfl := ht.leaf_unique hi (ht.followPath_lt hlt hpath) he hj
  exact h _ _ hpath

/-! ### One merge and the weights of the queue (40_build.md R96) -/

theorem weightAt_le_of_before (h : before node i j = .ok true) : weightAt node i ≤ weightAt node j := by
  obtain ⟨ei, ej, hi, hj, hkeys⟩ := before_eq_ok_iff.1 h
  rw [weightAt_of_some hi, weightAt_of_some hj]
  rw [beforeKeys_iff] at hkeys
  omega

/-- A merge puts one root in the place of the two least, with both for children and the sum of their weights. -/
structure MergesLeast (b b' : TreeBuild) (lo hi : NodeIdx) (rest : List NodeIdx) (new : NodeIdx) : Prop where
  before : b.pq.Perm (lo :: hi :: rest)
  after : b'.pq = rest ++ [new]
  next : new.toNat = b.next
  least : weightAt b.node lo ≤ weightAt b.node hi ∧ ∀ k ∈ rest, weightAt b.node hi ≤ weightAt b.node k
  kept : ∀ k ∈ rest, weightAt b'.node k = weightAt b.node k
  weight : weightAt b'.node new = weightAt b.node lo + weightAt b.node hi
  entry : ∃ w, nodeAt b'.node new = some (.internal w lo hi)

theorem mergeStep_mergesLeast {b b' : TreeBuild} (h : ForestOk freq b) (hq : 1 < b.pq.length) (hs : mergeStep b = .ok b') :
    ∃ lo hi rest new, MergesLeast b b' lo hi rest new := by
  obtain ⟨lo, hi, pq1, pq2, el, eh, w, h1, h2, hl, hh, hw, rfl⟩ := mergeStep_cases hs
  have hperm1 := takeLeast_perm h1
  have hperm2 := takeLeast_perm h2
  have hperm : b.pq.Perm (lo :: hi :: pq2) := hperm1.trans (hperm2.cons lo)
  have hnext := h.toNat_next hq
  have hnodup : (lo :: hi :: pq2).Nodup := hperm.nodup_iff.1 h.nodup.of_map
  obtain ⟨hlo, hrest⟩ := List.nodup_cons.1 hnodup
  obtain ⟨hhi, -⟩ := List.nodup_cons.1 hrest
  have hqueued : ∀ k ∈ lo :: hi :: pq2, k.toNat < b.next := fun k hk => h.queued_lt (hperm.symm.subset hk)
  exact ⟨lo, hi, pq2, BitVec.ofNat 9 b.next,
    { before := hperm
      after := rfl
      next := hnext
      least := ⟨weightAt_le_of_before (takeLeast_before h1 (hperm.symm.subset (by simp)) fun h => hlo (by simp [h])),
        fun k hk => weightAt_le_of_before (takeLeast_before h2 (hperm2.symm.subset (List.mem_cons_of_mem _ hk))
          fun h => hhi (h ▸ hk))⟩
      kept := fun k hk => by rw [weightAt, nodeAt_put_of_lt (hqueued k (by simp [hk])), weightAt]
      weight := by
        have hnew := weightAt_put_same (node := b.node) (BitVec.ofNat 9 b.next) (.internal w lo hi)
        rw [hnext] at hnew
        rw [hnew, entryWeight, hw, weightAt_of_some hl, weightAt_of_some hh]
      entry := ⟨w, by rw [nodeAt_eq, hnext, tableGet_put_same]⟩ }⟩

/-- The merge loop leaves the entries below the next index. -/
theorem mergeLoop_keeps_entries {fuel : Nat} {b c : TreeBuild} (h : mergeLoop fuel b = .ok c) :
    b.next ≤ c.next ∧ ∀ k < b.next, tableGet c.node k = tableGet b.node k :=
  mergeLoop_keeps (P := fun x => b.next ≤ x.next ∧ ∀ k < b.next, tableGet x.node k = tableGet b.node k)
    (fun x x' hx _ hs => by
      obtain ⟨lo, hi, pq1, pq2, el, eh, w, -, -, -, -, -, rfl⟩ := mergeStep_cases hs
      obtain ⟨hle, hsame⟩ := hx
      exact ⟨Nat.le_succ_of_le hle, fun k hk => (tableGet_put_other _ _ (by omega)).trans (hsame k hk)⟩)
    ⟨le_rfl, fun _ _ => rfl⟩ h

/-! ### The merge loop against any lengths -/

/-- The sum over the queue of weight times depth in the final tree. -/
def queueCost (depth : NodeIdx → Nat) (b : TreeBuild) : Nat := (b.pq.map fun i => weightAt b.node i * depth i).sum

/-- At the end the queue holds the root, whose depth is 0. -/
theorem IsDepth.queueCost_root {c : TreeBuild} (h : IsDepth c.node root depth) (hroot : c.pq = [root]) :
    queueCost depth c = 0 := by
  simp [queueCost, hroot, h.root_eq]

/-- A merge takes the weight of its two roots off the cost: they are one deeper than their parent. -/
theorem MergesLeast.queueCost_eq {b b' : TreeBuild} {lo hi new : NodeIdx} {rest : List NodeIdx}
    (h : MergesLeast b b' lo hi rest new) (hlo : depth lo = depth new + 1) (hhi : depth hi = depth new + 1) :
    queueCost depth b = queueCost depth b' + (weightAt b.node lo + weightAt b.node hi) := by
  have hkept : ∀ k ∈ rest, weightAt b'.node k * depth k = weightAt b.node k * depth k := fun k hk => by rw [h.kept k hk]
  rw [queueCost, queueCost, (h.before.map _).sum_eq, h.after, List.map_append, List.map_congr_left hkept]
  simp [h.weight, hlo, hhi]
  ring

/-- Lengths for the queue before a merge give lengths for the queue after it that weigh less by the weight of its two
roots. -/
theorem MergesLeast.exists_pairs {b b' : TreeBuild} {lo hi new : NodeIdx} {rest : List NodeIdx}
    (h : MergesLeast b b' lo hi rest new) {pairs : Multiset (ℕ × ℕ)}
    (hweights : pairs.map Prod.fst = b.pq.map (weightAt b.node)) (hkraft : kraftSum (pairs.map Prod.snd) ≤ 1) :
    ∃ pairs' : Multiset (ℕ × ℕ), pairs'.map Prod.fst = b'.pq.map (weightAt b'.node) ∧
      kraftSum (pairs'.map Prod.snd) ≤ 1 ∧
      weightedSum pairs' + (weightAt b.node lo + weightAt b.node hi) ≤ weightedSum pairs := by
  have hperm : pairs.map Prod.fst =
      weightAt b.node lo ::ₘ weightAt b.node hi ::ₘ (rest.map (weightAt b.node) : Multiset ℕ) :=
    hweights.trans (Multiset.coe_eq_coe.2 (h.before.map (weightAt b.node)))
  obtain ⟨⟨x, p⟩, pairs1, rfl, hx, hrest1⟩ := exists_cons_of_map_eq_cons hperm
  obtain ⟨⟨y, q⟩, pairs2, rfl, hy, hrest2⟩ := exists_cons_of_map_eq_cons hrest1
  obtain rfl : weightAt b.node lo = x := hx.symm
  obtain rfl : weightAt b.node hi = y := hy.symm
  have hleast : ∀ z ∈ pairs2, weightAt b.node hi ≤ z.1 := fun z hz => by
    have hmem : z.1 ∈ rest.map (weightAt b.node) := by simpa [hrest2] using Multiset.mem_map_of_mem Prod.fst hz
    obtain ⟨k, hk, heq⟩ := List.mem_map.1 hmem
    exact heq ▸ h.least.2 k hk
  obtain ⟨n, pairs3, hfst, hkraft', hcost⟩ := exists_sibling_lengths h.least.1 hleast (by simpa using hkraft)
  refine ⟨(weightAt b'.node new, n) ::ₘ pairs3, ?_, by simpa using hkraft', ?_⟩
  · rw [Multiset.map_cons, hfst, hrest2, h.after, List.map_append, List.map_congr_left h.kept, List.map_singleton]
    exact Multiset.coe_eq_coe.2 (List.perm_append_singleton _ _).symm
  · simp only [weightedSum_cons, h.weight]
    rw [mul_add, mul_one] at hcost
    omega

/-- No lengths for the queue whose Kraft sum is at most 1 weigh less than its depths in the final tree. -/
theorem mergeLoop_queueCost_le {fuel : Nat} {b c : TreeBuild} (h : ForestOk freq b) (hm : mergeLoop fuel b = .ok c)
    (hroot : c.pq = [root]) (hdepth : IsDepth c.node root depth) {pairs : Multiset (ℕ × ℕ)}
    (hweights : pairs.map Prod.fst = b.pq.map (weightAt b.node)) (hkraft : kraftSum (pairs.map Prod.snd) ≤ 1) :
    queueCost depth b ≤ weightedSum pairs := by
  induction fuel generalizing b pairs with
  | zero =>
    obtain rfl : b = c := by simpa [mergeLoop] using hm
    exact (hdepth.queueCost_root hroot).trans_le (Nat.zero_le _)
  | succ fuel ih =>
    have hforest := mergeLoop_forest h hm
    have htree := hforest.treeOk hroot
    have hrooteq := hforest.root_eq hroot
    rw [mergeLoop] at hm
    split at hm
    · rename_i hq
      split at hm
      · rename_i b1 hs
        obtain ⟨lo, hi, rest, new, hmerge⟩ := mergeStep_mergesLeast h hq hs
        obtain ⟨w, hnew⟩ := hmerge.entry
        have hcount := (mergeStep_counts hs).2
        obtain ⟨hle, hsame⟩ := mergeLoop_keeps_entries hm
        have hlt : new.toNat < b1.next := by rw [hmerge.next]; omega
        have hentry : nodeAt c.node new = some (.internal w lo hi) := (hsame _ hlt).trans hnew
        have hchild := hdepth.child_eq htree (by omega) (hlt.trans_le hle) hentry
        have hsplit := hmerge.queueCost_eq (hchild false) (hchild true)
        obtain ⟨pairs', hweights', hkraft', hcost⟩ := hmerge.exists_pairs hweights hkraft
        have hrest := ih (mergeStep_forest h hq hs) hm hweights' hkraft'
        omega
      · cases hm
    · obtain rfl : b = c := Except.ok.inj hm
      exact (hdepth.queueCost_root hroot).trans_le (Nat.zero_le _)

/-! ### The whole builder (R93, R110) -/

/-- What is read of each queued leaf after seeding is read of each symbol present, in order. -/
theorem seedLeaves_pq_map {β : Type} {f : NodeIdx → β} {g : Symbol → β}
    (h : ∀ i a, i.toNat < (seedLeaves freq node).next →
      nodeAt (seedLeaves freq node).node i = some (.leaf a (freqAt freq a)) → f i = g a) :
    (seedLeaves freq node).pq.map f = (presentSymbols freq).map g := by
  obtain ⟨hnext, hpq, hleaf, -⟩ := seedLeaves_spec freq node
  have hlen := length_presentSymbols_le (freq := freq)
  rw [hpq, List.map_map]
  refine List.ext_getElem (by simp) fun k _ hk => ?_
  have hk : k < (presentSymbols freq).length := by simpa using hk
  have hidx : (BitVec.ofNat 9 k).toNat = k := by rw [BitVec.toNat_ofNat]; omega
  simpa using h (BitVec.ofNat 9 k) _ (by omega)
    ((congrArg (tableGet _) hidx).trans (hleaf k _ (List.getElem?_eq_getElem hk)))

/-- An absent symbol adds nothing to the cost of a code. -/
theorem codeCost_eq_sum_present (freq : Table Count) (code : Symbol → List Bool) :
    codeCost freq code = ((presentSymbols freq).map fun a => (freqAt freq a).toNat * (code a).length).sum := by
  unfold codeCost presentSymbols
  induction allSymbols with
  | nil => rfl
  | cons a rest ih =>
    by_cases ha : freqAt freq a = 0#32
    · simp [ha, ih]
    · simp [ha, ih]

/-- The code DERIVE reads from a tree of more than one leaf costs no more than any other for its counts in which no
codeword begins another. -/
theorem codeCost_le_of_buildTree {t : BuiltTree} {table : Table CodeEntry} (ht : buildTree freq node = .ok t)
    (hcode : CodeOk freq t.node t.root table) (hmany : 2 ≤ t.nleaf.toNat) {code : Symbol → List Bool}
    (hprefix : IsPrefixCode freq code) : codeCost freq (tableCode table) ≤ codeCost freq code := by
  have hb := buildTree_ok ht
  obtain ⟨hnleaf, hnn, hrooteq⟩ : _ ∧ _ ∧ _ := ⟨hb.nleaf, hb.nnodes, hb.root⟩
  obtain ⟨w, l, r, -, -, hroot, -⟩ := hb.tree.internals t.root.toNat (by omega) (by omega)
  obtain ⟨depth, hdepth⟩ := hb.tree.exists_depth (root := t.root) (by omega)
  obtain ⟨c, root, hm, hpq, rfl⟩ := buildTree_cases ht
  obtain ⟨-, hsame⟩ := mergeLoop_keeps_entries hm
  have hseed := seedLeaves_forest freq node
  have hweights : (seedLeaves freq node).pq.map (weightAt (seedLeaves freq node).node) =
      (presentSymbols freq).map fun a => (freqAt freq a).toNat :=
    seedLeaves_pq_map fun i a _ he => weightAt_of_some he
  have hcost : queueCost depth (seedLeaves freq node) = codeCost freq (tableCode table) := by
    rw [queueCost, codeCost_eq_sum_present]
    refine congrArg List.sum (seedLeaves_pq_map fun i a hi he => ?_)
    have hnext := (seedLeaves_spec freq node).1
    have hleaf : nodeAt c.node i = some (.leaf a (freqAt freq a)) := (hsame _ hi).trans he
    rw [weightAt_of_some he, hdepth.leaf_eq hb.tree hcode ⟨w, l, r, hroot⟩ (by omega) (by omega) hleaf]
    rfl
  rw [← hcost, codeCost_eq_sum_present]
  have := mergeLoop_queueCost_le hseed hm hpq hdepth
    (pairs := (presentSymbols freq).map fun a => ((freqAt freq a).toNat, (code a).length))
    (by simp [hweights, Function.comp_def]) (by simpa [presentLengths, Function.comp_def] using hprefix.kraftSum_le)
  simpa [weightedSum, Function.comp_def] using this

/-- Settles O53: no codeword begins another because each ends at a leaf of the tree, and the cost is that of the depths the
merge loop makes, which no lengths that meet the Kraft inequality go below. -/
theorem codeIsOptimal : Obligations.CodeIsOptimal := by
  intro s t u hmode htv hcv hbuild htree hderive hmany
  rcases exec_cases hbuild with ⟨e, v, rfl⟩ | hbuilt
  · simp [htv] at htree
  cases hbuilt with
  | build b _ _ _ hb =>
    have hok := buildTree_ok hb
    obtain ⟨hpos, hnn, hroot⟩ : _ ∧ _ ∧ _ := ⟨hok.pos, hok.nnodes, hok.root⟩
    obtain ⟨table, htable⟩ := deriveCodes_total hok.tree (root := b.root) (by omega) (by omega)
    obtain rfl := Host.Outcome.next.inj (hderive.symm.trans (exec_derive_codes hmode rfl hcv htable))
    have hcode : CodeOk s.mem.freq b.node b.root table := deriveCodes_codeOk hok.tree hpos hnn hroot htable
    exact ⟨hcode.isPrefixCode hok.tree (by omega) (by omega), fun code hprefix =>
      codeCost_le_of_buildTree hb hcode hmany hprefix⟩

end Sys2Proof.Machine
end

section
/-! SUPPORT. The errors of the commands (60_exceptions.md R171 to R176): which command raises which error, under what
condition and with what info, and that a command which answers otherwise succeeds. -/

namespace Sys2Proof.Machine

variable {s t : State} {i : Instr}

/-! ### The error path (R174) -/

theorem errorNumber_bounds (e : ErrorCode) : 1 ≤ (errorNumber e).toNat ∧ (errorNumber e).toNat ≤ 7 := by
  cases e <;> decide

/-- Settles O12: a command that answers has its effect and responds OK, or leaves by the one error path. -/
theorem errorsChangeNothingElse : Obligations.ErrorsChangeNothingElse := by
  intro i s t r hexec hr hne
  rcases exec_cases hexec with ⟨e, v, rfl⟩ | heff
  · obtain ⟨hpos, hle⟩ := errorNumber_bounds e
    exact ⟨_, _, hpos, hle, v.isLt, raiseError_eq_erred s e v⟩
  · obtain ⟨d, hd⟩ := heff.rsp_ok
    obtain rfl : ⟨0#4, d⟩ = r := by simpa [hd] using hr
    exact absurd rfl hne

/-! ### The errors of each command (R171 to R173) -/

/-- The rows of R171 and R173: the error a command raises in the state `s` and the info of R172. -/
inductive Raises (s : State) : Instr → ErrorCode → Info → Prop where
  | empty (total : s.total = 0#32) : Raises s .build .empty 0#9
  | unknown (a : Symbol) (e : CodeEntry) (entry : readCode s a = some e) (valid : e.valid = false) :
      Raises s (.enc a) .unknown (a.setWidth 9)
  | trunc (ptr : s.ptr ≠ s.root) : Raises s .decend .trunc s.ptr
  | seq (i : Instr) (illegal : ¬LegalIn s.mode s.tv s.cv i) : Raises s i .seq ((instrOpcode i).setWidth 9)
  | illegal (rest : BitVec 12) : Raises s (.reservedF rest) .illegal 15#9
  | overflow (a : Symbol) (total : s.total.toNat = Config.maxCount) : Raises s (.sym a) .overflow (a.setWidth 9)
  | register (r : RegNum) (range : 8 ≤ r.toNat) : Raises s (.rdreg r) .range (r.setWidth 9)
  | node (n : NodeIdx) (range : s.nnodes.toNat ≤ n.toNat) : Raises s (.rdnode n) .range n

/-- A result of the command: an OK response, an error of R173, or a fault. -/
inductive OkOrRaises (s : State) (i : Instr) : Result → Prop where
  | ok (d : RspData) (u : State) : OkOrRaises s i (succeed d u)
  | raised {e : ErrorCode} {v : Info} (error : Raises s i e v) : OkOrRaises s i (abort e v s)
  | fault (f : Fault) : OkOrRaises s i (.fault f)

theorem okOrRaises_decodeMove (nxt : NodeIdx) : OkOrRaises s i (decodeMove nxt s) := by
  unfold decodeMove
  split
  · exact .fault _
  · exact .ok _ _
  · exact .ok _ _

/-- Past the eight registers of 10_state.md R37 no register is named. -/
theorem le_of_registerValue_none {r : RegNum} (h : registerValue s r = none) : 8 ≤ r.toNat := by
  simpa [h] using registerValue_toNat r s

/-- Where a command is legal, the checks of its rule lead to the errors of R173 only. -/
theorem exec_okOrRaises_of_legal (h : LegalIn s.mode s.tv s.cv i) : OkOrRaises s i (exec i s) := by
  cases i <;> simp only [LegalIn] at h
  case nop | clr | rdfreq => exact .ok _ _
  case reservedF rest => exact .raised (.illegal rest)
  case sym a =>
    simp only [exec, execSym, if_pos h]
    split
    next hfull => exact .raised (.overflow a hfull)
    next =>
      split
      · exact .ok _ _
      · exact .fault _
  case build =>
    simp only [exec, execBuild, if_pos h]
    split
    next hempty => exact .raised (.empty hempty)
    next =>
      split
      · exact .ok _ _
      · exact .fault _
  case derive | rdcode =>
    simp only [exec, execDerive, execRdcode, if_pos h]
    split
    · exact .ok _ _
    · exact .fault _
  case encbeg | encend | decbeg =>
    simp only [exec, execEncbeg, execEncend, execDecbeg, if_pos h]
    exact .ok _ _
  case enc a =>
    simp only [exec, execEnc, if_pos h]
    split
    next => exact .fault _
    next e he =>
      split
      next hvalid => exact .raised (.unknown a e he hvalid)
      next => exact .ok _ _
  case dbit =>
    simp only [exec, execDbit, if_pos h]
    split
    · exact .fault _
    · exact .ok _ _
    · split
      · exact .fault _
      · exact .fault _
      · exact okOrRaises_decodeMove _
  case decend =>
    simp only [exec, execDecend, if_pos h]
    split
    next hptr => exact .raised (.trunc hptr)
    next => exact .ok _ _
  case rdreg r =>
    simp only [exec, execRdreg]
    split
    next => exact .ok _ _
    next hnone => exact .raised (.register r (le_of_registerValue_none hnone))
  case rdnode n =>
    simp only [exec, execRdnode, if_pos h]
    split
    next hrange => exact .raised (.node n hrange)
    next =>
      split
      · exact .ok _ _
      · exact .fault _

/-- All a command can answer, by the order of R176: `E_SEQ` first, then the errors of its own checks. -/
theorem exec_okOrRaises (i : Instr) (s : State) : OkOrRaises s i (exec i s) := by
  by_cases hlegal : LegalIn s.mode s.tv s.cv i
  · exact exec_okOrRaises_of_legal hlegal
  · rw [exec_of_not_legal hlegal, ← abortSeq_eq_erred]
    exact .raised (.seq i hlegal)

/-- The commands that are legal in every state (45_pipelines.md R155), and the reserved opcode, never raise `E_SEQ`. -/
theorem instrOpcode_notMem_of_not_legal (h : ¬LegalIn s.mode s.tv s.cv i) :
    instrOpcode i ∉ [0x0#4, 0x1#4, 0xB#4, 0xC#4, 0xF#4] := by
  cases i with
  | nop | clr | rdreg | rdfreq | reservedF => exact absurd trivial h
  | sym | build | derive | encbeg | enc | encend | decbeg | dbit | decend | rdnode | rdcode => simp [instrOpcode]

/-- The info of an operand narrower than the info field is the operand's number (R172). -/
theorem raiseError_setWidth_eq_erred {w : Nat} (e : ErrorCode) (x : BitVec w) (hw : w ≤ 9) (s : State) :
    raiseError e (x.setWidth 9) s = erred s (errorNumber e).toNat x.toNat := by
  rw [raiseError_eq_erred, BitVec.toNat_setWidth_of_le hw]

/-- Settles O13: an error response carries the code of one row of R173, and the code picks the row. -/
theorem errorsByCommand : Obligations.ErrorsByCommand := by
  intro i s t r hexec hr
  have hanswer := exec_okOrRaises i s
  rw [hexec] at hanswer
  cases hanswer with
  | ok d u =>
    obtain rfl : ⟨0#4, d⟩ = r := by simpa using hr
    simp
  | @raised e v hraises =>
    obtain rfl : ⟨errorNumber e, 0#264⟩ = r := by simpa using hr
    have row {f : ErrorCode} (h : errorNumber e = errorNumber f) : e = f := errorNumber_injective h
    refine ⟨fun hc => ?_, fun hc => ?_, fun hc => ?_, fun hc => ?_, fun hc => ?_, fun hc => ?_, fun hc => ?_,
      (errorNumber_bounds e).2⟩
    · obtain rfl := row (f := .empty) hc
      cases hraises with
      | empty htotal => exact ⟨rfl, htotal, raiseError_eq_erred s .empty 0#9⟩
    · obtain rfl := row (f := .unknown) hc
      cases hraises with
      | unknown a entry hentry hvalid =>
        exact ⟨a, entry, rfl, hentry, hvalid, raiseError_setWidth_eq_erred .unknown a (by decide) s⟩
    · obtain rfl := row (f := .trunc) hc
      cases hraises with
      | trunc hptr => exact ⟨rfl, hptr, raiseError_eq_erred s .trunc s.ptr⟩
    · obtain rfl := row (f := .seq) hc
      cases hraises with
      | seq _ hillegal =>
        exact ⟨raiseError_setWidth_eq_erred .seq _ (by decide) s, instrOpcode_notMem_of_not_legal hillegal⟩
    · obtain rfl := row (f := .illegal) hc
      cases hraises with
      | illegal rest => exact ⟨⟨rest, rfl⟩, raiseError_eq_erred s .illegal 15#9⟩
    · obtain rfl := row (f := .overflow) hc
      cases hraises with
      | overflow a htotal => exact ⟨a, rfl, htotal, raiseError_setWidth_eq_erred .overflow a (by decide) s⟩
    · obtain rfl := row (f := .range) hc
      cases hraises with
      | register n hrange => exact .inl ⟨n, rfl, hrange, raiseError_setWidth_eq_erred .range n (by decide) s⟩
      | node _ hrange => exact .inr ⟨v, rfl, hrange, raiseError_eq_erred s .range v⟩

end Sys2Proof.Machine
end

section
/-! SUPPORT. Reset (10_state.md R45; 70_reset_and_hazards.md R190 to R192): the values it leaves, what a host can read of them,
and the step that asserts it. -/

namespace Sys2Proof.Machine

variable {s : State} {rest : List HostAction}

/-! ### The reset values as the host reads them (R45, R191) -/

@[simp] theorem readFreq_reset (a : Symbol) : readFreq State.reset a = 0#32 := rfl

theorem registerValue_reset_status : registerValue State.reset 0#4 = some 0x0000#32 := rfl

/-- CONFIG is a constant, so it reads the same in every state. -/
theorem registerValue_config (s : State) : registerValue s 7#4 = some 0x2008#32 := rfl

/-- Settles O10: the registers are read off the definition; without a tree and without a table, RDNODE and RDCODE answer
`E_SEQ`; RDREG answers STATUS and CONFIG. -/
theorem resetValues : Obligations.ResetValues := by
  refine ⟨rfl, rfl, rfl, rfl, rfl, rfl, rfl, rfl, rfl, rfl, rfl, rfl, readFreq_reset, ?_, ?_, ?_, ?_⟩
  · exact exec_rdnode_without_tree rfl
  · exact exec_rdcode_without_table rfl
  · exact exec_rdreg_named registerValue_reset_status
  · exact exec_rdreg_named (registerValue_config State.reset)

/-! ### The step that asserts reset (R190, R192) -/

theorem step_reset (h : s.host = .reset :: rest) : step s = .next { State.reset with host := rest } := by
  rw [step, hostStep, h]
  simp only [resetCore]

/-- Settles O11: nothing of the state before it is left in what a reset steps to. -/
theorem resetFromEveryState : Obligations.ResetFromEveryState := fun _ _ => step_reset

end Sys2Proof.Machine
end
